-- ==== Sys2Proof/Word.lean ====
section
/-!
DEFINITION. The word types of the block.

A `Bits(n)` of the spec (00_scope.md rules R8 and R9) is a `BitVec n`; its sequence index `s`, counted from
the most significant end, is `BitVec.getMsbD`, and a register bit number, counted from the least significant
end, is `BitVec.getLsbD`. The concatenation of rule R10 is `++`, its exclusive-or is `^^^`.
-/

namespace Sys2Proof

/-- A byte of a message buffer (10_state.md rules R35, R36). -/
abbrev Byte := BitVec 8

/-- A host bus word, and a command word (20_memory.md rule R60, 30_encoding.md rule R100). -/
abbrev Word := BitVec 32

/-- A Block of message data, and a KeyMaterial (00_scope.md rule R6). -/
abbrev Block := BitVec 64

/-- One subkey of the RoundKey (00_scope.md rule R6). -/
abbrev Subkey := BitVec 48

/-- A key half C or D (10_state.md rule R37). -/
abbrev KeyHalf := BitVec 28

/-- A Feistel half L or R (10_state.md rule R38). -/
abbrev Half := BitVec 32

/-- A byte offset in the host window (20_memory.md rule R61). -/
abbrev Offset := BitVec 18

end Sys2Proof
end

