-- ==== Sys2Proof/Syntax.lean ====
section
/-!
DEFINITION. The commands: one constructor for each row of spec/opcode_table.json.
-/

namespace Sys2Proof

/-- A command of the block (30_encoding.md rule R101). PADIN of MSG_DEC is the only operand a command word
carries (rule R106); ILLEGAL carries the word that spells no command, so that no bit of it is lost. -/
inductive Instr where
  /-- NOP: do nothing (40_command_sequencer.md rule R130) -/
  | nop
  /-- CLEAR: discard the transient state (40_command_sequencer.md rule R131) -/
  | clear
  /-- KS_DERIVE: derive the 16 subkeys from KEY into RK (43_key_schedule.md rule R188) -/
  | ksDerive
  /-- BLK_ENC: encrypt the Block in DIN (44_feistel_round_engine.md rule R208) -/
  | blkEnc
  /-- BLK_DEC: decrypt the Block in DIN (44_feistel_round_engine.md rule R209) -/
  | blkDec
  /-- MSG_ENC: encode the message in IN_BUF (45_block_framer.md rule R228) -/
  | msgEnc
  /-- MSG_DEC pad=`padin`: decode the ciphertext in IN_BUF (45_block_framer.md rule R230) -/
  | msgDec (padin : BitVec 3)
  /-- ILLEGAL: a word that spells no command (40_command_sequencer.md rule R135) -/
  | illegal (word : Word)
  deriving DecidableEq, Repr

end Sys2Proof
end

