-- ==== Sys2Proof/WellFormed.lean ====
section
/-!
DEFINITION. Well-formed commands.

Every field of every constructor but one is a value the encoding admits by its type. The exception is ILLEGAL:
it stands for exactly the words outside the 14 legal ones, which are listed here as 30_encoding.md rule R104
lists them (Decode.lean decides the same words by that rule's formula).
-/

namespace Sys2Proof

/-- The 14 legal command words, in the words of 30_encoding.md rule R104. -/
def legalWords : List Word :=
  [0x00000000#32, 0x00000001#32, 0x00000002#32, 0x00000003#32, 0x00000004#32, 0x00000005#32,
   0x00000006#32, 0x00000106#32, 0x00000206#32, 0x00000306#32, 0x00000406#32, 0x00000506#32,
   0x00000606#32, 0x00000706#32]

/-- A command as the decoder may give it: the word of an ILLEGAL is none of the legal words
(30_encoding.md rule R110). -/
def Instr.wf : Instr → Bool
  | .nop => true
  | .clear => true
  | .ksDerive => true
  | .blkEnc => true
  | .blkDec => true
  | .msgEnc => true
  | .msgDec _ => true
  | .illegal word => !legalWords.contains word

end Sys2Proof
end

