-- ==== Sys2Proof/Decode.lean ====
section
/-!
DEFINITION. The decoder and the encoder of command words (30_encoding.md).

A command is one 32-bit word, the value the host writes to CMD. Its four bytes, lowest offset first, are the
word's bytes from the most significant down (20_memory.md rule R71: the block is big-endian).
-/

namespace Sys2Proof

/-- The OP field, bits 7:0 (30_encoding.md rule R100). -/
def opField (w : Word) : BitVec 8 := w.extractLsb' 0 8

/-- The PADIN field, bits 10:8 (30_encoding.md rules R100 and R102). -/
def padinField (w : Word) : BitVec 3 := w.extractLsb' 8 3

/-- The RSV field, bits 31:11 (30_encoding.md rules R100 and R103). -/
def rsvField (w : Word) : BitVec 21 := w.extractLsb' 11 21

/-- `legal(w)` as 30_encoding.md rule R104 writes it. -/
def legal (w : Word) : Bool :=
  rsvField w == 0 && ((decide (opField w ≤ 0x05#8) && padinField w == 0) || opField w == 0x06#8)

/-- The row of 30_encoding.md rule R101 for a legal word's OP, with PADIN for MSG_DEC. -/
def rowOf (op : BitVec 8) (padin : BitVec 3) (w : Word) : Instr :=
  if op = 0x00#8 then .nop
  else if op = 0x01#8 then .clear
  else if op = 0x02#8 then .ksDerive
  else if op = 0x03#8 then .blkEnc
  else if op = 0x04#8 then .blkDec
  else if op = 0x05#8 then .msgEnc
  else if op = 0x06#8 then .msgDec padin
  else .illegal w

/-- The decoder (30_encoding.md rule R110): total on 32-bit words. -/
def decode (w : Word) : Instr :=
  if legal w then rowOf (opField w) (padinField w) w else .illegal w

/-- Why a sequence of bytes is no command word. -/
inductive DecodeError where
  /-- fewer than the four bytes of a command word -/
  | tooShort (given : Nat)
  deriving DecidableEq, Repr

/-- The word of four bytes, the first the most significant (20_memory.md rule R71). -/
def wordOfBytes (b0 b1 b2 b3 : Byte) : Word := b0 ++ b1 ++ b2 ++ b3

/-- The bytes of a word, the first the most significant (20_memory.md rule R71). -/
def bytesOfWord (w : Word) : List Byte :=
  [w.extractLsb' 24 8, w.extractLsb' 16 8, w.extractLsb' 8 8, w.extractLsb' 0 8]

/-- The decoder on bytes: the command and the bytes after it, or the name of what is wrong. -/
def decodeBytes : List Byte → Except DecodeError (Instr × List Byte)
  | b0 :: b1 :: b2 :: b3 :: rest => .ok (decode (wordOfBytes b0 b1 b2 b3), rest)
  | short => .error (.tooShort short.length)

/-- The encoding of a command (30_encoding.md rule R107); an ILLEGAL encodes as its own word. -/
def encode : Instr → Word
  | .nop => 0x00000000#32
  | .clear => 0x00000001#32
  | .ksDerive => 0x00000002#32
  | .blkEnc => 0x00000003#32
  | .blkDec => 0x00000004#32
  | .msgEnc => 0x00000005#32
  | .msgDec padin => 0x00000006#32 ||| (padin.setWidth 32 <<< 8)
  | .illegal word => word

/-- The bytes of a command. -/
def encodeBytes (i : Instr) : List Byte := bytesOfWord (encode i)

/-- Bit numbers of spec/opcode_table.json: bit 0 is the least significant bit of the one 32-bit word. Bits at or
above `nbits` are 0. The word's bytes go to the decoder in the block's byte order. -/
def decodeTableWord (nbits w : Nat) : Option Instr :=
  match decodeBytes (bytesOfWord (BitVec.ofNat 32 (w % 2 ^ nbits))) with
  | .ok (i, _) => some i
  | .error _ => none

/-- A hexadecimal digit. -/
def hexDigit (n : Nat) : String :=
  match n with
  | 10 => "A" | 11 => "B" | 12 => "C" | 13 => "D" | 14 => "E" | 15 => "F"
  | d => toString d

/-- A 32-bit literal as the host syntax writes it. -/
def hexWord (w : Word) : String :=
  (List.range 8).foldl (fun text k => text ++ hexDigit (w.extractLsb' (4 * (7 - k)) 4).toNat) "0x"

/-- The assembler text of a command (30_encoding.md rule R107). -/
def asmText : Instr → String
  | .nop => "NOP"
  | .clear => "CLEAR"
  | .ksDerive => "KS_DERIVE"
  | .blkEnc => "BLK_ENC"
  | .blkDec => "BLK_DEC"
  | .msgEnc => "MSG_ENC"
  | .msgDec padin => "MSG_DEC pad=" ++ toString padin.toNat
  | .illegal word => ".word " ++ hexWord word

end Sys2Proof
end

