-- ==== Sys2Proof/Config.lean ====
section
/-!
DEFINITION. What an implementation fixes, and the free values.

00_scope.md rule R7 names four parameters and says that a model takes each as an argument. `Config` is that
argument. The free values are the draws of 20_memory.md rule R69 and 70_reset_and_hazards.md rule R281: they
have no body, so nothing can be proved of what they are.
-/

namespace Sys2Proof

/-- The parameter TABLES (00_scope.md rule R7; shapes in 41_bit_vector_and_permutation.md rule R147 and
42_substitution_box_array.md rule R170). Permutation entries are 1-based (rule R146). -/
structure Tables where
  /-- the initial permutation, 64 to 64 -/
  ip : List Nat
  /-- the final permutation, 64 to 64 -/
  fp : List Nat
  /-- the expansion table, 32 to 48 -/
  e : List Nat
  /-- the output permutation, 32 to 32 -/
  p : List Nat
  /-- the first key-compression table, 64 to 56 -/
  pc1 : List Nat
  /-- the second key-compression table, 56 to 48 -/
  pc2 : List Nat
  /-- the RotationSchedule: entry `i - 1` is the rotation of key-schedule step `i` -/
  shifts : List Nat
  /-- eight boxes of four rows of sixteen entries -/
  sbox : List (List (List Nat))
  deriving DecidableEq, Repr

/-- What the parameter LAT may depend on: the accepted word, PADIN in it, and everything a command reads
(00_scope.md rule R7, 30_encoding.md rule R106, 20_memory.md rule R76; log entry 2). -/
structure LatInput where
  /-- the accepted word -/
  word : Word
  /-- KEY -/
  key : Block
  /-- DIN -/
  din : Block
  /-- IN_LEN -/
  inLen : Word
  /-- the bytes of IN_BUF below IN_LEN, in index order (20_memory.md rule R72) -/
  inBuf : List Byte
  /-- RK[1..16] -/
  rk : Vector Subkey 16
  /-- STATUS.KSV -/
  ksv : Bool
  deriving DecidableEq, Repr

/-- The parameters of 00_scope.md rule R7. DESIGN CHOICE, log entries 1 and 2: they stand in the state as
plain data that no step changes, and LAT is the reference latency with a finite list of exceptions. -/
structure Config where
  /-- MAX_MSG_BYTES, the capacity of IN_BUF and of OUT_BUF -/
  maxMsgBytes : Nat
  /-- PAD_BYTE, the byte the framer appends -/
  padByte : Byte
  /-- TABLES -/
  tables : Tables
  /-- LAT where it differs from the reference latencies -/
  lat : List (LatInput × Nat)
  deriving DecidableEq, Repr

/-- FREE VALUE (20_memory.md rule R69, log entry 3): what the n-th read of a result register while BUSY
returns. -/
opaque Config.busyRead : Nat → Word

/-- FREE VALUE (70_reset_and_hazards.md rule R281, log entry 4): what an IN_BUF byte holds at power-on, fixed
until the host writes it. -/
opaque Config.inBufDraw : Nat → Byte

/-- FREE VALUE (10_state.md rule R36, log entry 6): what an OUT_BUF byte that no command has written holds.
The spec makes it unobservable; no reachable state shows it. -/
opaque Config.outBufDraw : Nat → Byte

end Sys2Proof
end

