-- ==== Sys2Proof/Machine/Tables.lean ====
section
/-!
DEFINITION. The default tables and parameters, and when a configuration is well-formed.

The values are those 41_bit_vector_and_permutation.md and 42_substitution_box_array.md give as the default of
the parameter TABLES (the spec marks them as general knowledge, FIPS PUB 46-3; log entry 17).
-/

namespace Sys2Proof

/-- IP, the initial permutation (41_bit_vector_and_permutation.md rule R148). -/
def Tables.fipsIP : List Nat :=
  [58, 50, 42, 34, 26, 18, 10, 2,
   60, 52, 44, 36, 28, 20, 12, 4,
   62, 54, 46, 38, 30, 22, 14, 6,
   64, 56, 48, 40, 32, 24, 16, 8,
   57, 49, 41, 33, 25, 17, 9, 1,
   59, 51, 43, 35, 27, 19, 11, 3,
   61, 53, 45, 37, 29, 21, 13, 5,
   63, 55, 47, 39, 31, 23, 15, 7]

/-- FP, the final permutation (41_bit_vector_and_permutation.md rule R149). -/
def Tables.fipsFP : List Nat :=
  [40, 8, 48, 16, 56, 24, 64, 32,
   39, 7, 47, 15, 55, 23, 63, 31,
   38, 6, 46, 14, 54, 22, 62, 30,
   37, 5, 45, 13, 53, 21, 61, 29,
   36, 4, 44, 12, 52, 20, 60, 28,
   35, 3, 43, 11, 51, 19, 59, 27,
   34, 2, 42, 10, 50, 18, 58, 26,
   33, 1, 41, 9, 49, 17, 57, 25]

/-- E, the expansion table (41_bit_vector_and_permutation.md rule R151). -/
def Tables.fipsE : List Nat :=
  [32, 1, 2, 3, 4, 5,
   4, 5, 6, 7, 8, 9,
   8, 9, 10, 11, 12, 13,
   12, 13, 14, 15, 16, 17,
   16, 17, 18, 19, 20, 21,
   20, 21, 22, 23, 24, 25,
   24, 25, 26, 27, 28, 29,
   28, 29, 30, 31, 32, 1]

/-- P, the output permutation (41_bit_vector_and_permutation.md rule R152). -/
def Tables.fipsP : List Nat :=
  [16, 7, 20, 21,
   29, 12, 28, 17,
   1, 15, 23, 26,
   5, 18, 31, 10,
   2, 8, 24, 14,
   32, 27, 3, 9,
   19, 13, 30, 6,
   22, 11, 4, 25]

/-- PC1, the first key-compression table (41_bit_vector_and_permutation.md rule R153). -/
def Tables.fipsPC1 : List Nat :=
  [57, 49, 41, 33, 25, 17, 9,
   1, 58, 50, 42, 34, 26, 18,
   10, 2, 59, 51, 43, 35, 27,
   19, 11, 3, 60, 52, 44, 36,
   63, 55, 47, 39, 31, 23, 15,
   7, 62, 54, 46, 38, 30, 22,
   14, 6, 61, 53, 45, 37, 29,
   21, 13, 5, 28, 20, 12, 4]

/-- PC2, the second key-compression table (41_bit_vector_and_permutation.md rule R154). -/
def Tables.fipsPC2 : List Nat :=
  [14, 17, 11, 24, 1, 5,
   3, 28, 15, 6, 21, 10,
   23, 19, 12, 4, 26, 8,
   16, 7, 27, 20, 13, 2,
   41, 52, 31, 37, 47, 55,
   30, 40, 51, 45, 33, 48,
   44, 49, 39, 56, 34, 53,
   46, 42, 50, 36, 29, 32]

/-- SHIFTS, the RotationSchedule (41_bit_vector_and_permutation.md rule R155). -/
def Tables.fipsSHIFTS : List Nat :=
  [1, 1, 2, 2, 2, 2, 2, 2, 1, 2, 2, 2, 2, 2, 2, 1]

/-- SBOX[0] (42_substitution_box_array.md rule R173). -/
def Tables.fipsSBOX0 : List (List Nat) :=
  [[14, 4, 13, 1, 2, 15, 11, 8, 3, 10, 6, 12, 5, 9, 0, 7],
   [0, 15, 7, 4, 14, 2, 13, 1, 10, 6, 12, 11, 9, 5, 3, 8],
   [4, 1, 14, 8, 13, 6, 2, 11, 15, 12, 9, 7, 3, 10, 5, 0],
   [15, 12, 8, 2, 4, 9, 1, 7, 5, 11, 3, 14, 10, 0, 6, 13]]

/-- SBOX[1] (42_substitution_box_array.md rule R173). -/
def Tables.fipsSBOX1 : List (List Nat) :=
  [[15, 1, 8, 14, 6, 11, 3, 4, 9, 7, 2, 13, 12, 0, 5, 10],
   [3, 13, 4, 7, 15, 2, 8, 14, 12, 0, 1, 10, 6, 9, 11, 5],
   [0, 14, 7, 11, 10, 4, 13, 1, 5, 8, 12, 6, 9, 3, 2, 15],
   [13, 8, 10, 1, 3, 15, 4, 2, 11, 6, 7, 12, 0, 5, 14, 9]]

/-- SBOX[2] (42_substitution_box_array.md rule R173). -/
def Tables.fipsSBOX2 : List (List Nat) :=
  [[10, 0, 9, 14, 6, 3, 15, 5, 1, 13, 12, 7, 11, 4, 2, 8],
   [13, 7, 0, 9, 3, 4, 6, 10, 2, 8, 5, 14, 12, 11, 15, 1],
   [13, 6, 4, 9, 8, 15, 3, 0, 11, 1, 2, 12, 5, 10, 14, 7],
   [1, 10, 13, 0, 6, 9, 8, 7, 4, 15, 14, 3, 11, 5, 2, 12]]

/-- SBOX[3] (42_substitution_box_array.md rule R173). -/
def Tables.fipsSBOX3 : List (List Nat) :=
  [[7, 13, 14, 3, 0, 6, 9, 10, 1, 2, 8, 5, 11, 12, 4, 15],
   [13, 8, 11, 5, 6, 15, 0, 3, 4, 7, 2, 12, 1, 10, 14, 9],
   [10, 6, 9, 0, 12, 11, 7, 13, 15, 1, 3, 14, 5, 2, 8, 4],
   [3, 15, 0, 6, 10, 1, 13, 8, 9, 4, 5, 11, 12, 7, 2, 14]]

/-- SBOX[4] (42_substitution_box_array.md rule R173). -/
def Tables.fipsSBOX4 : List (List Nat) :=
  [[2, 12, 4, 1, 7, 10, 11, 6, 8, 5, 3, 15, 13, 0, 14, 9],
   [14, 11, 2, 12, 4, 7, 13, 1, 5, 0, 15, 10, 3, 9, 8, 6],
   [4, 2, 1, 11, 10, 13, 7, 8, 15, 9, 12, 5, 6, 3, 0, 14],
   [11, 8, 12, 7, 1, 14, 2, 13, 6, 15, 0, 9, 10, 4, 5, 3]]

/-- SBOX[5] (42_substitution_box_array.md rule R173). -/
def Tables.fipsSBOX5 : List (List Nat) :=
  [[12, 1, 10, 15, 9, 2, 6, 8, 0, 13, 3, 4, 14, 7, 5, 11],
   [10, 15, 4, 2, 7, 12, 9, 5, 6, 1, 13, 14, 0, 11, 3, 8],
   [9, 14, 15, 5, 2, 8, 12, 3, 7, 0, 4, 10, 1, 13, 11, 6],
   [4, 3, 2, 12, 9, 5, 15, 10, 11, 14, 1, 7, 6, 0, 8, 13]]

/-- SBOX[6] (42_substitution_box_array.md rule R173). -/
def Tables.fipsSBOX6 : List (List Nat) :=
  [[4, 11, 2, 14, 15, 0, 8, 13, 3, 12, 9, 7, 5, 10, 6, 1],
   [13, 0, 11, 7, 4, 9, 1, 10, 14, 3, 5, 12, 2, 15, 8, 6],
   [1, 4, 11, 13, 12, 3, 7, 14, 10, 15, 6, 8, 0, 5, 9, 2],
   [6, 11, 13, 8, 1, 4, 10, 7, 9, 5, 0, 15, 14, 2, 3, 12]]

/-- SBOX[7] (42_substitution_box_array.md rule R173). -/
def Tables.fipsSBOX7 : List (List Nat) :=
  [[13, 2, 8, 4, 6, 15, 11, 1, 10, 9, 3, 14, 5, 0, 12, 7],
   [1, 15, 13, 8, 10, 3, 7, 4, 12, 5, 6, 11, 0, 14, 9, 2],
   [7, 11, 4, 1, 9, 12, 14, 2, 0, 6, 10, 13, 15, 3, 5, 8],
   [2, 1, 14, 7, 4, 10, 8, 13, 15, 12, 9, 0, 3, 5, 6, 11]]

/-- The default of TABLES (00_scope.md rule R7). -/
def Tables.fips : Tables where
  ip := Tables.fipsIP
  fp := Tables.fipsFP
  e := Tables.fipsE
  p := Tables.fipsP
  pc1 := Tables.fipsPC1
  pc2 := Tables.fipsPC2
  shifts := Tables.fipsSHIFTS
  sbox := [Tables.fipsSBOX0, Tables.fipsSBOX1, Tables.fipsSBOX2, Tables.fipsSBOX3,
           Tables.fipsSBOX4, Tables.fipsSBOX5, Tables.fipsSBOX6, Tables.fipsSBOX7]

/-- The defaults of 00_scope.md rule R7. -/
def Config.default : Config where
  maxMsgBytes := 4096
  padByte := 0x00#8
  tables := Tables.fips
  lat := []

/-- A permutation table of `len` entries, each in 1..`width` (41_bit_vector_and_permutation.md rules R147 and
R157; conditions 1 and 2 of rule R159). -/
def permTableWf (len width : Nat) (t : List Nat) : Bool :=
  t.length == len && t.all fun e => decide (1 ≤ e) && decide (e ≤ width)

/-- `second` undoes `first`: `second[first[i] - 1] = i + 1` for every index `i`
(41_bit_vector_and_permutation.md rule R150). -/
def undoes (second first : List Nat) : Bool :=
  first.map (fun e => second.getD (e - 1) 0) == List.range' 1 first.length

/-- Well-formed TABLES (41_bit_vector_and_permutation.md rule R159), its five conditions in order. -/
def Tables.wf (t : Tables) : Bool :=
  permTableWf 64 64 t.ip && permTableWf 64 64 t.fp && permTableWf 48 32 t.e && permTableWf 32 32 t.p &&
  permTableWf 56 64 t.pc1 && permTableWf 48 56 t.pc2 &&
  (t.shifts.length == 16 && t.shifts.all fun n => n == 1 || n == 2) &&
  (t.sbox.length == 8 && t.sbox.all fun box => box.length == 4 && box.all fun row =>
    row.length == 16 && row.all fun n => decide (n ≤ 15)) &&
  (undoes t.fp t.ip && undoes t.ip t.fp)

/-- A legal configuration: the legal values of 00_scope.md rule R7. -/
def Config.wf (c : Config) : Bool :=
  (c.maxMsgBytes % 8 == 0 && decide (8 ≤ c.maxMsgBytes) && decide (c.maxMsgBytes ≤ 65536)) &&
  c.tables.wf &&
  c.lat.all fun entry => decide (1 ≤ entry.2)

end Sys2Proof
end

