-- ==== Sys2Proof/Machine/Bits.lean ====
section
/-!
DEFINITION. Bit-vector utilities and the bit_permutation_unit (41_bit_vector_and_permutation.md).
-/

namespace Sys2Proof

/-- The `Bits(n)` whose sequence is `bits`, first bit first (00_scope.md rules R8 and R9). -/
def ofBits (n : Nat) (bits : List Bool) : BitVec n :=
  BitVec.ofNat n (bits.foldl (fun acc b => 2 * acc + b.toNat) 0)

/-- `v⟨i .. i+len-1⟩` (00_scope.md rule R10). -/
def slice {n : Nat} (v : BitVec n) (i len : Nat) : BitVec len :=
  v.extractLsb' (n - (i + len)) len

/-- to_bits, as the value 41_bit_vector_and_permutation.md rule R142 gives it: the first byte is the most
significant. -/
def toBits (n : Nat) (bytes : List Byte) : BitVec n :=
  BitVec.ofNat n (bytes.foldl (fun acc b => 256 * acc + b.toNat) 0)

/-- to_bytes of one Block, the one use of 41_bit_vector_and_permutation.md rule R141. -/
def toBytes (v : Block) : List Byte :=
  (List.range 8).map fun k => slice v (8 * k) 8

/-- rotate_left (41_bit_vector_and_permutation.md rule R144). -/
def rotl {n : Nat} (v : BitVec n) (k : Nat) : BitVec n :=
  v.rotateLeft k

/-- permute (41_bit_vector_and_permutation.md rule R145): output bit `i` is input bit `table[i] - 1`. `m` is the
output width, the table's length in a well-formed configuration (rules R147, R159). -/
def permute {n : Nat} (m : Nat) (v : BitVec n) (table : List Nat) : BitVec m :=
  ofBits m (table.map fun entry => v.getMsbD (entry - 1))

end Sys2Proof
end

