-- ==== Sys2Proof/Machine/Sbox.lean ====
section
/-!
DEFINITION. The substitution_box_array (42_substitution_box_array.md).
-/

namespace Sys2Proof

/-- The row a 6-bit group selects (42_substitution_box_array.md rule R171). -/
def sboxRow (g : BitVec 6) : Nat :=
  2 * (g.getMsbD 0).toNat + (g.getMsbD 5).toNat

/-- The column a 6-bit group selects (42_substitution_box_array.md rule R171). -/
def sboxCol (g : BitVec 6) : Nat :=
  8 * (g.getMsbD 1).toNat + 4 * (g.getMsbD 2).toNat + 2 * (g.getMsbD 3).toNat + (g.getMsbD 4).toNat

/-- `sbox(j, g)`: one box lookup (42_substitution_box_array.md rule R171). -/
def sbox (t : Tables) (j : Nat) (g : BitVec 6) : BitVec 4 :=
  BitVec.ofNat 4 (((t.sbox.getD j []).getD (sboxRow g) []).getD (sboxCol g) 0)

/-- `sba(x)`: the eight lanes (42_substitution_box_array.md rule R172). -/
def sba (t : Tables) (x : BitVec 48) : BitVec 32 :=
  sbox t 0 (slice x 0 6) ++ sbox t 1 (slice x 6 6) ++ sbox t 2 (slice x 12 6) ++ sbox t 3 (slice x 18 6) ++
  sbox t 4 (slice x 24 6) ++ sbox t 5 (slice x 30 6) ++ sbox t 6 (slice x 36 6) ++ sbox t 7 (slice x 42 6)

end Sys2Proof
end

