-- ==== Sys2Proof/Machine/Feistel.lean ====
section
/-!
DEFINITION. The DES_feistel_round_engine (44_feistel_round_engine.md).
-/

namespace Sys2Proof

/-- The two Feistel halves L and R (10_state.md rule R38). -/
structure FeistelHalves where
  l : Half
  r : Half
  deriving DecidableEq, Repr

/-- The round function f (44_feistel_round_engine.md rule R202, steps of rules R200 and R201). -/
def feistelF (t : Tables) (r : Half) (k : Subkey) : Half :=
  permute 32 (sba t (permute 48 r t.e ^^^ k)) t.p

/-- One round (44_feistel_round_engine.md rule R203). -/
def feistelRound (t : Tables) (h : FeistelHalves) (k : Subkey) : FeistelHalves where
  l := h.r
  r := h.l ^^^ feistelF t h.r k

/-- The initial load through IP (44_feistel_round_engine.md rule R204). -/
def loadBlock (t : Tables) (x : Block) : FeistelHalves where
  l := slice (permute 64 x t.ip) 0 32
  r := slice (permute 64 x t.ip) 32 32

/-- The rounds of DESX with the given subkeys, in the order given (44_feistel_round_engine.md rule R205). -/
def runRounds (t : Tables) (x : Block) (keys : List Subkey) : FeistelHalves :=
  keys.foldl (feistelRound t) (loadBlock t x)

/-- The store through FP, right then left (44_feistel_round_engine.md rule R205). -/
def storeBlock (t : Tables) (h : FeistelHalves) : Block :=
  permute 64 (h.r ++ h.l) t.fp

/-- `DESX(x, keys)` (44_feistel_round_engine.md rule R205). -/
def desx (t : Tables) (x : Block) (keys : List Subkey) : Block :=
  storeBlock t (runRounds t x keys)

/-- The subkeys in the order encoding uses them, 1..16 (44_feistel_round_engine.md rule R206). -/
def encodeOrder (rk : Vector Subkey 16) : List Subkey := rk.toList

/-- The subkeys in the order decoding uses them, 16..1 (44_feistel_round_engine.md rule R206). -/
def decodeOrder (rk : Vector Subkey 16) : List Subkey := rk.toList.reverse

end Sys2Proof
end

