-- ==== Sys2Proof/Machine/Framer.lean ====
section
/-!
DEFINITION. The framing functions of the DES_block_framer (45_block_framer.md section 1).
-/

namespace Sys2Proof

/-- `padcount(n)` (45_block_framer.md rule R220). -/
def padcount (n : Nat) : Nat := (8 - n % 8) % 8

/-- The padded message (45_block_framer.md rule R221). -/
def padMessage (padByte : Byte) (message : List Byte) : List Byte :=
  message ++ List.replicate (padcount message.length) padByte

/-- The 8 bytes of block `b` (45_block_framer.md rule R222). -/
def chunk (bytes : List Byte) (b : Nat) : List Byte :=
  (bytes.drop (8 * b)).take 8

/-- `block_b(M)` (45_block_framer.md rule R222). -/
def blockAt (bytes : List Byte) (b : Nat) : Block :=
  toBits 64 (chunk bytes b)

/-- The per-block transform of a message whose length is a multiple of 8, one Block after the other with the one
list of subkeys (45_block_framer.md rule R223). -/
def transformMessage (t : Tables) (keys : List Subkey) (bytes : List Byte) : List Byte :=
  (List.range (bytes.length / 8)).flatMap fun b => toBytes (desx t (blockAt bytes b) keys)

/-- Strip `q` bytes from the tail (45_block_framer.md rule R224). -/
def stripTail (q : Nat) (bytes : List Byte) : List Byte :=
  bytes.take (bytes.length - q)

end Sys2Proof
end

