-- ==== Sys2Proof/Machine/State.lean ====
section
/-!
DEFINITION. The state of the block and of its environment, as plain data (10_state.md).
-/

namespace Sys2Proof.Machine

/-- The names of STATUS.ERRCODE (60_exceptions.md rule R250). The reserved codes 10 to 15 have no name: they are
never written. -/
inductive ErrCode where
  /-- 0, no error -/
  | none
  /-- 1, MSG_ENC of an empty message -/
  | emptyInput
  /-- 2, MSG_DEC of a length that is no multiple of 8 -/
  | alignment
  /-- 3, reserved: cannot occur -/
  | lengthMismatch
  /-- 4, reserved: cannot occur -/
  | index
  /-- 5, reserved: cannot occur -/
  | length
  /-- 6, a word that spells no command -/
  | illegalCmd
  /-- 7, a block command without a schedule -/
  | noSchedule
  /-- 8, more padding to strip than there is data -/
  | padCount
  /-- 9, a message longer than the buffer -/
  | capacity
  deriving DecidableEq, Repr

/-- STATUS, field by field (10_state.md rule R23). The reserved bits read 0 and hold nothing. -/
structure Status where
  /-- bit 0: a command is accepted and not complete -/
  busy : Bool
  /-- bit 1: a command has completed -/
  done : Bool
  /-- bit 2: RK holds a schedule -/
  ksv : Bool
  /-- bit 3: a host write was ignored while busy -/
  bwe : Bool
  /-- bits 11:8: the result code of the last completed command -/
  errCode : ErrCode
  deriving DecidableEq, Repr

/-- PHASE (10_state.md rule R39). -/
inductive Phase where
  | idle
  | run
  deriving DecidableEq, Repr

/-- Whose step comes next (20_memory.md rules R78, R79; 70_reset_and_hazards.md rule R280). -/
inductive Turn where
  /-- the host issues its next line -/
  | host
  /-- the sequencer takes its next step -/
  | sequencer
  /-- the reset input is asserted -/
  | reset
  deriving DecidableEq, Repr

/-- A value in a host program (30_encoding.md rule R108): a literal, or a name an earlier read bound. Names are
numbered (log entry 8). -/
inductive HostValue where
  | literal (value : Word)
  | name (number : Nat)
  deriving DecidableEq, Repr

/-- One line of a host program (30_encoding.md rule R108). A transaction carries its width in bytes, because a
host bus may express another than 4 (20_memory.md rule R64). A label is a line number (log entry 8). -/
inductive HostLine where
  /-- `W target, value`: MemWrite(offset, bytes, value) -/
  | write (offset : Offset) (bytes : Nat) (value : HostValue)
  /-- `R target`, or `R target -> name`: MemRead(offset, bytes) -/
  | read (offset : Offset) (bytes : Nat) (target : Option Nat)
  /-- `BNZ name, mask, label`: the host's own branch -/
  | bnz (name : Nat) (mask : Word) (label : Nat)
  /-- wait until irq is 1 (60_exceptions.md rule R262): no transaction; the host stays here while irq is 0. The syntax of
  30_encoding.md rule R108 has no text for it (log entry 19) -/
  | waitIrq
  deriving DecidableEq, Repr

/-- The block's answer to the last transaction (20_memory.md rule R60). An ERROR answer is the host agent's fault
(`Fault.busError`), so it is never held here. -/
inductive Response where
  /-- no transaction yet -/
  | idle
  /-- OK to a write -/
  | written
  /-- OK to a read, with the data -/
  | data (value : Word)
  deriving DecidableEq, Repr

/-- The host agent: its program, the line it issues next, the names bound so far (rising by number), and the last
response. The model's own field (log entry 8). -/
structure HostAgent where
  prog : List HostLine
  line : Nat
  names : List (Nat × Word)
  response : Response
  deriving DecidableEq, Repr

/-- The state: the block's registers, buffers and internal state (10_state.md rules R20 to R39), the parameters
it runs with, and the environment (host agent, schedule, draw counter). PHASE, irq and ID hold no state of their
own: they are views (`State.phase`, `State.irq`, `idWord`). -/
structure State where
  /-- the parameters, the argument 00_scope.md rule R7 asks for; no step changes them (rule R41, log entry 1) -/
  cfg : Config
  /-- CTRL.IE, the one stored bit of CTRL (rule R22) -/
  ctrlIE : Bool
  /-- STATUS (rule R23) -/
  status : Status
  /-- CMD, which is CUR (rules R26, R39) -/
  cmd : Word
  /-- PAD_OUT bits 2:0; its bits 31:3 read 0 (rule R27) -/
  padOut : BitVec 3
  /-- KEY (rule R28) -/
  key : Block
  /-- DIN (rule R29) -/
  din : Block
  /-- DOUT (rule R30) -/
  dout : Block
  /-- IN_LEN (rule R31) -/
  inLen : Word
  /-- OUT_LEN (rule R32) -/
  outLen : Word
  /-- RK[1..16]; entry `i - 1` is RK[i] (rule R34) -/
  rk : Vector Subkey 16
  /-- IN_BUF: the bytes the host has written, by index (rule R35, log entry 4) -/
  inBuf : List Host.Cell
  /-- OUT_BUF: the bytes a command has written, by index (rule R36, log entry 6) -/
  outBuf : List Host.Cell
  /-- C (rule R37) -/
  c : KeyHalf
  /-- D (rule R37) -/
  d : KeyHalf
  /-- L (rule R38) -/
  l : Half
  /-- R (rule R38) -/
  r : Half
  /-- REMAIN (rule R39) -/
  remain : Nat
  /-- RND of the reference micro-sequence (rule R39) -/
  rnd : Nat
  /-- BLK of the reference micro-sequence (rule R39) -/
  blk : Nat
  /-- the host agent (the model's own, log entry 8) -/
  host : HostAgent
  /-- whose turns come next (the model's own, log entry 7) -/
  schedule : List Turn
  /-- how many busy reads have drawn (the model's own, log entry 3) -/
  draws : Nat
  deriving DecidableEq, Repr

/-- Why a step stops. Both are faults of the host agent; the block itself has none (60_exceptions.md rule R252). -/
inductive Fault where
  /-- A transaction that is misaligned or not 32 bits wide: an ERROR response (20_memory.md rule R64). Raised by the
  host's turn. Safe: the spec gives exactly this outcome. -/
  | busError (offset : Offset) (bytes : Nat)
  /-- A host line uses a name no read has bound (30_encoding.md rule R108 asks for a bound one; log entry 9). Raised
  by the host's turn. Safe: the model stops where the syntax gives no meaning. -/
  | unboundName (number : Nat)
  deriving DecidableEq, Repr

/-- Why a step has no meaning. -/
inductive Refusal where
  /-- An instruction the model gives no meaning: raised by `exec`'s arm, and by no arm of this model. Safe. -/
  | notModelled (mnemonic : String)
  /-- The configuration fails the conditions of 41_bit_vector_and_permutation.md rule R159 or the legal values of
  00_scope.md rule R7: raised by `step` before anything else. Safe: rule R156 says a model refuses it. -/
  | illFormedConfig
  deriving DecidableEq, Repr

/-- STATUS after reset (10_state.md rule R43). -/
def Status.reset : Status where
  busy := false
  done := false
  ksv := false
  bwe := false
  errCode := .none

/-- A host agent with no program: a program is loaded from outside (log entry 10). -/
def HostAgent.reset : HostAgent where
  prog := []
  line := 0
  names := []
  response := .idle

/-- The state after power-on reset (10_state.md rule R43), under the default parameters. -/
def State.reset : State where
  cfg := Config.default
  ctrlIE := false
  status := Status.reset
  cmd := 0x00000000#32
  padOut := 0#3
  key := 0x0000000000000000#64
  din := 0x0000000000000000#64
  dout := 0x0000000000000000#64
  inLen := 0x00000000#32
  outLen := 0x00000000#32
  rk := Vector.replicate 16 0x000000000000#48
  inBuf := []
  outBuf := []
  c := 0x0000000#28
  d := 0x0000000#28
  l := 0x00000000#32
  r := 0x00000000#32
  remain := 0
  rnd := 0
  blk := 0
  host := HostAgent.reset
  schedule := []
  draws := 0

end Sys2Proof.Machine
end

