-- ==== Sys2Proof/Machine/Flags.lean ====
section
/-!
DEFINITION. The flags: CTRL, STATUS, PHASE and irq (10_state.md rules R22 to R25, R39, R40, R42).
-/

namespace Sys2Proof.Machine

/-- The number of a result code (60_exceptions.md rule R250). -/
def ErrCode.code : ErrCode → BitVec 4
  | .none => 0
  | .emptyInput => 1
  | .alignment => 2
  | .lengthMismatch => 3
  | .index => 4
  | .length => 5
  | .illegalCmd => 6
  | .noSchedule => 7
  | .padCount => 8
  | .capacity => 9

/-- PHASE is RUN exactly when STATUS.BUSY = 1 (10_state.md rule R39). -/
def State.phase (s : State) : Phase :=
  if s.status.busy then .run else .idle

/-- The output signal irq (10_state.md rule R40). -/
def State.irq (s : State) : Bool := s.ctrlIE && s.status.done

/-- A flag as the bit of a register. -/
def flagBit (b : Bool) : BitVec 1 := BitVec.ofBool b

/-- CTRL as the host reads it (10_state.md rule R22). -/
def ctrlWord (s : State) : Word := 0#31 ++ flagBit s.ctrlIE

/-- STATUS as the host reads it, `ksv` standing in bit 2 (10_state.md rule R23; while BUSY the bit is a draw,
20_memory.md rule R69). -/
def statusWord (st : Status) (ksv : Bool) : Word :=
  0#20 ++ st.errCode.code ++ 0#4 ++ flagBit st.bwe ++ flagBit ksv ++ flagBit st.done ++ flagBit st.busy

/-- A host write of CTRL: bit 0 goes to IE (20_memory.md rule R67). -/
def State.writeCtrl (s : State) (v : Word) : State :=
  { s with ctrlIE := v.getLsbD 0 }

/-- A host write of STATUS: write-one-to-clear of DONE and BWE (10_state.md rule R23). -/
def State.writeStatus (s : State) (v : Word) : State :=
  { s with status := { s.status with done := s.status.done && !v.getLsbD 1
                                     bwe := s.status.bwe && !v.getLsbD 3 } }

/-- What an ignored host write leaves: BWE set, nothing else changed (20_memory.md rule R68). -/
def State.busyWrite (s : State) : State :=
  { s with status := { s.status with bwe := true } }

end Sys2Proof.Machine
end

