-- ==== Sys2Proof/Machine/KeySchedule.lean ====
section
/-!
DEFINITION. The key_expansion_pipeline and DES_key_schedule (43_key_schedule.md).
-/

namespace Sys2Proof

/-- The two key halves C and D (10_state.md rule R37). -/
structure KeyHalves where
  c : KeyHalf
  d : KeyHalf
  deriving DecidableEq, Repr

/-- SHIFTS[i], `i` = 1..16 (41_bit_vector_and_permutation.md rule R155). -/
def shiftAt (t : Tables) (i : Nat) : Nat :=
  t.shifts.getD (i - 1) 0

/-- The load through PC-1, and the split (43_key_schedule.md rule R181). -/
def loadKey (t : Tables) (k : Block) : KeyHalves where
  c := slice (permute 56 k t.pc1) 0 28
  d := slice (permute 56 k t.pc1) 28 28

/-- The rotation of key_expansion_pipeline step `i` (43_key_schedule.md rule R182). -/
def rotateHalves (t : Tables) (i : Nat) (h : KeyHalves) : KeyHalves where
  c := rotl h.c (shiftAt t i)
  d := rotl h.d (shiftAt t i)

/-- The compression of a key_expansion_pipeline step (43_key_schedule.md rule R183). -/
def compressHalves (t : Tables) (h : KeyHalves) : Subkey :=
  permute 48 (h.c ++ h.d) t.pc2

/-- `C_i, D_i`: the halves after step `i`, carried from step `i - 1` (43_key_schedule.md rule R184). -/
def keyHalvesAfter (t : Tables) (k : Block) : Nat → KeyHalves
  | 0 => loadKey t k
  | i + 1 => rotateHalves t (i + 1) (keyHalvesAfter t k i)

/-- `K_i`, subkey `i` (43_key_schedule.md rule R183). -/
def subkey (t : Tables) (k : Block) (i : Nat) : Subkey :=
  compressHalves t (keyHalvesAfter t k i)

/-- The 16 subkeys of `KS(k)`, entry `i - 1` the subkey of round `i` (43_key_schedule.md rules R186, R189). -/
def roundKeys (t : Tables) (k : Block) : Vector Subkey 16 :=
  ⟨⟨(List.range' 1 16).map (subkey t k)⟩, by simp⟩

/-- The halves as step 16 of `KS(k)` leaves them (43_key_schedule.md rule R186). -/
def finalKeyHalves (t : Tables) (k : Block) : KeyHalves :=
  keyHalvesAfter t k 16

end Sys2Proof
end

