-- ==== Sys2Proof/Machine/Ops.lean ====
section
/-!
DEFINITION. The operations on memory and registers that the commands and the host port share.
-/

namespace Sys2Proof.Machine

/-- A byte memory: cells by rising index (10_state.md rules R35, R36; log entry 4). -/
abbrev Memory := List Host.Cell

/-- The canonical form: indexes strictly rising. An unlisted byte has no value of its own, so no listed value is
superfluous (log entry 4). -/
abbrev Memory.wf (m : Memory) : Prop := (m.map Prod.fst).Pairwise (· < ·)

/-- The value listed at a key of a rising list. -/
def cellRead {α : Type} : List (Nat × α) → Nat → Option α
  | [], _ => none
  | (k, v) :: rest, a => if a = k then some v else cellRead rest a

/-- The list with `v` at key `a`, keys still rising. -/
def cellWrite {α : Type} : List (Nat × α) → Nat → α → List (Nat × α)
  | [], a, v => [(a, v)]
  | (k, w) :: rest, a, v =>
    if a < k then (a, v) :: (k, w) :: rest
    else if a = k then (a, v) :: rest
    else (k, w) :: cellWrite rest a v

/-- A run of bytes written at rising indexes from `a`. -/
def writeBytes (m : Memory) : Nat → List Byte → Memory
  | _, [] => m
  | a, b :: rest => writeBytes (cellWrite m a b) (a + 1) rest

/-- IN_BUF[j]: the byte written there, or its power-on draw (70_reset_and_hazards.md rule R281). -/
def readInByte (s : State) (j : Nat) : Byte :=
  (cellRead s.inBuf j).getD (Config.inBufDraw j)

/-- OUT_BUF[j] in storage, before the mask of 20_memory.md rule R73 (10_state.md rule R36). -/
def readOutByte (s : State) (j : Nat) : Byte :=
  (cellRead s.outBuf j).getD (Config.outBufDraw j)

/-- Acceptance of the word `w` with latency `steps` (40_command_sequencer.md rule R121). -/
def State.accept (s : State) (w : Word) (steps : Nat) : State :=
  { s with cmd := w
           status := { s.status with busy := true, done := false, errCode := .none }
           remain := steps }

/-- Completion with the code `code` (40_command_sequencer.md rule R124): the block's one event, and the one
operation every command ends with (60_exceptions.md rule R256). -/
def State.complete (s : State) (code : ErrCode) : State :=
  { s with status := { s.status with busy := false, done := true, errCode := code }
           remain := 0 }

/-- The schedule of KEY goes to RK, C and D, and KSV is set (43_key_schedule.md rule R187). -/
def State.deriveSchedule (s : State) : State :=
  { s with rk := roundKeys s.cfg.tables s.key
           c := (finalKeyHalves s.cfg.tables s.key).c
           d := (finalKeyHalves s.cfg.tables s.key).d
           status := { s.status with ksv := true } }

/-- The transient state of a call is discarded (45_block_framer.md rule R227). -/
def State.discard (s : State) : State :=
  { s with rk := Vector.replicate 16 0#48
           c := 0#28
           d := 0#28
           l := 0#32
           r := 0#32
           status := { s.status with ksv := false } }

/-- DOUT, L and R after a block transform (44_feistel_round_engine.md rules R205, R208). -/
def State.storeResult (s : State) (y : Block) (l r : Half) : State :=
  { s with dout := y, l := l, r := r }

/-- The result registers of a message command (10_state.md rules R27, R32). -/
def State.setResult (s : State) (outLen : Nat) (padOut : Nat) : State :=
  { s with outLen := BitVec.ofNat 32 outLen, padOut := BitVec.ofNat 3 padOut }

/-- The bytes of a result go to OUT_BUF from index 0 (45_block_framer.md rules R228, R230). -/
def State.storeMessage (s : State) (bytes : List Byte) : State :=
  { s with outBuf := writeBytes s.outBuf 0 bytes }

/-- A message command that fails: OUT_LEN and PAD_OUT to 0, nothing else but STATUS (60_exceptions.md
rule R250). -/
def State.failMessage (s : State) (code : ErrCode) : State :=
  (s.setResult 0 0).complete code

/-- The reset input (70_reset_and_hazards.md rule R280): every register at its reset value. The buffers keep their
bytes (rule R281, log entry 5); the parameters and the environment are no part of the block. -/
def State.resetBlock (s : State) : State :=
  { State.reset with
      cfg := s.cfg
      inBuf := s.inBuf
      outBuf := s.outBuf
      host := s.host
      schedule := s.schedule
      draws := s.draws }

end Sys2Proof.Machine
end

