-- ==== Sys2Proof/Machine/Operands.lean ====
section
/-!
DEFINITION. The operands of commands and of host transactions: the 64-bit registers as two words, the buffers as
words, the RK window, and the message a message command takes (20_memory.md section 4, 45_block_framer.md).
-/

namespace Sys2Proof.Machine

/-- ID, hard-wired (10_state.md rule R33). -/
def idWord : Word := 0x44455331#32

/-- V_HI of a 64-bit register (20_memory.md rule R70). -/
def hiWord (v : Block) : Word := v.extractLsb' 32 32

/-- V_LO of a 64-bit register (20_memory.md rule R70). -/
def loWord (v : Block) : Word := v.extractLsb' 0 32

/-- A write of V_HI (20_memory.md rule R70). -/
def setHi (v : Block) (w : Word) : Block := w ++ loWord v

/-- A write of V_LO (20_memory.md rule R70). -/
def setLo (v : Block) (w : Word) : Block := hiWord v ++ w

/-- RK[i], i = 1..16, as entry `i - 1` of the store (10_state.md rule R34). -/
def rkEntry (s : State) (n : Nat) : Subkey := s.rk.toList.getD n 0#48

/-- RK_HI of store entry `n` (20_memory.md rule R74). -/
def rkHiWord (s : State) (n : Nat) : Word := ((rkEntry s n).extractLsb' 32 16).setWidth 32

/-- RK_LO of store entry `n` (20_memory.md rule R74). -/
def rkLoWord (s : State) (n : Nat) : Word := (rkEntry s n).extractLsb' 0 32

/-- The buffer word whose bytes are `byte a .. byte (a+3)` (20_memory.md rule R71). -/
def bufferWord (byte : Nat → Byte) (a : Nat) : Word :=
  byte a ++ byte (a + 1) ++ byte (a + 2) ++ byte (a + 3)

/-- The bytes of a word written to a buffer, in index order (20_memory.md rule R71). -/
def wordBytes (v : Word) : List Byte :=
  [v.extractLsb' 24 8, v.extractLsb' 16 8, v.extractLsb' 8 8, v.extractLsb' 0 8]

/-- The IN_BUF word at byte index `a` (20_memory.md rule R72). -/
def inBufWord (s : State) (a : Nat) : Word := bufferWord (readInByte s) a

/-- A host write of the IN_BUF word at byte index `a` (20_memory.md rule R72). -/
def State.writeInWord (s : State) (a : Nat) (v : Word) : State :=
  { s with inBuf := writeBytes s.inBuf a (wordBytes v) }

/-- OUT_BUF[j] as the host reads it: 0x00 at and above OUT_LEN (20_memory.md rule R73). -/
def maskedOutByte (s : State) (j : Nat) : Byte :=
  if j < s.outLen.toNat then readOutByte s j else 0x00#8

/-- The OUT_BUF word at byte index `a` (20_memory.md rule R73). -/
def outBufWord (s : State) (a : Nat) : Word := bufferWord (maskedOutByte s) a

/-- The message operand: IN_BUF[0 .. IN_LEN-1] (10_state.md rules R31, R35). -/
def message (s : State) : List Byte := (List.range s.inLen.toNat).map (readInByte s)

/-- The checks of MSG_ENC, in the order of 45_block_framer.md rule R229. -/
def encodeCheck (s : State) : ErrCode :=
  if s.cfg.maxMsgBytes < s.inLen.toNat then .capacity
  else if s.inLen.toNat = 0 then .emptyInput
  else .none

/-- The checks of MSG_DEC, in the order of 45_block_framer.md rule R231. -/
def decodeCheck (q : Nat) (s : State) : ErrCode :=
  if s.cfg.maxMsgBytes < s.inLen.toNat then .capacity
  else if s.inLen.toNat % 8 ≠ 0 then .alignment
  else if s.inLen.toNat < q then .padCount
  else .none

/-- What MSG_ENC gives for the message operand (45_block_framer.md rule R228): the transform of the padded message
under the schedule of KEY, which is derived afresh (rule R226). -/
def encodedMessage (s : State) : List Byte :=
  transformMessage s.cfg.tables (encodeOrder (roundKeys s.cfg.tables s.key)) (padMessage s.cfg.padByte (message s))

/-- What MSG_DEC gives for the message operand before the strip (45_block_framer.md rule R230). -/
def decodedMessage (s : State) : List Byte :=
  transformMessage s.cfg.tables (decodeOrder (roundKeys s.cfg.tables s.key)) (message s)

end Sys2Proof.Machine
end

