-- ==== Sys2Proof/Machine/BlockCommands.lean ====
section
/-!
DEFINITION. The commands of 44_feistel_round_engine.md: BLK_ENC and BLK_DEC.
-/

namespace Sys2Proof.Machine

/-- A block command with its subkeys in the order given (44_feistel_round_engine.md rules R208, R209):
NO_SCHEDULE when KSV = 0, else DESX of DIN, with L and R left as round 16 leaves them. -/
def blockCommand (keys : List Subkey) (s : State) : State :=
  if s.status.ksv then
    (s.storeResult (desx s.cfg.tables s.din keys)
      (runRounds s.cfg.tables s.din keys).l (runRounds s.cfg.tables s.din keys).r).complete .none
  else s.complete .noSchedule

/-- BLK_ENC (44_feistel_round_engine.md rule R208). -/
def execBlkEnc (s : State) : Host.Outcome State Fault Refusal :=
  .next (blockCommand (encodeOrder s.rk) s)

/-- BLK_DEC (44_feistel_round_engine.md rule R209). -/
def execBlkDec (s : State) : Host.Outcome State Fault Refusal :=
  .next (blockCommand (decodeOrder s.rk) s)

end Sys2Proof.Machine
end

