-- ==== Sys2Proof/Machine/KeyCommands.lean ====
section
/-!
DEFINITION. The command of 43_key_schedule.md: KS_DERIVE.
-/

namespace Sys2Proof.Machine

/-- KS_DERIVE (43_key_schedule.md rule R188). -/
def execKsDerive (s : State) : Host.Outcome State Fault Refusal :=
  .next (s.deriveSchedule.complete .none)

end Sys2Proof.Machine
end

