-- ==== Sys2Proof/Machine/MessageCommands.lean ====
section
/-!
DEFINITION. The commands of 45_block_framer.md: MSG_ENC and MSG_DEC.
-/

namespace Sys2Proof.Machine

/-- The end of a message command without error: the result bytes, OUT_LEN and PAD_OUT, then the discard of the
transient state, the schedule this call derived among it (45_block_framer.md rules R226, R227). -/
def finishMessage (bytes : List Byte) (padOut : Nat) (s : State) : State :=
  (((s.deriveSchedule.storeMessage bytes).setResult bytes.length padOut).discard).complete .none

/-- MSG_ENC (45_block_framer.md rule R228). -/
def execMsgEnc (s : State) : Host.Outcome State Fault Refusal :=
  match encodeCheck s with
  | .none => .next (finishMessage (encodedMessage s) (padcount s.inLen.toNat) s)
  | code => .next (s.failMessage code)

/-- MSG_DEC pad=`padin` (45_block_framer.md rule R230). -/
def execMsgDec (padin : BitVec 3) (s : State) : Host.Outcome State Fault Refusal :=
  match decodeCheck padin.toNat s with
  | .none => .next (finishMessage (stripTail padin.toNat (decodedMessage s)) 0 s)
  | code => .next (s.failMessage code)

end Sys2Proof.Machine
end

