-- ==== Sys2Proof/Machine/SequencerCommands.lean ====
section
/-!
DEFINITION. The commands of 40_command_sequencer.md: NOP, CLEAR and ILLEGAL.

A meaning is the completion step of its command (rule R124): the updates of the result function `exec(CUR, S)`
(rule R122), then the completion with the result code.
-/

namespace Sys2Proof.Machine

/-- NOP (40_command_sequencer.md rule R130). -/
def execNop (s : State) : Host.Outcome State Fault Refusal :=
  .next (s.complete .none)

/-- CLEAR (40_command_sequencer.md rule R131). -/
def execClear (s : State) : Host.Outcome State Fault Refusal :=
  .next ({ (s.discard.setResult 0 0) with dout := 0#64 }.complete .none)

/-- ILLEGAL (40_command_sequencer.md rule R135). -/
def execIllegal (_word : Word) (s : State) : Host.Outcome State Fault Refusal :=
  .next (s.complete .illegalCmd)

end Sys2Proof.Machine
end

