-- ==== Sys2Proof/Machine/Dispatch.lean ====
section
/-!
DEFINITION. exec: the completion of each command, one arm per constructor (40_command_sequencer.md rules R122 and
R124).
-/

namespace Sys2Proof.Machine

def exec (i : Instr) (s : State) : Host.Outcome State Fault Refusal :=
  match i with
  | .nop => Sys2Proof.Machine.execNop s
  | .clear => Sys2Proof.Machine.execClear s
  | .ksDerive => Sys2Proof.Machine.execKsDerive s
  | .blkEnc => Sys2Proof.Machine.execBlkEnc s
  | .blkDec => Sys2Proof.Machine.execBlkDec s
  | .msgEnc => Sys2Proof.Machine.execMsgEnc s
  | .msgDec padin => Sys2Proof.Machine.execMsgDec padin s
  | .illegal word => Sys2Proof.Machine.execIllegal word s

end Sys2Proof.Machine
end

