-- ==== Sys2Proof/Machine/Sequencer.lean ====
section
/-!
DEFINITION. The sequencer: latency, running steps with the reference micro-sequence, completion
(40_command_sequencer.md section 1, 70_reset_and_hazards.md rule R296).
-/

namespace Sys2Proof.Machine

/-- How many blocks a message command transforms: the padded length over 8 (45_block_framer.md rules R228,
R230). -/
def blockCount (s : State) : Nat :=
  (s.inLen.toNat + padcount s.inLen.toNat) / 8

/-- The latency of a message command: 1 on a framing error, else checks, schedule, 18 steps a block, and the
discard with completion (70_reset_and_hazards.md rule R296). -/
def messageLatency (check : ErrCode) (s : State) : Nat :=
  if check = .none then 1 + 17 + 18 * blockCount s + 1 else 1

/-- The reference LAT (70_reset_and_hazards.md rule R296). -/
def referenceLatency (i : Instr) (s : State) : Nat :=
  match i with
  | .nop => 1
  | .clear => 1
  | .illegal _ => 1
  | .ksDerive => 17
  | .blkEnc => if s.status.ksv then 18 else 1
  | .blkDec => if s.status.ksv then 18 else 1
  | .msgEnc => messageLatency (encodeCheck s) s
  | .msgDec padin => messageLatency (decodeCheck padin.toNat s) s

/-- IN_BUF[0 .. IN_LEN-1], the only bytes of IN_BUF that the block reads (20_memory.md rule R72), as far as IN_BUF goes
(10_state.md rule R35). -/
def inBufBytes (s : State) : List Byte :=
  (List.range (min s.inLen.toNat s.cfg.maxMsgBytes)).map (readInByte s)

/-- What LAT may depend on, at the acceptance of `w`: the inputs of 30_encoding.md rule R106 as they stand there
(20_memory.md rule R76). -/
def latInput (w : Word) (s : State) : LatInput where
  word := w
  key := s.key
  din := s.din
  inLen := s.inLen
  inBuf := inBufBytes s
  rk := s.rk
  ksv := s.status.ksv

/-- The first exception of a list, or the default. -/
def latLookup (x : LatInput) (default : Nat) : List (LatInput × Nat) → Nat
  | [] => default
  | (y, steps) :: rest => if x = y then steps else latLookup x default rest

/-- The parameter LAT: the reference latency but for the listed exceptions (00_scope.md rule R7, log entry 2). -/
def latency (w : Word) (s : State) : Nat :=
  latLookup (latInput w s) (referenceLatency (decode w) s) s.cfg.lat

/-- The issue of the command word `w` by a CMD write while not BUSY (40_command_sequencer.md rule R121). -/
def issue (w : Word) (s : State) : State :=
  s.accept w (latency w s)

/-- Micro-step: C and D from PC-1 (43_key_schedule.md rule R181). -/
def microLoadKey (s : State) : State :=
  { s with c := (loadKey s.cfg.tables s.key).c, d := (loadKey s.cfg.tables s.key).d, rnd := 1 }

/-- Micro-step: key_expansion_pipeline step `i` (43_key_schedule.md rules R182, R183). -/
def microKeyStep (i : Nat) (s : State) : State :=
  { s with c := (rotateHalves s.cfg.tables i { c := s.c, d := s.d }).c
           d := (rotateHalves s.cfg.tables i { c := s.c, d := s.d }).d
           rnd := (i + 1) % 17 }

/-- Micro-step: L and R from IP (44_feistel_round_engine.md rule R204). -/
def microLoadBlock (x : Block) (s : State) : State :=
  { s with l := (loadBlock s.cfg.tables x).l, r := (loadBlock s.cfg.tables x).r, rnd := 1 }

/-- Micro-step: round `i` with the subkey `k` (44_feistel_round_engine.md rule R203). -/
def microRound (i : Nat) (k : Subkey) (s : State) : State :=
  { s with l := (feistelRound s.cfg.tables { l := s.l, r := s.r } k).l
           r := (feistelRound s.cfg.tables { l := s.l, r := s.r } k).r
           rnd := (i + 1) % 17 }

/-- The running steps of KS_DERIVE, position 0 first (70_reset_and_hazards.md rule R296). -/
def microKsDerive (pos : Nat) (s : State) : State :=
  if pos = 0 then microLoadKey s else microKeyStep pos s

/-- The running steps of a block transform of `x` (70_reset_and_hazards.md rule R296): IP load, 16 rounds, FP store
(the store itself shows only at completion). -/
def microBlock (x : Block) (keys : List Subkey) (pos : Nat) (s : State) : State :=
  if pos = 0 then microLoadBlock x s
  else if pos ≤ 16 then microRound pos (keys.getD (pos - 1) 0#48) s
  else s

/-- The running steps of a message command (70_reset_and_hazards.md rule R296): checks; schedule; 18 steps for each
block, the last of them moving BLK on. -/
def microMessage (keys : List Subkey) (bytes : List Byte) (pos : Nat) (s : State) : State :=
  if pos = 0 then { s with blk := 0 }
  else if pos = 1 then microLoadKey s
  else if pos ≤ 17 then microKeyStep (pos - 1) s
  else if (pos - 18) % 18 = 17 then { s with blk := (pos - 18) / 18 + 1 }
  else microBlock (blockAt bytes ((pos - 18) / 18)) keys ((pos - 18) % 18) s

/-- The running step at position `pos` of a command's reference micro-sequence (70_reset_and_hazards.md rule R296).
The one-step commands have no running step. -/
def microStep (i : Instr) (pos : Nat) (s : State) : State :=
  match i with
  | .nop => s
  | .clear => s
  | .illegal _ => s
  | .ksDerive => microKsDerive pos s
  | .blkEnc => microBlock s.din (encodeOrder s.rk) pos s
  | .blkDec => microBlock s.din (decodeOrder s.rk) pos s
  | .msgEnc => microMessage (encodeOrder (roundKeys s.cfg.tables s.key)) (padMessage s.cfg.padByte (message s)) pos s
  | .msgDec _ => microMessage (decodeOrder (roundKeys s.cfg.tables s.key)) (message s) pos s

/-- A running step (40_command_sequencer.md rule R123): REMAIN counts down and no host-visible register changes. The
internal state follows the reference micro-sequence over the last steps of the command, as many as the reference
latency has; a longer LAT waits first (log entry 14). -/
def runningStep (s : State) : State :=
  if s.remain ≤ referenceLatency (decode s.cmd) s then
    { microStep (decode s.cmd) (referenceLatency (decode s.cmd) s - s.remain) s with remain := s.remain - 1 }
  else { s with remain := s.remain - 1 }

/-- One step of the sequencer. It has a step only while PHASE = RUN (20_memory.md rule R78); with REMAIN at most 1 that
step is the completion of the accepted command (40_command_sequencer.md rules R123, R124; log entries 11, 12). -/
def sequencerStep (s : State) : Host.Outcome State Fault Refusal :=
  if s.status.busy then
    if 1 < s.remain then .next (runningStep s) else exec (decode s.cmd) s
  else .next s

end Sys2Proof.Machine
end

