-- ==== Sys2Proof/Machine/HostPort.lean ====
section
/-!
DEFINITION. The host port: the register map and what a transaction reads and writes (20_memory.md).
-/

namespace Sys2Proof.Machine

/-- What an offset of the window names (20_memory.md rule R62). The RK words carry the entry of the store they show
(`n` shows RK[n + 1]), the buffer words the index of their first byte. -/
inductive Target where
  | ctrl
  | status
  | cmd
  | padOut
  | keyHi
  | keyLo
  | dinHi
  | dinLo
  | doutHi
  | doutLo
  | inLen
  | outLen
  | id
  | rkHi (n : Nat)
  | rkLo (n : Nat)
  | inBuf (a : Nat)
  | outBuf (a : Nat)
  | reserved
  deriving DecidableEq, Repr

/-- The registers below 0x34, by word number (20_memory.md rule R62). -/
def registerTarget (n : Nat) : Target :=
  match n with
  | 0 => .ctrl
  | 1 => .status
  | 2 => .cmd
  | 3 => .padOut
  | 4 => .keyHi
  | 5 => .keyLo
  | 6 => .dinHi
  | 7 => .dinLo
  | 8 => .doutHi
  | 9 => .doutLo
  | 10 => .inLen
  | 11 => .outLen
  | 12 => .id
  | _ => .reserved

/-- The register map for an aligned offset (20_memory.md rule R62), `max` being MAX_MSG_BYTES. -/
def targetAt (max : Nat) (a : Nat) : Target :=
  if a < 0x34 then registerTarget (a / 4)
  else if a < 0x100 then .reserved
  else if a < 0x180 then
    if a % 8 = 0 then .rkHi ((a - 0x100) / 8) else .rkLo ((a - 0x104) / 8)
  else if a < 0x10000 then .reserved
  else if a < 0x10000 + max then .inBuf (a - 0x10000)
  else if a < 0x20000 then .reserved
  else if a < 0x20000 + max then .outBuf (a - 0x20000)
  else .reserved

/-- The target of an offset in the window. -/
def target (s : State) (offset : Offset) : Target := targetAt s.cfg.maxMsgBytes offset.toNat

/-- A transaction the block answers with OK: 32 bits wide, at a multiple of 4 (20_memory.md rules R63, R64). -/
def legalAccess (offset : Offset) (bytes : Nat) : Bool :=
  bytes == 4 && offset.toNat % 4 == 0

/-- A read of this target while BUSY draws (20_memory.md rule R69). -/
def Target.drawsWhileBusy : Target → Bool
  | .padOut => true
  | .doutHi => true
  | .doutLo => true
  | .outLen => true
  | .rkHi _ => true
  | .rkLo _ => true
  | .outBuf _ => true
  | .status => true
  | .ctrl => false
  | .cmd => false
  | .keyHi => false
  | .keyLo => false
  | .dinHi => false
  | .dinLo => false
  | .inLen => false
  | .id => false
  | .inBuf _ => false
  | .reserved => false

/-- A write of this target is ignored, and recorded in BWE, while BUSY (20_memory.md rule R68). -/
def Target.frozenWhileBusy : Target → Bool
  | .cmd => true
  | .keyHi => true
  | .keyLo => true
  | .dinHi => true
  | .dinLo => true
  | .inLen => true
  | .inBuf _ => true
  | .ctrl => false
  | .status => false
  | .padOut => false
  | .doutHi => false
  | .doutLo => false
  | .outLen => false
  | .id => false
  | .rkHi _ => false
  | .rkLo _ => false
  | .outBuf _ => false
  | .reserved => false

/-- The word a read returns while not BUSY (20_memory.md rules R65, R70, R72, R73, R74). -/
def settledWord (s : State) : Target → Word
  | .ctrl => ctrlWord s
  | .status => statusWord s.status s.status.ksv
  | .cmd => s.cmd
  | .padOut => s.padOut.setWidth 32
  | .keyHi => hiWord s.key
  | .keyLo => loWord s.key
  | .dinHi => hiWord s.din
  | .dinLo => loWord s.din
  | .doutHi => hiWord s.dout
  | .doutLo => loWord s.dout
  | .inLen => s.inLen
  | .outLen => s.outLen
  | .id => idWord
  | .rkHi n => rkHiWord s n
  | .rkLo n => rkLoWord s n
  | .inBuf a => inBufWord s a
  | .outBuf a => outBufWord s a
  | .reserved => 0x00000000#32

/-- The word a read returns while BUSY, `draw` being this read's draw (20_memory.md rule R69): any value for a
result register, any value in KSV for STATUS, the value itself for every other target. -/
def busyWord (s : State) (draw : Word) (t : Target) : Word :=
  if t = .status then statusWord s.status (draw.getLsbD 0)
  else if t.drawsWhileBusy then draw
  else settledWord s t

/-- The word a read returns (20_memory.md rules R69 to R74). -/
def readWord (s : State) (t : Target) : Word :=
  if s.status.busy then busyWord s (Config.busyRead s.draws) t else settledWord s t

/-- What a read leaves: nothing of the block changes (20_memory.md rule R77); a draw is used up. -/
def afterRead (s : State) (t : Target) : State :=
  if s.status.busy && t.drawsWhileBusy then { s with draws := s.draws + 1 } else s

/-- A write while not BUSY, or to a target the busy-write rule does not name (20_memory.md rules R65 to R68, R70,
R72). -/
def applyWrite (s : State) (v : Word) : Target → State
  | .ctrl => s.writeCtrl v
  | .status => s.writeStatus v
  | .cmd => issue v s
  | .keyHi => { s with key := setHi s.key v }
  | .keyLo => { s with key := setLo s.key v }
  | .dinHi => { s with din := setHi s.din v }
  | .dinLo => { s with din := setLo s.din v }
  | .inLen => { s with inLen := v }
  | .inBuf a => s.writeInWord a v
  | .padOut => s
  | .doutHi => s
  | .doutLo => s
  | .outLen => s
  | .id => s
  | .rkHi _ => s
  | .rkLo _ => s
  | .outBuf _ => s
  | .reserved => s

/-- A write with the busy-write rule (20_memory.md rule R68). -/
def writeWord (s : State) (v : Word) (t : Target) : State :=
  if s.status.busy && t.frozenWhileBusy then s.busyWrite else applyWrite s v t

/-- MemRead(offset, bytes): the data and the state after, or no OK response (20_memory.md rules R60, R64). -/
def memRead (s : State) (offset : Offset) (bytes : Nat) : Option (Word × State) :=
  if legalAccess offset bytes then some (readWord s (target s offset), afterRead s (target s offset)) else none

/-- MemWrite(offset, bytes, v): the state after, or no OK response (20_memory.md rules R60, R64). -/
def memWrite (s : State) (offset : Offset) (bytes : Nat) (v : Word) : Option State :=
  if legalAccess offset bytes then some (writeWord s v (target s offset)) else none

end Sys2Proof.Machine
end

