-- ==== Sys2Proof/Machine/HostPrograms.lean ====
section
/-!
DEFINITION. The host agent: one line of a host program a turn, and the pseudo-operations of the host syntax
(30_encoding.md rules R108 and R109).
-/

namespace Sys2Proof.Machine

/-- The host's next line is the one at `line`. -/
def State.atLine (s : State) (line : Nat) : State :=
  { s with host := { s.host with line := line } }

/-- The host has the block's OK response and goes to its next line. -/
def State.answered (s : State) (response : Response) : State :=
  { s with host := { s.host with response := response, line := s.host.line + 1 } }

/-- The host binds a name to a value (30_encoding.md rule R108). -/
def State.bind (s : State) (number : Nat) (value : Word) : State :=
  { s with host := { s.host with names := cellWrite s.host.names number value } }

/-- The word of a value, if its name is bound (30_encoding.md rule R108). -/
def hostValue (s : State) : HostValue → Option Word
  | .literal value => some value
  | .name number => cellRead s.host.names number

/-- The name an unbound value lacks. -/
def HostValue.number : HostValue → Nat
  | .literal _ => 0
  | .name number => number

/-- `W target, value`: the write and its OK response, or the ERROR that faults the host agent (30_encoding.md
rule R108, 20_memory.md rule R64). -/
def hostWrite (s : State) (offset : Offset) (bytes : Nat) (v : Word) : Host.Outcome State Fault Refusal :=
  match memWrite s offset bytes v with
  | some t => .next (t.answered .written)
  | none => .fault (.busError offset bytes)

/-- `R target`, with or without a name for the value read. -/
def hostRead (s : State) (offset : Offset) (bytes : Nat) (name : Option Nat) :
    Host.Outcome State Fault Refusal :=
  match memRead s offset bytes with
  | some (v, t) =>
    match name with
    | some number => .next ((t.answered (.data v)).bind number v)
    | none => .next (t.answered (.data v))
  | none => .fault (.busError offset bytes)

/-- `BNZ name, mask, label`, the value of the name being `v`. -/
def hostBranch (s : State) (v mask : Word) (label : Nat) : State :=
  if v &&& mask ≠ 0#32 then s.atLine label else s.atLine (s.host.line + 1)

/-- The host waits for irq: it goes on when irq is 1, and stays at its line while it is 0 (60_exceptions.md
rule R262). -/
def hostWaitIrq (s : State) : State :=
  s.atLine (if s.irq then s.host.line + 1 else s.host.line)

/-- One line of the host program. -/
def hostLine (s : State) : HostLine → Host.Outcome State Fault Refusal
  | .write offset bytes value =>
    match hostValue s value with
    | some v => hostWrite s offset bytes v
    | none => .fault (.unboundName value.number)
  | .read offset bytes name => hostRead s offset bytes name
  | .bnz number mask label =>
    match cellRead s.host.names number with
    | some v => .next (hostBranch s v mask label)
    | none => .fault (.unboundName number)
  | .waitIrq => .next (hostWaitIrq s)

/-- The host's turn: its next line, or nothing when its program has ended (log entry 8). -/
def hostStep (s : State) : Host.Outcome State Fault Refusal :=
  match s.host.prog[s.host.line]? with
  | some line => hostLine s line
  | none => .next s

/-- Whose turn it is: the head of the schedule; when that is used up, the sequencer while BUSY and else the host
(20_memory.md rule R79, 40_command_sequencer.md rule R125; log entry 7). -/
def nextTurn (s : State) : Turn :=
  match s.schedule with
  | turn :: _ => turn
  | [] => if s.status.busy then .sequencer else .host

/-- The turn is taken. -/
def State.popTurn (s : State) : State :=
  { s with schedule := s.schedule.tail }

/-- One atomic step of the agent whose turn it is (20_memory.md rules R76, R78). -/
def agentStep (turn : Turn) (s : State) : Host.Outcome State Fault Refusal :=
  match turn with
  | .host => hostStep s
  | .sequencer => sequencerStep s
  | .reset => .next s.resetBlock

/-- One step of the machine: a configuration that is not well-formed is refused before any step
(41_bit_vector_and_permutation.md rules R156, R159; log entry 13), else the agent whose turn it is steps. -/
def machineStep (s : State) : Host.Outcome State Fault Refusal :=
  if s.cfg.wf then agentStep (nextTurn s) s.popTurn else .refused .illFormedConfig

/-- The state in which the command word `w` is accepted and its completion is the very next step (log entry 10). -/
def State.acceptNow (s : State) (w : Word) : State :=
  { s.accept w 1 with schedule := .sequencer :: s.schedule }

/-- The offsets of the named registers (20_memory.md rule R62). -/
def offsetOf : Target → Offset
  | .ctrl => 0x00000#18
  | .status => 0x00004#18
  | .cmd => 0x00008#18
  | .padOut => 0x0000C#18
  | .keyHi => 0x00010#18
  | .keyLo => 0x00014#18
  | .dinHi => 0x00018#18
  | .dinLo => 0x0001C#18
  | .doutHi => 0x00020#18
  | .doutLo => 0x00024#18
  | .inLen => 0x00028#18
  | .outLen => 0x0002C#18
  | .id => 0x00030#18
  | .rkHi n => BitVec.ofNat 18 (0x100 + 8 * n)
  | .rkLo n => BitVec.ofNat 18 (0x104 + 8 * n)
  | .inBuf a => BitVec.ofNat 18 (0x10000 + a)
  | .outBuf a => BitVec.ofNat 18 (0x20000 + a)
  | .reserved => 0x00034#18

/-- `W target, value` with a literal. -/
def lineW (t : Target) (v : Word) : HostLine := .write (offsetOf t) 4 (.literal v)

/-- `R target -> name`. -/
def lineR (t : Target) (name : Nat) : HostLine := .read (offsetOf t) 4 (some name)

/-- `W CMD, command` (30_encoding.md rules R107, R108). -/
def lineCommand (i : Instr) : HostLine := lineW .cmd (encode i)

/-- `WAIT`, standing at line `here`, with `name` for the value read (30_encoding.md rule R109). -/
def pseudoWait (here name : Nat) : List HostLine :=
  [lineR .status name, .bnz name 0x00000001#32 here]

/-- A 64-bit value of the host syntax (30_encoding.md rule R109): a literal, or the `y` of a `GETDOUT -> y`, which is
kept as the two names `yh` and `yl` of its words (log entry 20). -/
inductive HostBlock where
  | literal (value : Block)
  | names (yh yl : Nat)
  deriving DecidableEq, Repr

/-- The 64 bits of such a value: `y = yh * 2^32 + yl`, where both names are bound (30_encoding.md rule R109). -/
def hostBlock (s : State) : HostBlock → Option Block
  | .literal value => some value
  | .names yh yl =>
    match cellRead s.host.names yh, cellRead s.host.names yl with
    | some hi, some lo => some (hi ++ lo)
    | _, _ => none

/-- Bits 63:32 of a 64-bit value, as a value a line can write. -/
def HostBlock.hi : HostBlock → HostValue
  | .literal value => .literal (hiWord value)
  | .names yh _ => .name yh

/-- Bits 31:0 of a 64-bit value, as a value a line can write. -/
def HostBlock.lo : HostBlock → HostValue
  | .literal value => .literal (loWord value)
  | .names _ yl => .name yl

/-- `SETKEY k` (30_encoding.md rule R109). -/
def pseudoSetKey (k : HostBlock) : List HostLine :=
  [.write (offsetOf .keyHi) 4 k.hi, .write (offsetOf .keyLo) 4 k.lo]

/-- `SETDIN x` (30_encoding.md rule R109). -/
def pseudoSetDin (x : HostBlock) : List HostLine :=
  [.write (offsetOf .dinHi) 4 x.hi, .write (offsetOf .dinLo) 4 x.lo]

/-- `GETDOUT -> y`, with `yh` and `yl` for the two words; `y` is then `HostBlock.names yh yl` (30_encoding.md rule
R109). -/
def pseudoGetDout (yh yl : Nat) : List HostLine :=
  [lineR .doutHi yh, lineR .doutLo yl]

/-- `LOADMSG bytes`: the words of the message, the last one filled with 0x00, then IN_LEN (30_encoding.md
rule R109). -/
def pseudoLoadMsg (bytes : List Byte) : List HostLine :=
  (List.range ((bytes.length + 3) / 4)).map
    (fun m => lineW (.inBuf (4 * m)) (bufferWord (fun j => bytes.getD j 0x00#8) (4 * m))) ++
  [lineW .inLen (BitVec.ofNat 32 bytes.length)]

/-- `RUN c`, standing at line `here` (30_encoding.md rule R109). -/
def pseudoRun (here : Nat) (i : Instr) (name : Nat) : List HostLine :=
  lineCommand i :: pseudoWait (here + 1) name

/-- `RUN c` by the other way of waiting: the command, then irq, with CTRL.IE = 1 (60_exceptions.md rule R262). -/
def pseudoRunIrq (i : Instr) : List HostLine :=
  [lineCommand i, .waitIrq]

/-- `ACK` (30_encoding.md rule R109). -/
def pseudoAck : HostLine := lineW .status 0x0000000A#32

end Sys2Proof.Machine
end

