-- ==== Sys2Proof/Safety.lean ====
section
/-!
DEFINITION. The invariant of the machine, and what counts as a safe run.
-/

namespace Sys2Proof.Machine

/-- A buffer of `max` bytes in canonical form: indexes strictly rising, each below `max` (10_state.md rules R35,
R36). -/
structure BufferWf (max : Nat) (m : Memory) : Prop where
  rising : Memory.wf m
  bounded : ∀ cell ∈ m, cell.1 < max

/-- What every step keeps, from every state that has it. -/
structure State.Inv (s : State) : Prop where
  /-- IN_BUF is in canonical form and within MAX_MSG_BYTES (10_state.md rule R35) -/
  inBuf_wf : BufferWf s.cfg.maxMsgBytes s.inBuf
  /-- OUT_BUF is in canonical form and within MAX_MSG_BYTES (10_state.md rule R36) -/
  outBuf_wf : BufferWf s.cfg.maxMsgBytes s.outBuf
  /-- OUT_LEN fits the buffer (10_state.md rule R32) -/
  outLen_le : s.outLen.toNat ≤ s.cfg.maxMsgBytes
  /-- every byte OUT_LEN covers has been written by a command (70_reset_and_hazards.md rule R281) -/
  out_written : ∀ j < s.outLen.toNat, (cellRead s.outBuf j).isSome = true
  /-- while BUSY: a step is left, DONE = 0 and ERRCODE = 0 (10_state.md rule R24) -/
  running : s.status.busy = true → 1 ≤ s.remain ∧ s.status.done = false ∧ s.status.errCode = .none
  /-- while idle no step is left (40_command_sequencer.md rule R124) -/
  idle : s.status.busy = false → s.remain = 0
  /-- KSV = 1: RK is the schedule of some KeyMaterial (10_state.md rule R25) -/
  schedule_held : s.status.ksv = true → ∃ k, s.rk = roundKeys s.cfg.tables k
  /-- KSV = 0: RK is zeros (10_state.md rule R34) -/
  schedule_clear : s.status.ksv = false → s.rk = Vector.replicate 16 0#48
  /-- the reserved codes are never written (60_exceptions.md rule R250) -/
  errCode_used : s.status.errCode ≠ .lengthMismatch ∧ s.status.errCode ≠ .index ∧ s.status.errCode ≠ .length
  /-- RND is in 0..16 (10_state.md rule R39) -/
  rnd_le : s.rnd ≤ 16
  /-- the names of the host are bound once each -/
  names_rising : (s.host.names.map Prod.fst).Pairwise (· < ·)

/-- A host line the block and the syntax give a meaning in this state: an aligned 32-bit transaction (20_memory.md
rule R63), every name bound (30_encoding.md rule R108). -/
def hostLineSafe (s : State) : HostLine → Bool
  | .write offset bytes value => legalAccess offset bytes && (hostValue s value).isSome
  | .read offset bytes _ => legalAccess offset bytes
  | .bnz number _ _ => (cellRead s.host.names number).isSome
  | .waitIrq => true

/-- Every line of the host's program is safe in this state. -/
def State.HostClean (s : State) : Prop :=
  ∀ line ∈ s.host.prog, hostLineSafe s line = true

/-- A step that does not stop. A safe run is one of whose steps each is safe. -/
def StepSafe (s : State) : Prop :=
  ∃ t, step s = .next t

/-- Two states that differ at most in what the host's own turns change while a command runs (CTRL.IE, BWE, the host
agent, the schedule, the draw counter), and in RND and BLK. -/
def SameButHostSide (s t : State) : Prop :=
  t = { s with ctrlIE := t.ctrlIE, status := { s.status with bwe := t.status.bwe }, host := t.host
               schedule := t.schedule, draws := t.draws, rnd := t.rnd, blk := t.blk }

/-- Two states that differ at most in RND and BLK, which no host access reads (10_state.md rule R39). -/
def SameButCounters (s t : State) : Prop :=
  { s with rnd := 0, blk := 0 } = { t with rnd := 0, blk := 0 }

end Sys2Proof.Machine
end

