-- ==== Sys2Proof/Certificates/Slice0/Obligations.lean ====
section
/-!
DEFINITION. The statements for the provers, from the spec's numbered rules.
-/

namespace Sys2Proof.Claims

open Sys2Proof.Machine

/-- Byte `j` of the padded message (45_block_framer.md rule R221): the message byte, and PAD_BYTE after the last. -/
def paddedByte (s : State) (j : Nat) : Byte :=
  if j < s.inLen.toNat then readInByte s j else s.cfg.padByte

/-- Block `b` of a byte sequence (45_block_framer.md rule R222). -/
def blockOf (byte : Nat → Byte) (b : Nat) : Block :=
  toBits 64 [byte (8 * b), byte (8 * b + 1), byte (8 * b + 2), byte (8 * b + 3),
    byte (8 * b + 4), byte (8 * b + 5), byte (8 * b + 6), byte (8 * b + 7)]

/-- Byte `j` of the block-by-block transform of a byte sequence (45_block_framer.md rule R223). -/
def transformedByte (t : Tables) (keys : List Subkey) (byte : Nat → Byte) (j : Nat) : Byte :=
  (toBytes (desx t (blockOf byte (j / 8)) keys)).getD (j % 8) 0x00#8

/-- STATUS after a completion with `code`, KSV and BWE given (40_command_sequencer.md rule R124). -/
def completedStatus (ksv bwe : Bool) (code : ErrCode) : Status where
  busy := false
  done := true
  ksv := ksv
  bwe := bwe
  errCode := code

/-- The sequencer is next to step: its turn stands at the head of the schedule, or the schedule is used up while a
command runs. -/
def SequencerNext (s : State) : Prop := nextTurn s = .sequencer

/-- A host line that writes CMD by a legal transaction. -/
def WritesCmd (s : State) : Prop :=
  ∃ value, s.host.prog[s.host.line]? = some (.write 0x00008#18 4 value)

/-- How many of the next `n` turns are the sequencer's while a command runs: those the schedule gives it, and every
turn once the schedule is used up (log entry 7). -/
def sequencerTurns (s : State) (n : Nat) : Nat :=
  (s.schedule.take n).count .sequencer + (n - s.schedule.length)

/-- Message bytes of two states agree (the input of a message command, 45_block_framer.md rule R233). -/
def SameMessage (s t : State) : Prop :=
  s.inLen = t.inLen ∧ ∀ j < s.inLen.toNat, readInByte s j = readInByte t j

/-- The host's next two lines are `lines`, and the next two turns are the host's. -/
def NextTwoLines (s : State) (lines : List HostLine) : Prop :=
  nextTurn s = .host ∧ nextTurn s.popTurn = .host ∧ lines.length = 2 ∧
  s.host.prog[s.host.line]? = lines[0]? ∧ s.host.prog[s.host.line + 1]? = lines[1]?

end Sys2Proof.Claims

open Sys2Proof Sys2Proof.Machine Sys2Proof.Claims

/-! Encoding (30_encoding.md) -/

/-- 95_test_vectors.md section 7.1, from 30_encoding.md rules R101, R104, R110. -/
def Obligations.WrittenWordsDecode : Prop :=
  decode 0x00000000#32 = .nop ∧ decode 0x00000001#32 = .clear ∧ decode 0x00000002#32 = .ksDerive ∧
  decode 0x00000003#32 = .blkEnc ∧ decode 0x00000004#32 = .blkDec ∧ decode 0x00000005#32 = .msgEnc ∧
  decode 0x00000006#32 = .msgDec 0#3 ∧ decode 0x00000106#32 = .msgDec 1#3 ∧ decode 0x00000706#32 = .msgDec 7#3 ∧
  decode 0x00000007#32 = .illegal 0x00000007#32 ∧ decode 0x000000FF#32 = .illegal 0x000000FF#32 ∧
  decode 0x00000105#32 = .illegal 0x00000105#32 ∧ decode 0x00000100#32 = .illegal 0x00000100#32 ∧
  decode 0x00000806#32 = .illegal 0x00000806#32 ∧ decode 0x80000002#32 = .illegal 0x80000002#32 ∧
  decode 0xFFFFFFFF#32 = .illegal 0xFFFFFFFF#32

/-- 30_encoding.md rule R104: which words are legal, that they are 14, and how every other completes. -/
def Obligations.LegalWordsAreTheFourteen : Prop :=
  ∀ w : Word,
    (legal w = true ↔
      w.extractLsb' 11 21 = 0#21 ∧
        (((w.extractLsb' 0 8).toNat ≤ 5 ∧ w.extractLsb' 8 3 = 0#3) ∨ (w.extractLsb' 0 8).toNat = 6)) ∧
    (legal w = true ↔ w ∈ legalWords) ∧ legalWords.length = 14 ∧
    (legal w = false → ∀ s : State, exec (decode w) s = .next (s.complete .illegalCmd))

/-- 30_encoding.md rule R110: the decoder is total, gives a well-formed command, and drops no bit of the word. -/
def Obligations.EncodeOfDecode : Prop :=
  ∀ w : Word, encode (decode w) = w ∧ (decode w).wf = true ∧ (legal w = false ↔ decode w = .illegal w)

/-- Decode and encode agree on every well-formed command, on words, on bytes, and in the table's bit numbering. -/
def Obligations.DecodeOfEncode : Prop :=
  ∀ i : Instr, i.wf = true →
    decode (encode i) = i ∧
    (∀ rest : List Byte, decodeBytes (encodeBytes i ++ rest) = .ok (i, rest)) ∧
    decodeTableWord 32 (encode i).toNat = some i

/-! The step -/

/-- 40_command_sequencer.md rule R124: with one step left, the sequencer's step is exec of the command CMD spells,
at that state with the turn taken. -/
def Obligations.StepRunsAcceptedCommand : Prop :=
  ∀ s : State, s.cfg.wf = true → SequencerNext s → s.status.busy = true → s.remain = 1 →
    step s = exec (decode s.cmd) { s with schedule := s.schedule.tail }

/-- A command word placed for the next step is run by it, with the state of its acceptance. -/
def Obligations.FetchedWordRunsNext : Prop :=
  ∀ (s : State) (w : Word), s.cfg.wf = true →
    step (s.withFetchWord 32 w.toNat) =
      exec (decode w)
        { s with cmd := w
                 status := { s.status with busy := true, done := false, errCode := .none }
                 remain := 1 }

/-- 41_bit_vector_and_permutation.md rule R156: an ill-formed configuration is refused before any step, and a
well-formed one never is. -/
def Obligations.IllFormedConfigurationIsRefused : Prop :=
  ∀ s : State, (step s = .refused .illFormedConfig ↔ s.cfg.wf = false) ∧
    ∀ mnemonic, step s ≠ .refused (.notModelled mnemonic)

/-! Reset (10_state.md rule R43, 70_reset_and_hazards.md) -/

/-- 10_state.md rule R43, row by row. IN_BUF and OUT_BUF list no byte, so each IN_BUF byte reads as its draw. -/
def Obligations.ResetValues : Prop :=
  ctrlWord State.reset = 0x00000000#32 ∧
  statusWord State.reset.status State.reset.status.ksv = 0x00000000#32 ∧
  State.reset.cmd = 0x00000000#32 ∧ State.reset.padOut = 0#3 ∧ State.reset.key = 0#64 ∧
  State.reset.din = 0#64 ∧ State.reset.dout = 0#64 ∧ State.reset.inLen = 0#32 ∧ State.reset.outLen = 0#32 ∧
  idWord = 0x44455331#32 ∧ (∀ entry ∈ State.reset.rk.toList, entry = 0#48) ∧
  (∀ j, readInByte State.reset j = Config.inBufDraw j) ∧ (∀ j, maskedOutByte State.reset j = 0x00#8) ∧
  State.reset.c = 0#28 ∧ State.reset.d = 0#28 ∧ State.reset.l = 0#32 ∧ State.reset.r = 0#32 ∧
  State.reset.phase = .idle ∧ State.reset.remain = 0 ∧ State.reset.rnd = 0 ∧ State.reset.blk = 0 ∧
  State.reset.irq = false

/-- 70_reset_and_hazards.md rules R280 and R281: the reset step puts every register at its reset value whatever the
block was doing, lowers irq, and leaves the buffers, the parameters and the host. -/
def Obligations.ResetStepRestoresRegisters : Prop :=
  ∀ s : State, s.cfg.wf = true → nextTurn s = .reset →
    ∃ t, step s = .next t ∧
      t = { State.reset with cfg := s.cfg, inBuf := s.inBuf, outBuf := s.outBuf, host := s.host
                             schedule := s.schedule.tail, draws := s.draws } ∧
      t.irq = false ∧ t.phase = .idle ∧ (∀ j, maskedOutByte t j = 0x00#8) ∧
      (∀ j, readInByte t j = readInByte s j)

/-! The invariant -/

/-- The invariant holds after reset. -/
def Obligations.ResetHoldsInvariant : Prop := State.reset.Inv

/-- Every step keeps the invariant, from every state that has it. -/
def Obligations.StepKeepsInvariant : Prop :=
  ∀ s t : State, s.Inv → step s = .next t → t.Inv

/-- 10_state.md rule R41: no step, the host's or the sequencer's or a reset, changes a parameter or a table. -/
def Obligations.StepKeepsConfiguration : Prop :=
  ∀ s t : State, step s = .next t → t.cfg = s.cfg

/-- 10_state.md rules R28, R29, R31, R35 and R22: KEY, DIN, IN_LEN, IN_BUF and CTRL are the host's; no step of the
sequencer changes them, nor BWE, nor the host. -/
def Obligations.SequencerLeavesHostInputs : Prop :=
  ∀ s t : State, SequencerNext s → step s = .next t →
    t.key = s.key ∧ t.din = s.din ∧ t.inLen = s.inLen ∧ t.inBuf = s.inBuf ∧ t.ctrlIE = s.ctrlIE ∧
    t.cmd = s.cmd ∧ t.status.bwe = s.status.bwe ∧ t.host = s.host ∧ t.draws = s.draws

/-- 10_state.md rule R24: BUSY and ERRCODE change only at acceptance, at completion and at reset. -/
def Obligations.OnlyAcceptanceCompletionResetChangeBusy : Prop :=
  ∀ s t : State, step s = .next t →
    (t.status.busy ≠ s.status.busy ∨ t.status.errCode ≠ s.status.errCode) →
    nextTurn s = .reset ∨
    (nextTurn s = .host ∧ s.status.busy = false ∧ WritesCmd s ∧ t.status.busy = true ∧ t.status.done = false ∧
      t.status.errCode = .none) ∨
    (nextTurn s = .sequencer ∧ s.status.busy = true ∧ s.remain ≤ 1 ∧ t.status.busy = false ∧ t.status.done = true)

/-! The commands of 40_command_sequencer.md and 43_key_schedule.md -/

/-- NOP, 40_command_sequencer.md rule R130: completes from every state; STATUS and REMAIN by the protocol, nothing
else changes. -/
def Obligations.NopCompletes : Prop :=
  ∀ s : State, exec .nop s =
    .next { s with status := completedStatus s.status.ksv s.status.bwe .none, remain := 0 }

/-- CLEAR, 40_command_sequencer.md rule R131: completes from every state; RK, KSV, C, D, L, R, DOUT, OUT_LEN and
PAD_OUT are zero, nothing else but STATUS and REMAIN changes, OUT_BUF's storage included. -/
def Obligations.ClearCompletes : Prop :=
  ∀ s : State, exec .clear s =
    .next { s with rk := Vector.replicate 16 0#48
                   status := completedStatus false s.status.bwe .none
                   c := 0#28, d := 0#28, l := 0#32, r := 0#32
                   dout := 0#64, outLen := 0#32, padOut := 0#3, remain := 0 }

/-- ILLEGAL, 40_command_sequencer.md rule R135: completes from every state with ILLEGAL_CMD and changes nothing
else, for every word. -/
def Obligations.IllegalCompletes : Prop :=
  ∀ (w : Word) (s : State), exec (.illegal w) s =
    .next { s with status := completedStatus s.status.ksv s.status.bwe .illegalCmd, remain := 0 }

/-- KS_DERIVE, 43_key_schedule.md rule R188: completes from every state; RK[i] is subkey i of KEY, C and D are the
halves after step 16, KSV is set; nothing else but STATUS and REMAIN changes. -/
def Obligations.KsDeriveCompletes : Prop :=
  ∀ s : State, ∃ t, exec .ksDerive s = .next t ∧
    (∀ i, 1 ≤ i → i ≤ 16 → rkEntry t (i - 1) = subkey s.cfg.tables s.key i) ∧
    t = { s with rk := t.rk
                 c := (keyHalvesAfter s.cfg.tables s.key 16).c
                 d := (keyHalvesAfter s.cfg.tables s.key 16).d
                 status := completedStatus true s.status.bwe .none
                 remain := 0 }

/-! The commands of 44_feistel_round_engine.md -/

/-- BLK_ENC, 44_feistel_round_engine.md rule R208, with a schedule: DOUT is DESX of DIN with RK[1..16], L and R are
left by round 16; nothing else but STATUS and REMAIN changes. -/
def Obligations.BlkEncCompletes : Prop :=
  ∀ s : State, s.status.ksv = true → exec .blkEnc s =
    .next { s with dout := desx s.cfg.tables s.din s.rk.toList
                   l := (runRounds s.cfg.tables s.din s.rk.toList).l
                   r := (runRounds s.cfg.tables s.din s.rk.toList).r
                   status := completedStatus true s.status.bwe .none
                   remain := 0 }

/-- BLK_DEC, 44_feistel_round_engine.md rule R209, with a schedule: the same with RK[16..1]. -/
def Obligations.BlkDecCompletes : Prop :=
  ∀ s : State, s.status.ksv = true → exec .blkDec s =
    .next { s with dout := desx s.cfg.tables s.din s.rk.toList.reverse
                   l := (runRounds s.cfg.tables s.din s.rk.toList.reverse).l
                   r := (runRounds s.cfg.tables s.din s.rk.toList.reverse).r
                   status := completedStatus true s.status.bwe .none
                   remain := 0 }

/-- 44_feistel_round_engine.md rules R208 and R209: without a schedule both block commands complete with
NO_SCHEDULE and leave DOUT, L, R and everything else. -/
def Obligations.BlockCommandsNeedSchedule : Prop :=
  ∀ s : State, s.status.ksv = false →
    exec .blkEnc s = .next { s with status := completedStatus false s.status.bwe .noSchedule, remain := 0 } ∧
    exec .blkDec s = .next { s with status := completedStatus false s.status.bwe .noSchedule, remain := 0 }

/-- 70_reset_and_hazards.md rule R288: a block command uses RK as it stands; a KEY written after KS_DERIVE does not
enter its result. -/
def Obligations.BlockCommandsUseHeldSchedule : Prop :=
  ∀ (s : State) (k : Block) (i : Instr), (i = .blkEnc ∨ i = .blkDec) →
    ∃ t, exec i s = .next t ∧ exec i { s with key := k } = .next { t with key := k }

/-! The commands of 45_block_framer.md -/

/-- MSG_ENC, 45_block_framer.md rule R228, without error: the result byte by byte, OUT_LEN, PAD_OUT, the discard of
rule R227, and the frame: OUT_BUF from OUT_LEN on and every other field unchanged. -/
def Obligations.MsgEncCompletes : Prop :=
  ∀ s : State, s.cfg.wf = true → 0 < s.inLen.toNat → s.inLen.toNat ≤ s.cfg.maxMsgBytes →
    ∃ t, exec .msgEnc s = .next t ∧
      t.outLen.toNat = s.inLen.toNat + padcount s.inLen.toNat ∧
      t.padOut.toNat = padcount s.inLen.toNat ∧
      (∀ j < t.outLen.toNat, cellRead t.outBuf j =
        some (transformedByte s.cfg.tables (roundKeys s.cfg.tables s.key).toList (paddedByte s) j)) ∧
      (∀ j, t.outLen.toNat ≤ j → cellRead t.outBuf j = cellRead s.outBuf j) ∧
      t = { s with outBuf := t.outBuf, outLen := t.outLen, padOut := t.padOut
                   rk := Vector.replicate 16 0#48
                   c := 0#28, d := 0#28, l := 0#32, r := 0#32
                   status := completedStatus false s.status.bwe .none
                   remain := 0 }

/-- MSG_ENC's errors, 45_block_framer.md rule R229: CAPACITY, then EMPTY_INPUT; the two cannot hold together; either
leaves OUT_LEN = 0 and PAD_OUT = 0 and nothing else but STATUS and REMAIN. -/
def Obligations.MsgEncErrors : Prop :=
  ∀ s : State,
    (s.cfg.maxMsgBytes < s.inLen.toNat → exec .msgEnc s =
      .next { s with outLen := 0#32, padOut := 0#3, remain := 0
                     status := completedStatus s.status.ksv s.status.bwe .capacity }) ∧
    (s.inLen.toNat = 0 → exec .msgEnc s =
      .next { s with outLen := 0#32, padOut := 0#3, remain := 0
                     status := completedStatus s.status.ksv s.status.bwe .emptyInput }) ∧
    ¬(s.cfg.maxMsgBytes < s.inLen.toNat ∧ s.inLen.toNat = 0) ∧
    decode 0x00000105#32 = .illegal 0x00000105#32

/-- MSG_DEC, 45_block_framer.md rule R230, without error: the decoded bytes below IN_LEN - PADIN, OUT_LEN, PAD_OUT 0,
the discard of rule R227, and the frame: OUT_BUF from OUT_LEN on and every other field unchanged. -/
def Obligations.MsgDecCompletes : Prop :=
  ∀ (s : State) (q : BitVec 3), s.cfg.wf = true → s.inLen.toNat ≤ s.cfg.maxMsgBytes →
    s.inLen.toNat % 8 = 0 → q.toNat ≤ s.inLen.toNat →
    ∃ t, exec (.msgDec q) s = .next t ∧
      t.outLen.toNat = s.inLen.toNat - q.toNat ∧ t.padOut = 0#3 ∧
      (∀ j < t.outLen.toNat, cellRead t.outBuf j =
        some (transformedByte s.cfg.tables (roundKeys s.cfg.tables s.key).toList.reverse (readInByte s) j)) ∧
      (∀ j, t.outLen.toNat ≤ j → cellRead t.outBuf j = cellRead s.outBuf j) ∧
      t = { s with outBuf := t.outBuf, outLen := t.outLen, padOut := t.padOut
                   rk := Vector.replicate 16 0#48
                   c := 0#28, d := 0#28, l := 0#32, r := 0#32
                   status := completedStatus false s.status.bwe .none
                   remain := 0 }

/-- MSG_DEC's errors, 45_block_framer.md rules R230 and R231: the first of CAPACITY, ALIGNMENT, PAD_COUNT that holds
is reported; CAPACITY and ALIGNMENT can hold together; PAD_COUNT is reported only with IN_LEN = 0. Each leaves
OUT_LEN = 0 and PAD_OUT = 0 and nothing else but STATUS and REMAIN. -/
def Obligations.MsgDecErrors : Prop :=
  ∀ (s : State) (q : BitVec 3),
    (s.cfg.maxMsgBytes < s.inLen.toNat → exec (.msgDec q) s =
      .next { s with outLen := 0#32, padOut := 0#3, remain := 0
                     status := completedStatus s.status.ksv s.status.bwe .capacity }) ∧
    (s.inLen.toNat ≤ s.cfg.maxMsgBytes → s.inLen.toNat % 8 ≠ 0 → exec (.msgDec q) s =
      .next { s with outLen := 0#32, padOut := 0#3, remain := 0
                     status := completedStatus s.status.ksv s.status.bwe .alignment }) ∧
    (s.inLen.toNat ≤ s.cfg.maxMsgBytes → s.inLen.toNat % 8 = 0 → s.inLen.toNat < q.toNat →
      s.inLen.toNat = 0 ∧ exec (.msgDec q) s =
        .next { s with outLen := 0#32, padOut := 0#3, remain := 0
                       status := completedStatus s.status.ksv s.status.bwe .padCount }) ∧
    (s.cfg.wf = true → s.inLen.toNat = s.cfg.maxMsgBytes + 1 → s.inLen.toNat % 8 ≠ 0)

/-- 60_exceptions.md rule R250: which code each command completes with, and when. -/
def Obligations.ErrorCodesOfCommands : Prop :=
  ∀ (i : Instr) (s t : State), exec i s = .next t →
    t.status.errCode =
      match i with
      | .nop => .none
      | .clear => .none
      | .ksDerive => .none
      | .blkEnc => if s.status.ksv = false then .noSchedule else .none
      | .blkDec => if s.status.ksv = false then .noSchedule else .none
      | .msgEnc =>
        if s.inLen.toNat > s.cfg.maxMsgBytes then .capacity
        else if s.inLen.toNat = 0 then .emptyInput
        else .none
      | .msgDec q =>
        if s.inLen.toNat > s.cfg.maxMsgBytes then .capacity
        else if s.inLen.toNat % 8 ≠ 0 then .alignment
        else if q.toNat > s.inLen.toNat then .padCount
        else .none
      | .illegal _ => .illegalCmd

/-! The units (41_bit_vector_and_permutation.md to 44_feistel_round_engine.md) -/

/-- 41_bit_vector_and_permutation.md rule R144: rotate_left, its corner cases and its examples; and that the rotations
of the key schedule are by 1 or 2. -/
def Obligations.RotateLeftMovesFirstBitsToEnd : Prop :=
  (∀ (n : Nat) (v : BitVec n) (k s : Nat), s < n → (rotl v k).getMsbD s = v.getMsbD ((s + k) % n)) ∧
  (∀ (n : Nat) (v : BitVec n), 1 ≤ n → rotl v 0 = v ∧ rotl v n = v ∧ rotl v (n + 1) = rotl v 1) ∧
  (∀ (t : Tables) (i : Nat), t.wf = true → 1 ≤ i → i ≤ 16 → shiftAt t i = 1 ∨ shiftAt t i = 2) ∧
  rotl 0xF0CCAAF#28 1 = 0xE19955F#28 ∧ rotl 0xF0CCAAF#28 2 = 0xC332ABF#28 ∧ rotl 0x8000001#28 1 = 0x0000003#28

/-- 41_bit_vector_and_permutation.md rule R150: FP is the inverse of IP in every well-formed TABLES, entry by entry
and as permutations of a Block; a TABLES value that breaks it is ill-formed. -/
def Obligations.FpInvertsIp : Prop :=
  (∀ t : Tables, t.wf = true →
    (∀ i < 64, t.fp.getD (t.ip.getD i 0 - 1) 0 = i + 1 ∧ t.ip.getD (t.fp.getD i 0 - 1) 0 = i + 1) ∧
    (∀ v : Block, permute 64 (permute 64 v t.ip) t.fp = v ∧ permute 64 (permute 64 v t.fp) t.ip = v)) ∧
  Tables.fips.wf = true

/-- 43_key_schedule.md rule R184: the halves are carried from step to step, so after step `i` they are the loaded
halves rotated by the sum of the first `i` entries of SHIFTS. -/
def Obligations.KeyHalvesAccumulateRotation : Prop :=
  ∀ (t : Tables) (k : Block) (i : Nat),
    keyHalvesAfter t k (i + 1) = rotateHalves t (i + 1) (keyHalvesAfter t k i) ∧
    (keyHalvesAfter t k i).c = rotl (loadKey t k).c ((List.range' 1 i).map (shiftAt t)).sum ∧
    (keyHalvesAfter t k i).d = rotl (loadKey t k).d ((List.range' 1 i).map (shiftAt t)).sum

/-- 43_key_schedule.md rule R185: with the default SHIFTS, whatever the other tables are, the rotations sum to 28, so
for every key the halves end where PC-1 put them; the cumulative rotations. -/
def Obligations.DefaultHalvesReturn : Prop :=
  (∀ (t : Tables) (k : Block), t.shifts = Tables.fipsSHIFTS → keyHalvesAfter t k 16 = loadKey t k) ∧
  (List.range' 1 16).map (fun i => ((List.range' 1 i).map (shiftAt Tables.fips)).sum) =
    [1, 2, 4, 6, 8, 10, 12, 14, 15, 17, 19, 21, 23, 25, 27, 28]

/-- 43_key_schedule.md rule R180, for the default tables: two keys that agree but for the bits of index 7, 15, .., 63
give the same RK, C and D by KS_DERIVE. -/
def Obligations.ParityBitsReachNoSubkey : Prop :=
  ∀ (k k' : Block), (∀ i < 64, i % 8 ≠ 7 → k.getMsbD i = k'.getMsbD i) →
    roundKeys Tables.fips k = roundKeys Tables.fips k' ∧
    keyHalvesAfter Tables.fips k 16 = keyHalvesAfter Tables.fips k' 16

/-- 42_substitution_box_array.md rule R172: lane `j` of the array reads input bits 6j..6j+5 alone and writes output
bits 4j..4j+3; and the example. -/
def Obligations.SboxLanesAreIndependent : Prop :=
  (∀ (t : Tables) (x : BitVec 48) (j : Nat), j < 8 →
    slice (sba t x) (4 * j) 4 = sbox t j (slice x (6 * j) 6)) ∧
  (∀ (t : Tables) (x y : BitVec 48) (j : Nat), j < 8 → slice x (6 * j) 6 = slice y (6 * j) 6 →
    slice (sba t x) (4 * j) 4 = slice (sba t y) (4 * j) 4) ∧
  sba Tables.fips 0x6117BA866527#48 = 0x5C82B597#32

/-- 42_substitution_box_array.md rule R175, the table of corner lookups. -/
def Obligations.DefaultBoxCorners : Prop :=
  (List.range 8).map (fun j => [0x00#6, 0x3F#6, 0x1B#6, 0x21#6, 0x1E#6].map fun g => (sbox Tables.fips j g).toNat) =
    [[14, 13, 5, 15, 7], [15, 9, 9, 13, 10], [10, 12, 11, 1, 8], [7, 14, 10, 3, 15],
     [2, 3, 9, 11, 9], [12, 13, 11, 4, 11], [4, 12, 15, 6, 1], [13, 11, 14, 2, 7]]

/-- 44_feistel_round_engine.md rule R203: one round, its inverse, that it is a bijection for each subkey, that it only
swaps where f is zero, and the example. -/
def Obligations.RoundIsInvertible : Prop :=
  (∀ (t : Tables) (l r : Half) (k : Subkey),
    feistelRound t { l := l, r := r } k = { l := r, r := l ^^^ feistelF t r k } ∧
    feistelRound t { l := r ^^^ feistelF t l k, r := l } k = { l := l, r := r } ∧
    (feistelF t r k = 0#32 → feistelRound t { l := l, r := r } k = { l := r, r := l })) ∧
  (∀ (t : Tables) (k : Subkey), Function.Bijective fun h : FeistelHalves => feistelRound t h k) ∧
  feistelRound Tables.fips { l := 0xCC00CCFF#32, r := 0xF0AAF0AA#32 } 0x1B02EFFC7072#48 =
    { l := 0xF0AAF0AA#32, r := 0xEF4A6544#32 }

/-- 44_feistel_round_engine.md rule R207: for every subkey store and every Block, decoding undoes encoding and
encoding undoes decoding, where FP is the inverse of IP (41_bit_vector_and_permutation.md rule R150); no property of
the other tables is used. -/
def Obligations.DecodingInvertsEncoding : Prop :=
  ∀ (t : Tables) (rk : Vector Subkey 16) (x : Block),
    permTableWf 64 64 t.ip = true → permTableWf 64 64 t.fp = true →
    undoes t.fp t.ip = true → undoes t.ip t.fp = true →
    desx t (desx t x (encodeOrder rk)) (decodeOrder rk) = x ∧
    desx t (desx t x (decodeOrder rk)) (encodeOrder rk) = x

/-- 44_feistel_round_engine.md rule R210: complementing key and Block complements the result, in every well-formed
TABLES: for the subkeys, the expansion and the round function on the way, for the transform, and for BLK_ENC after
KS_DERIVE; and the example. -/
def Obligations.ComplementationProperty : Prop :=
  (∀ (t : Tables) (k : Block) (i : Nat) (r : Half) (k' : Subkey), t.wf = true →
    subkey t (~~~k) i = ~~~(subkey t k i) ∧ permute 48 (~~~r) t.e = ~~~(permute 48 r t.e) ∧
    feistelF t (~~~r) (~~~k') = feistelF t r k') ∧
  (∀ (t : Tables) (k x : Block), t.wf = true →
    desx t (~~~x) (roundKeys t (~~~k)).toList = ~~~(desx t x (roundKeys t k).toList)) ∧
  (∀ s : State, s.cfg.wf = true →
    ∃ a b a' b', exec .ksDerive s = .next a ∧ exec .blkEnc a = .next b ∧
      exec .ksDerive { s with key := ~~~s.key, din := ~~~s.din } = .next a' ∧ exec .blkEnc a' = .next b' ∧
      b'.dout = ~~~b.dout) ∧
  desx Tables.fips (~~~0x0123456789ABCDEF#64) (roundKeys Tables.fips (~~~0x133457799BBCDFF1#64)).toList =
    0x7A17ECABF0F54BFA#64 ∧
  ~~~0x85E813540F0AB405#64 = 0x7A17ECABF0F54BFA#64

/-! Message-level properties (45_block_framer.md) -/

/-- 45_block_framer.md rule R220: the padding count, and its examples. -/
def Obligations.PaddingCount : Prop :=
  (∀ n : Nat, padcount n = (8 - n % 8) % 8 ∧ padcount n ≤ 7 ∧ (padcount n = 0 ↔ n % 8 = 0) ∧
    (n + padcount n) % 8 = 0) ∧
  padcount 8 = 0 ∧ padcount 2 = 6 ∧ padcount 1 = 7 ∧ padcount 9 = 7 ∧ padcount 11 = 5

/-- 45_block_framer.md rule R232: MSG_DEC of what MSG_ENC gave, copied into IN_BUF, with its PAD_OUT and the same KEY,
gives the message back, whatever the rest of the second state is. -/
def Obligations.MessageRoundTrip : Prop :=
  ∀ s t u : State, s.cfg.wf = true → 1 ≤ s.inLen.toNat → s.inLen.toNat ≤ s.cfg.maxMsgBytes →
    exec .msgEnc s = .next t →
    u.cfg = s.cfg → u.key = s.key → u.inLen = t.outLen →
    (∀ j < t.outLen.toNat, readInByte u j = readOutByte t j) →
    ∃ v, exec (.msgDec t.padOut) u = .next v ∧ v.status.errCode = .none ∧ v.outLen = s.inLen ∧
      ∀ j < s.inLen.toNat, readOutByte v j = readInByte s j

/-- 45_block_framer.md rule R233: MSG_ENC's result depends on the message bytes, IN_LEN, KEY and the parameters
alone. -/
def Obligations.EncodingIsDeterministic : Prop :=
  ∀ s s' t t' : State, s.cfg = s'.cfg → s.key = s'.key → SameMessage s s' →
    exec .msgEnc s = .next t → exec .msgEnc s' = .next t' →
    t.outLen = t'.outLen ∧ t.padOut = t'.padOut ∧ t.status.errCode = t'.status.errCode ∧
    ∀ j, maskedOutByte t j = maskedOutByte t' j

/-- 45_block_framer.md rule R234: a change of ciphertext bytes 8b..8b+7 changes no plaintext byte outside 8b..8b+7. -/
def Obligations.BlocksAreIndependent : Prop :=
  ∀ (s s' t t' : State) (q : BitVec 3) (b : Nat), s.cfg = s'.cfg → s.key = s'.key → s.inLen = s'.inLen →
    (∀ j, j / 8 ≠ b → readInByte s j = readInByte s' j) →
    exec (.msgDec q) s = .next t → exec (.msgDec q) s' = .next t' →
    t.outLen = t'.outLen ∧ ∀ j, j / 8 ≠ b → maskedOutByte t j = maskedOutByte t' j

/-! The sequencer (40_command_sequencer.md section 1) -/

/-- 40_command_sequencer.md rule R121: a write of CMD while not BUSY accepts the word, whatever it is: what the one
step writes, that a latency of at least 1 is left in REMAIN, and that nothing else changes; and that the parameter
LAT can give each word and its inputs any latency (00_scope.md rule R7, log entry 2), but none that depends on an IN_BUF
byte at or above IN_LEN (20_memory.md rule R72). -/
def Obligations.CmdWriteAcceptsAnyWord : Prop :=
  (∀ (s : State) (w : Word), s.cfg.wf = true → s.status.busy = false →
    ∃ t, memWrite s 0x00008#18 4 w = some t ∧
      t = { s with cmd := w
                   status := { s.status with busy := true, done := false, errCode := .none }
                   remain := latency w s } ∧
      1 ≤ t.remain ∧ t.phase = .run ∧ readWord t .cmd = w) ∧
  (∀ (s : State) (w : Word) (n : Nat),
    latency w { s with cfg := { s.cfg with lat := (latInput w s, n) :: s.cfg.lat } } = n) ∧
  (∀ (s s' : State) (w : Word), s.cfg = s'.cfg → s.key = s'.key → s.din = s'.din → s.rk = s'.rk →
    s.status.ksv = s'.status.ksv → SameMessage s s' → latency w s = latency w s')

/-- 40_command_sequencer.md rule R123: with more than one step left, the sequencer's step takes one from REMAIN and
changes no host-visible register and no output signal: only C, D, L, R, RND and BLK may change besides. That a busy
read of a result register would give the same draw before and after rests on the model's draw counter (log entry 3):
the spec lets it return any value (20_memory.md rule R69). -/
def Obligations.RunningStepsAreInvisible : Prop :=
  ∀ s : State, s.cfg.wf = true → SequencerNext s → s.status.busy = true → 1 < s.remain →
    ∃ t, step s = .next t ∧ t.remain = s.remain - 1 ∧
      t = { s with c := t.c, d := t.d, l := t.l, r := t.r, rnd := t.rnd, blk := t.blk
                   remain := t.remain, schedule := s.schedule.tail } ∧
      (∀ x : Target, readWord t x = readWord s x) ∧ t.irq = s.irq

/-- 40_command_sequencer.md rules R122 and R125: for every latency, a command completes after exactly REMAIN steps of
the sequencer, with the result of exec at its acceptance: the same state but for RND and BLK, which no host access
reads. With host turns between the sequencer's steps, in any order without a reset (20_memory.md rule R79), the
command is still running with its result unchanged before that step, and completes at it, but for what the host's
turns themselves change. -/
def Obligations.CommandCompletesAfterRemainSteps : Prop :=
  (∀ s : State, s.cfg.wf = true → s.status.busy = true → 1 ≤ s.remain → s.schedule = [] →
    ∃ t result, Sys2Proof.core.run s.remain s = .next t ∧ exec (decode s.cmd) s = .next result ∧
      SameButCounters t result ∧ t.status.busy = false ∧ t.status.done = true) ∧
  (∀ (s t : State) (n : Nat), s.cfg.wf = true → s.status.busy = true → 1 ≤ s.remain → .reset ∉ s.schedule.take n →
    Sys2Proof.core.run n s = .next t →
    ∃ result, exec (decode s.cmd) s = .next result ∧
      (sequencerTurns s n < s.remain →
        t.status.busy = true ∧ t.cmd = s.cmd ∧ t.remain = s.remain - sequencerTurns s n ∧
        ∃ v, exec (decode t.cmd) t = .next v ∧ SameButHostSide result v) ∧
      (sequencerTurns s (n - 1) < s.remain → sequencerTurns s n = s.remain →
        t.status.busy = false ∧ t.status.done = true ∧ SameButHostSide result t))

/-! The host port (20_memory.md) -/

/-- 20_memory.md rule R64: a transaction that is misaligned or not 32 bits wide gets ERROR, reads nothing, writes
nothing, and faults the host's step. -/
def Obligations.IllegalAccessFaultsHost : Prop :=
  ∀ (s : State) (offset : Offset) (bytes : Nat), (offset.toNat % 4 ≠ 0 ∨ bytes ≠ 4) →
    memRead s offset bytes = none ∧ (∀ v, memWrite s offset bytes v = none) ∧
    (s.cfg.wf = true → nextTurn s = .host →
      (∀ name, s.host.prog[s.host.line]? = some (.read offset bytes name) →
        step s = .fault (.busError offset bytes)) ∧
      (∀ value, s.host.prog[s.host.line]? = some (.write offset bytes value) → (hostValue s value).isSome = true →
        step s = .fault (.busError offset bytes)))

/-- 20_memory.md rule R65 with the reserved offsets of rule R62: a read returns 0 and a write changes nothing. -/
def Obligations.ReservedOffsetsReadZero : Prop :=
  ∀ (s : State) (offset : Offset) (v : Word), s.cfg.wf = true → offset.toNat % 4 = 0 →
    (0x34 ≤ offset.toNat ∧ offset.toNat < 0x100 ∨ 0x180 ≤ offset.toNat ∧ offset.toNat < 0x10000 ∨
      0x10000 + s.cfg.maxMsgBytes ≤ offset.toNat ∧ offset.toNat < 0x20000 ∨
      0x20000 + s.cfg.maxMsgBytes ≤ offset.toNat ∧ offset.toNat < 0x30000 ∨ 0x30000 ≤ offset.toNat) →
    memRead s offset 4 = some (0x00000000#32, s) ∧ memWrite s offset 4 v = some s

/-- 20_memory.md rule R66: a write to a read-only register or to OUT_BUF changes nothing, BUSY or not; the reserved
bits of CTRL and STATUS read 0 and what is written to them is ignored. -/
def Obligations.ReadOnlyWritesIgnored : Prop :=
  (∀ (s : State) (offset : Offset) (v : Word), s.cfg.wf = true → offset.toNat % 4 = 0 →
    (offset.toNat = 0x0C ∨ offset.toNat = 0x20 ∨ offset.toNat = 0x24 ∨ offset.toNat = 0x2C ∨ offset.toNat = 0x30 ∨
      0x100 ≤ offset.toNat ∧ offset.toNat < 0x180 ∨
      0x20000 ≤ offset.toNat ∧ offset.toNat < 0x20000 + s.cfg.maxMsgBytes) →
    memWrite s offset 4 v = some s) ∧
  (∀ s : State, readWord s .ctrl &&& 0xFFFFFFFE#32 = 0#32 ∧ readWord s .status &&& 0xFFFFF0F0#32 = 0#32) ∧
  (∀ (s : State) (v : Word), memWrite s 0x00000#18 4 v = memWrite s 0x00000#18 4 (v &&& 0x00000001#32) ∧
    memWrite s 0x00004#18 4 v = memWrite s 0x00004#18 4 (v &&& 0x0000000A#32))

/-- 20_memory.md rule R67: a STATUS write clears DONE and BWE by its bits 1 and 3 and does nothing else; a CTRL write
writes IE by its bit 0; both whether or not BUSY, and neither sets BWE. -/
def Obligations.CtrlStatusWritesAlwaysApply : Prop :=
  ∀ (s : State) (v : Word),
    memWrite s 0x00000#18 4 v = some { s with ctrlIE := v.getLsbD 0 } ∧
    memWrite s 0x00004#18 4 v = some { s with
      status := { busy := s.status.busy
                  done := if v.getLsbD 1 then false else s.status.done
                  ksv := s.status.ksv
                  bwe := if v.getLsbD 3 then false else s.status.bwe
                  errCode := s.status.errCode } }

/-- 20_memory.md rule R68: while BUSY, a write to CMD, KEY, DIN, IN_LEN or IN_BUF sets BWE and changes nothing else;
while not BUSY it takes effect (CMD issues), changes the register or buffer it names alone, and leaves BWE. -/
def Obligations.BusyWriteRule : Prop :=
  ∀ (s : State) (offset : Offset) (v : Word), s.cfg.wf = true → offset.toNat % 4 = 0 →
    (offset.toNat = 0x08 ∨ 0x10 ≤ offset.toNat ∧ offset.toNat ≤ 0x1C ∨ offset.toNat = 0x28 ∨
      0x10000 ≤ offset.toNat ∧ offset.toNat < 0x10000 + s.cfg.maxMsgBytes) →
    (s.status.busy = true →
      memWrite s offset 4 v = some { s with status := { s.status with bwe := true } }) ∧
    (s.status.busy = false → ∃ t, memWrite s offset 4 v = some t ∧ t.status.bwe = s.status.bwe ∧
      (offset.toNat = 0x08 → t = issue v s) ∧
      (offset.toNat ≠ 0x08 → readWord t (target t offset) = v) ∧
      (0x10 ≤ offset.toNat ∧ offset.toNat ≤ 0x14 → t = { s with key := t.key }) ∧
      (0x18 ≤ offset.toNat ∧ offset.toNat ≤ 0x1C → t = { s with din := t.din }) ∧
      (offset.toNat = 0x28 → t = { s with inLen := v }) ∧
      (0x10000 ≤ offset.toNat → t = { s with inBuf := t.inBuf }))

/-- 20_memory.md rule R69: while BUSY, what a read returns depends on no result register: two states that differ only
in DOUT, OUT_LEN, PAD_OUT, RK, OUT_BUF and KSV read alike at every offset; a result register reads as this read's
draw (log entry 3); STATUS reads BUSY = 1, BWE as it stands, and, under the invariant, DONE = 0 and ERRCODE = 0; CTRL,
CMD, KEY, DIN, IN_LEN, ID and IN_BUF read as their values. -/
def Obligations.BusyReadsRevealNoResult : Prop :=
  (∀ s s' : State, s.status.busy = true →
    s' = { s with dout := s'.dout, outLen := s'.outLen, padOut := s'.padOut, rk := s'.rk, outBuf := s'.outBuf
                  status := { s.status with ksv := s'.status.ksv } } →
    ∀ x : Target, readWord s x = readWord s' x) ∧
  (∀ (s : State) (n : Nat), s.status.busy = true →
    readWord s .padOut = Config.busyRead s.draws ∧ readWord s .doutHi = Config.busyRead s.draws ∧
    readWord s .doutLo = Config.busyRead s.draws ∧ readWord s .outLen = Config.busyRead s.draws ∧
    readWord s (.rkHi n) = Config.busyRead s.draws ∧ readWord s (.rkLo n) = Config.busyRead s.draws ∧
    readWord s (.outBuf n) = Config.busyRead s.draws ∧ (readWord s .status).getLsbD 0 = true ∧
    (readWord s .status).getLsbD 3 = s.status.bwe) ∧
  (∀ s : State, s.Inv → s.status.busy = true →
    (readWord s .status).getLsbD 1 = false ∧ (readWord s .status).extractLsb' 8 4 = 0#4) ∧
  (∀ s : State, s.status.busy = true →
    readWord s .ctrl = (if s.ctrlIE then 0x00000001#32 else 0x00000000#32) ∧ readWord s .cmd = s.cmd ∧
    readWord s .keyHi = s.key.extractLsb' 32 32 ∧ readWord s .keyLo = s.key.extractLsb' 0 32 ∧
    readWord s .dinHi = s.din.extractLsb' 32 32 ∧ readWord s .dinLo = s.din.extractLsb' 0 32 ∧
    readWord s .inLen = s.inLen ∧ readWord s .id = 0x44455331#32 ∧
    ∀ a, ∀ j < 4, (readWord s (.inBuf a)).extractLsb' (24 - 8 * j) 8 = readInByte s (a + j))

/-- 20_memory.md rule R77: a read changes nothing of the block, whatever it reads; at most a draw is used up. -/
def Obligations.ReadsHaveNoSideEffect : Prop :=
  ∀ (s t : State) (offset : Offset) (bytes : Nat) (v : Word), memRead s offset bytes = some (v, t) →
    t = { s with draws := t.draws } ∧ s.draws ≤ t.draws ∧ (s.status.busy = false → t = s)

/-- 20_memory.md rule R70: KEY, DIN and DOUT as two words, the high one at the lower offset; the order of the two
writes does not matter. And 30_encoding.md rule R109 with it: what GETDOUT -> y, SETKEY and SETDIN do in their two lines,
y being its two named words (log entry 20). -/
def Obligations.SixtyFourBitViews : Prop :=
  (∀ s : State, target s 0x00010#18 = .keyHi ∧ target s 0x00014#18 = .keyLo ∧ target s 0x00018#18 = .dinHi ∧
    target s 0x0001C#18 = .dinLo ∧ target s 0x00020#18 = .doutHi ∧ target s 0x00024#18 = .doutLo) ∧
  (∀ v : Block, v.toNat = (hiWord v).toNat * 2 ^ 32 + (loWord v).toNat) ∧
  (∀ s : State, s.status.busy = false →
    readWord s .keyHi = hiWord s.key ∧ readWord s .keyLo = loWord s.key ∧
    readWord s .dinHi = hiWord s.din ∧ readWord s .dinLo = loWord s.din ∧
    readWord s .doutHi = hiWord s.dout ∧ readWord s .doutLo = loWord s.dout) ∧
  (∀ (s : State) (hi lo : Word), s.status.busy = false →
    writeWord (writeWord s hi .keyHi) lo .keyLo = { s with key := hi ++ lo } ∧
    writeWord (writeWord s lo .keyLo) hi .keyHi = { s with key := hi ++ lo } ∧
    writeWord (writeWord s hi .dinHi) lo .dinLo = { s with din := hi ++ lo } ∧
    writeWord (writeWord s lo .dinLo) hi .dinHi = { s with din := hi ++ lo } ∧
    writeWord s hi .keyHi = { s with key := hi ++ loWord s.key } ∧
    writeWord s lo .keyLo = { s with key := hiWord s.key ++ lo } ∧
    writeWord s hi .dinHi = { s with din := hi ++ loWord s.din } ∧
    writeWord s lo .dinLo = { s with din := hiWord s.din ++ lo }) ∧
  (∀ (s : State) (yh yl : Nat) (hi lo : Word), cellRead s.host.names yh = some hi → cellRead s.host.names yl = some lo →
    ∃ y, hostBlock s (.names yh yl) = some y ∧ y.toNat = hi.toNat * 2 ^ 32 + lo.toNat) ∧
  (∀ (s : State) (yh yl : Nat), s.cfg.wf = true → s.status.busy = false → yh ≠ yl →
    NextTwoLines s (pseudoGetDout yh yl) →
    ∃ t, Sys2Proof.core.run 2 s = .next t ∧ hostBlock t (.names yh yl) = some s.dout ∧
      t = { s with schedule := t.schedule, host := t.host } ∧ t.host.line = s.host.line + 2) ∧
  (∀ (s : State) (x : HostBlock) (v : Block), s.cfg.wf = true → s.status.busy = false → hostBlock s x = some v →
    (NextTwoLines s (pseudoSetKey x) → ∃ t, Sys2Proof.core.run 2 s = .next t ∧
      t = { s with key := v, schedule := t.schedule, host := t.host } ∧ t.host.line = s.host.line + 2) ∧
    (NextTwoLines s (pseudoSetDin x) → ∃ t, Sys2Proof.core.run 2 s = .next t ∧
      t = { s with din := v, schedule := t.schedule, host := t.host } ∧ t.host.line = s.host.line + 2))

/-- 20_memory.md rules R71 and R72: an IN_BUF word written while not BUSY puts its bytes at 4m..4m+3, most significant
first; every other byte of IN_BUF reads as before; the word reads back. -/
def Obligations.InBufWordWrite : Prop :=
  ∀ (s : State) (m : Nat) (v : Word), s.cfg.wf = true → s.status.busy = false → 4 * m < s.cfg.maxMsgBytes →
    ∃ t, memWrite s (BitVec.ofNat 18 (0x10000 + 4 * m)) 4 v = some t ∧ t = { s with inBuf := t.inBuf } ∧
      (∀ j < 4, readInByte t (4 * m + j) = v.extractLsb' (24 - 8 * j) 8) ∧
      (∀ a, (a < 4 * m ∨ 4 * m + 4 ≤ a) → readInByte t a = readInByte s a) ∧
      memRead t (BitVec.ofNat 18 (0x10000 + 4 * m)) 4 = some (v, t)

/-- 20_memory.md rule R73: an OUT_BUF word read while not BUSY holds the stored bytes below OUT_LEN and 0x00 at and
above it, so all of it is 0x00 where OUT_LEN = 0; a write changes nothing. -/
def Obligations.OutBufReadIsMasked : Prop :=
  ∀ (s : State) (m : Nat), s.cfg.wf = true → s.status.busy = false → 4 * m < s.cfg.maxMsgBytes →
    (∃ w, memRead s (BitVec.ofNat 18 (0x20000 + 4 * m)) 4 = some (w, s) ∧
      (∀ j < 4, w.extractLsb' (24 - 8 * j) 8 =
        if 4 * m + j < s.outLen.toNat then readOutByte s (4 * m + j) else 0x00#8) ∧
      (s.outLen = 0#32 → w = 0x00000000#32)) ∧
    ∀ v, memWrite s (BitVec.ofNat 18 (0x20000 + 4 * m)) 4 v = some s

/-- 20_memory.md rule R74: the RK window while not BUSY, and that its writes are ignored. -/
def Obligations.RkWindowRead : Prop :=
  ∀ (s : State) (i : Nat) (v : Word), 1 ≤ i → i ≤ 16 → s.status.busy = false →
    memRead s (BitVec.ofNat 18 (0x100 + 8 * (i - 1))) 4 =
      some (((rkEntry s (i - 1)).extractLsb' 32 16).setWidth 32, s) ∧
    memRead s (BitVec.ofNat 18 (0x104 + 8 * (i - 1))) 4 = some ((rkEntry s (i - 1)).extractLsb' 0 32, s) ∧
    memWrite s (BitVec.ofNat 18 (0x100 + 8 * (i - 1))) 4 v = some s ∧
    memWrite s (BitVec.ofNat 18 (0x104 + 8 * (i - 1))) 4 v = some s

/-- 10_state.md rule R40: irq is a function of CTRL.IE and STATUS.DONE, zero at reset, raised by every completion while
IE = 1, lowered by a STATUS write with bit 1 set and by the next acceptance. -/
def Obligations.IrqFollowsDone : Prop :=
  (∀ s : State, s.irq = (s.ctrlIE && s.status.done)) ∧ State.reset.irq = false ∧
  (∀ (i : Instr) (s t : State), exec i s = .next t → t.irq = s.ctrlIE) ∧
  (∀ (s t : State) (v : Word), memWrite s 0x00004#18 4 v = some t → v.getLsbD 1 = true → t.irq = false) ∧
  (∀ (s : State) (w : Word), (issue w s).irq = false)

/-! Safety of the host's side -/

/-- 20_memory.md rule R64 and 30_encoding.md rule R108: a step stops exactly when it is the host's turn and its next
line is an illegal transaction or uses an unbound name; a command never stops it. -/
def Obligations.StepFaultsExactlyOnUnsafeLine : Prop :=
  ∀ s : State, s.cfg.wf = true →
    ((∃ f, step s = .fault f) ↔
      nextTurn s = .host ∧ ∃ line, s.host.prog[s.host.line]? = some line ∧ hostLineSafe s line = false)

/-- A host whose every line is safe stays so, and none of its steps stops. -/
def Obligations.CleanHostNeverStops : Prop :=
  ∀ s : State, s.cfg.wf = true → s.HostClean → ∃ t, step s = .next t ∧ t.HostClean

/-! The registers as the host reads them, and the host's own turn -/

/-- 10_state.md rules R22, R23, R26, R27, R31, R32 and R33: what a read of CTRL, STATUS, CMD, PAD_OUT, IN_LEN, OUT_LEN and
ID returns while not BUSY, where each field of STATUS stands, and the numbers of the result codes (60_exceptions.md
rule R250); ID reads so while BUSY too. -/
def Obligations.SettledRegisterReads : Prop :=
  (∀ s : State, s.status.busy = false →
    memRead s 0x00000#18 4 = some (if s.ctrlIE then 0x00000001#32 else 0x00000000#32, s) ∧
    (∃ w, memRead s 0x00004#18 4 = some (w, s) ∧ w.getLsbD 0 = false ∧ w.getLsbD 1 = s.status.done ∧
      w.getLsbD 2 = s.status.ksv ∧ w.getLsbD 3 = s.status.bwe ∧ w.extractLsb' 4 4 = 0#4 ∧
      w.extractLsb' 8 4 = s.status.errCode.code ∧ w.extractLsb' 12 20 = 0#20) ∧
    memRead s 0x00008#18 4 = some (s.cmd, s) ∧
    (∃ w, memRead s 0x0000C#18 4 = some (w, s) ∧ w.extractLsb' 0 3 = s.padOut ∧ w.extractLsb' 3 29 = 0#29) ∧
    memRead s 0x00028#18 4 = some (s.inLen, s) ∧ memRead s 0x0002C#18 4 = some (s.outLen, s)) ∧
  (∀ s : State, memRead s 0x00030#18 4 = some (0x44455331#32, s)) ∧
  [ErrCode.none, .emptyInput, .alignment, .lengthMismatch, .index, .length, .illegalCmd, .noSchedule, .padCount,
    .capacity].map (fun e => e.code.toNat) = [0, 1, 2, 3, 4, 5, 6, 7, 8, 9]

/-- 30_encoding.md rule R108: on the host's turn the step is its next line's: a write is the MemWrite of the state with
the turn taken; a read is its MemRead, and binds the name if it has one; BNZ goes to its label by the mask; and the
host moves to its next line. A host that waits for irq goes on when irq is 1 and stays else (60_exceptions.md rule
R262); irq 1, or a STATUS read with bit 0 clear, shows that no command runs. That the host is an agent in State, that
an ended program passes its turn, and the line that waits for irq are the model's choices (log entries 7, 8, 19). -/
def Obligations.HostTurnRunsLine : Prop :=
  (∀ s : State, s.cfg.wf = true → nextTurn s = .host →
    (s.host.prog[s.host.line]? = none → step s = .next { s with schedule := s.schedule.tail }) ∧
    (∀ (offset : Offset) (value : HostValue) (v : Word), offset.toNat % 4 = 0 →
      s.host.prog[s.host.line]? = some (.write offset 4 value) →
      (value = .literal v ∨ ∃ number, value = .name number ∧ cellRead s.host.names number = some v) →
      ∃ t, memWrite { s with schedule := s.schedule.tail } offset 4 v = some t ∧
        step s = .next { t with host := { s.host with response := .written, line := s.host.line + 1 } }) ∧
    (∀ offset : Offset, offset.toNat % 4 = 0 →
      s.host.prog[s.host.line]? = some (.read offset 4 none) →
      ∃ v t, memRead { s with schedule := s.schedule.tail } offset 4 = some (v, t) ∧
        step s = .next { t with host := { s.host with response := .data v, line := s.host.line + 1 } }) ∧
    (∀ (offset : Offset) (number : Nat), offset.toNat % 4 = 0 →
      s.host.prog[s.host.line]? = some (.read offset 4 (some number)) →
      ∃ v t names, memRead { s with schedule := s.schedule.tail } offset 4 = some (v, t) ∧
        step s = .next { t with host := { s.host with response := .data v, line := s.host.line + 1, names := names } } ∧
        cellRead names number = some v ∧
        ∀ other, other ≠ number → cellRead names other = cellRead s.host.names other) ∧
    (∀ (number : Nat) (mask : Word) (label : Nat) (v : Word),
      s.host.prog[s.host.line]? = some (.bnz number mask label) → cellRead s.host.names number = some v →
      step s = .next { s with
        schedule := s.schedule.tail
        host := { s.host with line := if v &&& mask ≠ 0x00000000#32 then label else s.host.line + 1 } }) ∧
    (s.host.prog[s.host.line]? = some .waitIrq →
      step s = .next { s with
        schedule := s.schedule.tail
        host := { s.host with line := if s.irq = true then s.host.line + 1 else s.host.line } })) ∧
  (∀ s : State, s.Inv → s.irq = true → s.status.busy = false) ∧
  (∀ s : State, (readWord s .status).getLsbD 0 = s.status.busy)
end

