-- ==== Sys2Proof/Laws/Bits.lean ====
section
/-!
SUPPORT. The bit-level laws of the utilities: what each output bit is, by sequence index (00_scope.md rule R8).
-/

namespace Sys2Proof

/-- Bit `i` of a fold over bits, most significant first. -/
theorem foldl_bits_testBit (bits : List Bool) (acc i : Nat) :
    (bits.foldl (fun acc b => 2 * acc + b.toNat) acc).testBit i =
      if i < bits.length then bits.getD (bits.length - 1 - i) false else acc.testBit (i - bits.length) := by
  induction bits generalizing acc with
  | nil => simp
  | cons b rest ih =>
    rw [List.foldl_cons, ih]
    simp only [List.length_cons]
    by_cases h : i < rest.length
    · rw [if_pos h, if_pos (by omega), show rest.length + 1 - 1 - i = (rest.length - 1 - i) + 1 by omega,
        List.getD_cons_succ]
    · rw [if_neg h]
      by_cases h' : i = rest.length
      · subst h'
        cases b <;> simp [Nat.testBit_zero]
      · rw [if_neg (by omega), show i - rest.length = (i - (rest.length + 1)) + 1 by omega, Nat.testBit_succ]
        congr 1
        cases b
        · simp
        · simp only [Bool.toNat_true]; omega

/-- The bits of `ofBits`, by sequence index. -/
theorem ofBits_getMsbD {n : Nat} {bits : List Bool} (h : bits.length = n) (i : Nat) :
    (ofBits n bits).getMsbD i = bits.getD i false := by
  subst h
  rw [BitVec.getMsbD_eq_getLsbD, ofBits, BitVec.getLsbD_ofNat, foldl_bits_testBit]
  by_cases hi : i < bits.length
  · rw [if_pos (by omega), show bits.length - 1 - (bits.length - 1 - i) = i by omega]
    simp [hi]; omega
  · simp [hi]

/-- Output bit `i` of `permute` is the input bit that entry `i` names (41_bit_vector_and_permutation.md
rule R145). -/
theorem permute_getMsbD {n m : Nat} (v : BitVec n) {table : List Nat} (h : table.length = m) {i : Nat} (hi : i < m) :
    (permute m v table).getMsbD i = v.getMsbD (table.getD i 0 - 1) := by
  rw [permute, ofBits_getMsbD (by simpa using h)]
  subst h
  simp [List.getD_eq_getElem?_getD, hi]

/-- The bits of a slice (00_scope.md rule R10). -/
theorem slice_getMsbD {n : Nat} (v : BitVec n) {i len : Nat} (h : i + len ≤ n) {s : Nat} (hs : s < len) :
    (slice v i len).getMsbD s = v.getMsbD (i + s) := by
  have h1 : n - (i + len) + len - s ≤ n := by omega
  have h2 : n - (n - (i + len) + len - s) = i + s := by omega
  simp [slice, BitVec.getMsbD_extractLsb', hs, h1, h2]

/-- The bits of a rotation (41_bit_vector_and_permutation.md rule R144). -/
theorem rotl_getMsbD {n : Nat} (v : BitVec n) (k : Nat) {s : Nat} (hs : s < n) :
    (rotl v k).getMsbD s = v.getMsbD ((s + k) % n) := by
  simp [rotl, BitVec.getMsbD_rotateLeft, hs, Nat.add_comm]

/-- The bits of an exclusive-or (41_bit_vector_and_permutation.md rule R143). -/
theorem xor_getMsbD {n : Nat} (a b : BitVec n) (s : Nat) :
    (a ^^^ b).getMsbD s = (a.getMsbD s ^^ b.getMsbD s) := by
  simp [BitVec.getMsbD_xor]

/-- A Block has eight bytes. -/
@[simp] theorem toBytes_length (v : Block) : (toBytes v).length = 8 := by simp [toBytes]

/-- The value of a byte sequence is below 256 to its length. -/
theorem foldl_bytes_eq (bytes : List Byte) (acc : Nat) :
    bytes.foldl (fun acc b => 256 * acc + b.toNat) acc =
      acc * 256 ^ bytes.length + bytes.foldl (fun acc b => 256 * acc + b.toNat) 0 := by
  induction bytes generalizing acc with
  | nil => simp
  | cons b rest ih =>
    simp only [List.foldl_cons, List.length_cons]
    rw [ih (256 * acc + b.toNat), ih (256 * 0 + b.toNat)]
    ring

/-- to_bits of a Block's bytes is the Block (41_bit_vector_and_permutation.md rule R141). -/
@[simp] theorem toBits_toBytes (v : Block) : toBits 64 (toBytes v) = v := by
  apply BitVec.eq_of_toNat_eq
  have hv := v.isLt
  simp only [toBits, toBytes, slice, List.range, List.range.loop, List.map, List.foldl, BitVec.toNat_ofNat,
    BitVec.extractLsb'_toNat, Nat.shiftRight_eq_div_pow]
  omega

/-- The bytes of a Block made of eight bytes are those bytes (41_bit_vector_and_permutation.md rule R141). -/
theorem toBytes_toBits {bytes : List Byte} (h : bytes.length = 8) : toBytes (toBits 64 bytes) = bytes := by
  obtain ⟨b0, b1, b2, b3, b4, b5, b6, b7, rfl⟩ :
      ∃ b0 b1 b2 b3 b4 b5 b6 b7, bytes = [b0, b1, b2, b3, b4, b5, b6, b7] := by
    match bytes, h with
    | [b0, b1, b2, b3, b4, b5, b6, b7], _ => exact ⟨b0, b1, b2, b3, b4, b5, b6, b7, rfl⟩
  have h0 := b0.isLt; have h1 := b1.isLt; have h2 := b2.isLt; have h3 := b3.isLt
  have h4 := b4.isLt; have h5 := b5.isLt; have h6 := b6.isLt; have h7 := b7.isLt
  simp only [toBits, toBytes, slice, List.range, List.range.loop, List.map, List.foldl, List.cons.injEq, and_true]
  refine ⟨?_, ?_, ?_, ?_, ?_, ?_, ?_, ?_⟩ <;> apply BitVec.eq_of_toNat_eq <;>
    simp only [BitVec.toNat_ofNat, BitVec.extractLsb'_toNat, Nat.shiftRight_eq_div_pow] <;> omega

end Sys2Proof
end

