-- ==== Sys2Proof/Laws/Memory.lean ====
section
/-!
SUPPORT. The laws of the cell lists: read after write, and that every memory operation keeps the canonical form.
-/

namespace Sys2Proof.Machine

variable {α : Type}

/-- A list whose keys rise strictly, all of them above `a`. -/
theorem cellRead_none_of_lt {m : List (Nat × α)} {a : Nat} (h : ∀ cell ∈ m, a < cell.1) :
    cellRead m a = none := by
  induction m with
  | nil => rfl
  | cons cell rest ih =>
    obtain ⟨k, v⟩ := cell
    have hk : a < k := h (k, v) (by simp)
    simp only [cellRead, if_neg hk.ne]
    exact ih fun cell hc => h cell (by simp [hc])

/-- The value just written is read. -/
@[simp] theorem cellRead_cellWrite_self (m : List (Nat × α)) (a : Nat) (v : α) :
    cellRead (cellWrite m a v) a = some v := by
  induction m with
  | nil => simp [cellWrite, cellRead]
  | cons cell rest ih =>
    obtain ⟨k, w⟩ := cell
    rcases Nat.lt_trichotomy a k with h | h | h
    · simp [cellWrite, h, cellRead]
    · simp [cellWrite, h, cellRead]
    · simp [cellWrite, Nat.not_lt.2 h.le, h.ne', cellRead, ih]

/-- A write leaves every other key alone. -/
theorem cellRead_cellWrite_ne (m : List (Nat × α)) {a b : Nat} (v : α) (h : b ≠ a) :
    cellRead (cellWrite m a v) b = cellRead m b := by
  induction m with
  | nil => simp [cellWrite, cellRead, h]
  | cons cell rest ih =>
    obtain ⟨k, w⟩ := cell
    by_cases hlt : a < k
    · simp [cellWrite, hlt, cellRead, h]
    · by_cases heq : a = k
      · subst heq
        simp [cellWrite, cellRead, h]
      · simp [cellWrite, hlt, heq, cellRead, ih]

/-- Read after write, both cases at once. -/
theorem cellRead_cellWrite (m : List (Nat × α)) (a b : Nat) (v : α) :
    cellRead (cellWrite m a v) b = if b = a then some v else cellRead m b := by
  by_cases h : b = a
  · simp [h]
  · simp [h, cellRead_cellWrite_ne m v h]

/-- A cell of a written list is the written one or an old one. -/
theorem mem_cellWrite {m : List (Nat × α)} {a : Nat} {v : α} {cell : Nat × α}
    (h : cell ∈ cellWrite m a v) : cell = (a, v) ∨ cell ∈ m := by
  induction m with
  | nil => simpa [cellWrite] using h
  | cons first rest ih =>
    obtain ⟨k, w⟩ := first
    simp only [cellWrite] at h
    split at h
    · simpa using h
    · split at h
      · rcases List.mem_cons.1 h with h | h
        · exact .inl h
        · exact .inr (List.mem_cons_of_mem _ h)
      · rcases List.mem_cons.1 h with h | h
        · exact .inr (by simp [h])
        · rcases ih h with h | h
          · exact .inl h
          · exact .inr (List.mem_cons_of_mem _ h)

/-- A write keeps the canonical form. -/
theorem cellWrite_rising {m : List (Nat × α)} (hm : (m.map Prod.fst).Pairwise (· < ·)) (a : Nat) (v : α) :
    ((cellWrite m a v).map Prod.fst).Pairwise (· < ·) := by
  induction m with
  | nil => simp [cellWrite]
  | cons first rest ih =>
    obtain ⟨k, w⟩ := first
    simp only [List.map_cons, List.pairwise_cons] at hm
    obtain ⟨hk, hrest⟩ := hm
    simp only [cellWrite]
    split
    · rename_i hlt
      simp only [List.map_cons, List.pairwise_cons]
      refine ⟨fun x hx => ?_, hk, hrest⟩
      rcases List.mem_cons.1 hx with rfl | hx
      · exact hlt
      · exact hlt.trans (hk x hx)
    · split
      · rename_i heq
        subst heq
        simpa using ⟨by simpa using hk, hrest⟩
      · rename_i hlt heq
        simp only [List.map_cons, List.pairwise_cons]
        refine ⟨fun x hx => ?_, ih hrest⟩
        obtain ⟨cell, hc, rfl⟩ := List.mem_map.1 hx
        rcases mem_cellWrite hc with rfl | hc
        · simp only; omega
        · exact hk _ (List.mem_map_of_mem hc)

/-- Bytes in the written run read as written, all others as before. -/
theorem cellRead_writeBytes (m : Memory) (a : Nat) (bytes : List Byte) (j : Nat) :
    cellRead (writeBytes m a bytes) j =
      if a ≤ j ∧ j < a + bytes.length then bytes[j - a]? else cellRead m j := by
  induction bytes generalizing m a with
  | nil => simp only [writeBytes, List.length_nil]; split <;> first | omega | rfl
  | cons b rest ih =>
    simp only [writeBytes, ih, cellRead_cellWrite, List.length_cons]
    by_cases hj : j = a
    · subst hj; simp
    · by_cases hin : a + 1 ≤ j ∧ j < a + 1 + rest.length
      · have : j - a = (j - (a + 1)) + 1 := by omega
        rw [if_pos hin, if_pos (by omega), this, List.getElem?_cons_succ]
      · rw [if_neg hin, if_neg hj, if_neg (by omega)]

/-- A run of writes keeps the canonical form. -/
theorem writeBytes_rising {m : Memory} (hm : Memory.wf m) (a : Nat) (bytes : List Byte) :
    Memory.wf (writeBytes m a bytes) := by
  induction bytes generalizing m a with
  | nil => exact hm
  | cons b rest ih => exact ih (cellWrite_rising hm a b) (a + 1)

/-- A cell after a run of writes is an old one or lies in the run. -/
theorem mem_writeBytes {m : Memory} {a : Nat} {bytes : List Byte} {cell : Host.Cell}
    (h : cell ∈ writeBytes m a bytes) : cell ∈ m ∨ cell.1 < a + bytes.length := by
  induction bytes generalizing m a with
  | nil => exact .inl h
  | cons b rest ih =>
    rcases ih h with h | h
    · rcases mem_cellWrite h with rfl | h
      · exact .inr (by simp)
      · exact .inl h
    · exact .inr (by simp only [List.length_cons]; omega)

/-- IN_BUF[j] after a host write of bytes from index `a`. -/
theorem readInByte_of_inBuf {s : State} {m : Memory} {a : Nat} {bytes : List Byte}
    (h : s.inBuf = writeBytes m a bytes) (j : Nat) :
    readInByte s j = if a ≤ j ∧ j < a + bytes.length then bytes.getD (j - a) 0#8
      else (cellRead m j).getD (Config.inBufDraw j) := by
  simp only [readInByte, h, cellRead_writeBytes]
  split
  · rename_i hj
    rw [List.getD_eq_getElem?_getD, List.getElem?_eq_getElem (by omega)]
    simp
  · rfl

end Sys2Proof.Machine
end

