-- ==== Sys2Proof/Laws/State.lean ====
section
/-!
SUPPORT. What each named update of the state does to each field: one lemma per field per update, so that no later
proof unfolds a record update.
-/

namespace Sys2Proof.Machine

@[simp] theorem State.writeCtrl_cfg (s : State) (v : Word) : (s.writeCtrl v).cfg = s.cfg := rfl
@[simp] theorem State.writeCtrl_ctrlIE (s : State) (v : Word) : (s.writeCtrl v).ctrlIE = v.getLsbD 0 := rfl
@[simp] theorem State.writeCtrl_status (s : State) (v : Word) : (s.writeCtrl v).status = s.status := rfl
@[simp] theorem State.writeCtrl_cmd (s : State) (v : Word) : (s.writeCtrl v).cmd = s.cmd := rfl
@[simp] theorem State.writeCtrl_padOut (s : State) (v : Word) : (s.writeCtrl v).padOut = s.padOut := rfl
@[simp] theorem State.writeCtrl_key (s : State) (v : Word) : (s.writeCtrl v).key = s.key := rfl
@[simp] theorem State.writeCtrl_din (s : State) (v : Word) : (s.writeCtrl v).din = s.din := rfl
@[simp] theorem State.writeCtrl_dout (s : State) (v : Word) : (s.writeCtrl v).dout = s.dout := rfl
@[simp] theorem State.writeCtrl_inLen (s : State) (v : Word) : (s.writeCtrl v).inLen = s.inLen := rfl
@[simp] theorem State.writeCtrl_outLen (s : State) (v : Word) : (s.writeCtrl v).outLen = s.outLen := rfl
@[simp] theorem State.writeCtrl_rk (s : State) (v : Word) : (s.writeCtrl v).rk = s.rk := rfl
@[simp] theorem State.writeCtrl_inBuf (s : State) (v : Word) : (s.writeCtrl v).inBuf = s.inBuf := rfl
@[simp] theorem State.writeCtrl_outBuf (s : State) (v : Word) : (s.writeCtrl v).outBuf = s.outBuf := rfl
@[simp] theorem State.writeCtrl_c (s : State) (v : Word) : (s.writeCtrl v).c = s.c := rfl
@[simp] theorem State.writeCtrl_d (s : State) (v : Word) : (s.writeCtrl v).d = s.d := rfl
@[simp] theorem State.writeCtrl_l (s : State) (v : Word) : (s.writeCtrl v).l = s.l := rfl
@[simp] theorem State.writeCtrl_r (s : State) (v : Word) : (s.writeCtrl v).r = s.r := rfl
@[simp] theorem State.writeCtrl_remain (s : State) (v : Word) : (s.writeCtrl v).remain = s.remain := rfl
@[simp] theorem State.writeCtrl_rnd (s : State) (v : Word) : (s.writeCtrl v).rnd = s.rnd := rfl
@[simp] theorem State.writeCtrl_blk (s : State) (v : Word) : (s.writeCtrl v).blk = s.blk := rfl
@[simp] theorem State.writeCtrl_host (s : State) (v : Word) : (s.writeCtrl v).host = s.host := rfl
@[simp] theorem State.writeCtrl_schedule (s : State) (v : Word) : (s.writeCtrl v).schedule = s.schedule := rfl
@[simp] theorem State.writeCtrl_draws (s : State) (v : Word) : (s.writeCtrl v).draws = s.draws := rfl

@[simp] theorem State.writeStatus_cfg (s : State) (v : Word) : (s.writeStatus v).cfg = s.cfg := rfl
@[simp] theorem State.writeStatus_ctrlIE (s : State) (v : Word) : (s.writeStatus v).ctrlIE = s.ctrlIE := rfl
@[simp] theorem State.writeStatus_busy (s : State) (v : Word) : (s.writeStatus v).status.busy = s.status.busy := rfl
@[simp] theorem State.writeStatus_done (s : State) (v : Word) : (s.writeStatus v).status.done = (s.status.done && !v.getLsbD 1) := rfl
@[simp] theorem State.writeStatus_ksv (s : State) (v : Word) : (s.writeStatus v).status.ksv = s.status.ksv := rfl
@[simp] theorem State.writeStatus_bwe (s : State) (v : Word) : (s.writeStatus v).status.bwe = (s.status.bwe && !v.getLsbD 3) := rfl
@[simp] theorem State.writeStatus_errCode (s : State) (v : Word) : (s.writeStatus v).status.errCode = s.status.errCode := rfl
@[simp] theorem State.writeStatus_cmd (s : State) (v : Word) : (s.writeStatus v).cmd = s.cmd := rfl
@[simp] theorem State.writeStatus_padOut (s : State) (v : Word) : (s.writeStatus v).padOut = s.padOut := rfl
@[simp] theorem State.writeStatus_key (s : State) (v : Word) : (s.writeStatus v).key = s.key := rfl
@[simp] theorem State.writeStatus_din (s : State) (v : Word) : (s.writeStatus v).din = s.din := rfl
@[simp] theorem State.writeStatus_dout (s : State) (v : Word) : (s.writeStatus v).dout = s.dout := rfl
@[simp] theorem State.writeStatus_inLen (s : State) (v : Word) : (s.writeStatus v).inLen = s.inLen := rfl
@[simp] theorem State.writeStatus_outLen (s : State) (v : Word) : (s.writeStatus v).outLen = s.outLen := rfl
@[simp] theorem State.writeStatus_rk (s : State) (v : Word) : (s.writeStatus v).rk = s.rk := rfl
@[simp] theorem State.writeStatus_inBuf (s : State) (v : Word) : (s.writeStatus v).inBuf = s.inBuf := rfl
@[simp] theorem State.writeStatus_outBuf (s : State) (v : Word) : (s.writeStatus v).outBuf = s.outBuf := rfl
@[simp] theorem State.writeStatus_c (s : State) (v : Word) : (s.writeStatus v).c = s.c := rfl
@[simp] theorem State.writeStatus_d (s : State) (v : Word) : (s.writeStatus v).d = s.d := rfl
@[simp] theorem State.writeStatus_l (s : State) (v : Word) : (s.writeStatus v).l = s.l := rfl
@[simp] theorem State.writeStatus_r (s : State) (v : Word) : (s.writeStatus v).r = s.r := rfl
@[simp] theorem State.writeStatus_remain (s : State) (v : Word) : (s.writeStatus v).remain = s.remain := rfl
@[simp] theorem State.writeStatus_rnd (s : State) (v : Word) : (s.writeStatus v).rnd = s.rnd := rfl
@[simp] theorem State.writeStatus_blk (s : State) (v : Word) : (s.writeStatus v).blk = s.blk := rfl
@[simp] theorem State.writeStatus_host (s : State) (v : Word) : (s.writeStatus v).host = s.host := rfl
@[simp] theorem State.writeStatus_schedule (s : State) (v : Word) : (s.writeStatus v).schedule = s.schedule := rfl
@[simp] theorem State.writeStatus_draws (s : State) (v : Word) : (s.writeStatus v).draws = s.draws := rfl

@[simp] theorem State.busyWrite_cfg (s : State) : (s.busyWrite).cfg = s.cfg := rfl
@[simp] theorem State.busyWrite_ctrlIE (s : State) : (s.busyWrite).ctrlIE = s.ctrlIE := rfl
@[simp] theorem State.busyWrite_busy (s : State) : (s.busyWrite).status.busy = s.status.busy := rfl
@[simp] theorem State.busyWrite_done (s : State) : (s.busyWrite).status.done = s.status.done := rfl
@[simp] theorem State.busyWrite_ksv (s : State) : (s.busyWrite).status.ksv = s.status.ksv := rfl
@[simp] theorem State.busyWrite_bwe (s : State) : (s.busyWrite).status.bwe = true := rfl
@[simp] theorem State.busyWrite_errCode (s : State) : (s.busyWrite).status.errCode = s.status.errCode := rfl
@[simp] theorem State.busyWrite_cmd (s : State) : (s.busyWrite).cmd = s.cmd := rfl
@[simp] theorem State.busyWrite_padOut (s : State) : (s.busyWrite).padOut = s.padOut := rfl
@[simp] theorem State.busyWrite_key (s : State) : (s.busyWrite).key = s.key := rfl
@[simp] theorem State.busyWrite_din (s : State) : (s.busyWrite).din = s.din := rfl
@[simp] theorem State.busyWrite_dout (s : State) : (s.busyWrite).dout = s.dout := rfl
@[simp] theorem State.busyWrite_inLen (s : State) : (s.busyWrite).inLen = s.inLen := rfl
@[simp] theorem State.busyWrite_outLen (s : State) : (s.busyWrite).outLen = s.outLen := rfl
@[simp] theorem State.busyWrite_rk (s : State) : (s.busyWrite).rk = s.rk := rfl
@[simp] theorem State.busyWrite_inBuf (s : State) : (s.busyWrite).inBuf = s.inBuf := rfl
@[simp] theorem State.busyWrite_outBuf (s : State) : (s.busyWrite).outBuf = s.outBuf := rfl
@[simp] theorem State.busyWrite_c (s : State) : (s.busyWrite).c = s.c := rfl
@[simp] theorem State.busyWrite_d (s : State) : (s.busyWrite).d = s.d := rfl
@[simp] theorem State.busyWrite_l (s : State) : (s.busyWrite).l = s.l := rfl
@[simp] theorem State.busyWrite_r (s : State) : (s.busyWrite).r = s.r := rfl
@[simp] theorem State.busyWrite_remain (s : State) : (s.busyWrite).remain = s.remain := rfl
@[simp] theorem State.busyWrite_rnd (s : State) : (s.busyWrite).rnd = s.rnd := rfl
@[simp] theorem State.busyWrite_blk (s : State) : (s.busyWrite).blk = s.blk := rfl
@[simp] theorem State.busyWrite_host (s : State) : (s.busyWrite).host = s.host := rfl
@[simp] theorem State.busyWrite_schedule (s : State) : (s.busyWrite).schedule = s.schedule := rfl
@[simp] theorem State.busyWrite_draws (s : State) : (s.busyWrite).draws = s.draws := rfl

@[simp] theorem State.accept_cfg (s : State) (w : Word) (n : Nat) : (s.accept w n).cfg = s.cfg := rfl
@[simp] theorem State.accept_ctrlIE (s : State) (w : Word) (n : Nat) : (s.accept w n).ctrlIE = s.ctrlIE := rfl
@[simp] theorem State.accept_busy (s : State) (w : Word) (n : Nat) : (s.accept w n).status.busy = true := rfl
@[simp] theorem State.accept_done (s : State) (w : Word) (n : Nat) : (s.accept w n).status.done = false := rfl
@[simp] theorem State.accept_ksv (s : State) (w : Word) (n : Nat) : (s.accept w n).status.ksv = s.status.ksv := rfl
@[simp] theorem State.accept_bwe (s : State) (w : Word) (n : Nat) : (s.accept w n).status.bwe = s.status.bwe := rfl
@[simp] theorem State.accept_errCode (s : State) (w : Word) (n : Nat) : (s.accept w n).status.errCode = .none := rfl
@[simp] theorem State.accept_cmd (s : State) (w : Word) (n : Nat) : (s.accept w n).cmd = w := rfl
@[simp] theorem State.accept_padOut (s : State) (w : Word) (n : Nat) : (s.accept w n).padOut = s.padOut := rfl
@[simp] theorem State.accept_key (s : State) (w : Word) (n : Nat) : (s.accept w n).key = s.key := rfl
@[simp] theorem State.accept_din (s : State) (w : Word) (n : Nat) : (s.accept w n).din = s.din := rfl
@[simp] theorem State.accept_dout (s : State) (w : Word) (n : Nat) : (s.accept w n).dout = s.dout := rfl
@[simp] theorem State.accept_inLen (s : State) (w : Word) (n : Nat) : (s.accept w n).inLen = s.inLen := rfl
@[simp] theorem State.accept_outLen (s : State) (w : Word) (n : Nat) : (s.accept w n).outLen = s.outLen := rfl
@[simp] theorem State.accept_rk (s : State) (w : Word) (n : Nat) : (s.accept w n).rk = s.rk := rfl
@[simp] theorem State.accept_inBuf (s : State) (w : Word) (n : Nat) : (s.accept w n).inBuf = s.inBuf := rfl
@[simp] theorem State.accept_outBuf (s : State) (w : Word) (n : Nat) : (s.accept w n).outBuf = s.outBuf := rfl
@[simp] theorem State.accept_c (s : State) (w : Word) (n : Nat) : (s.accept w n).c = s.c := rfl
@[simp] theorem State.accept_d (s : State) (w : Word) (n : Nat) : (s.accept w n).d = s.d := rfl
@[simp] theorem State.accept_l (s : State) (w : Word) (n : Nat) : (s.accept w n).l = s.l := rfl
@[simp] theorem State.accept_r (s : State) (w : Word) (n : Nat) : (s.accept w n).r = s.r := rfl
@[simp] theorem State.accept_remain (s : State) (w : Word) (n : Nat) : (s.accept w n).remain = n := rfl
@[simp] theorem State.accept_rnd (s : State) (w : Word) (n : Nat) : (s.accept w n).rnd = s.rnd := rfl
@[simp] theorem State.accept_blk (s : State) (w : Word) (n : Nat) : (s.accept w n).blk = s.blk := rfl
@[simp] theorem State.accept_host (s : State) (w : Word) (n : Nat) : (s.accept w n).host = s.host := rfl
@[simp] theorem State.accept_schedule (s : State) (w : Word) (n : Nat) : (s.accept w n).schedule = s.schedule := rfl
@[simp] theorem State.accept_draws (s : State) (w : Word) (n : Nat) : (s.accept w n).draws = s.draws := rfl

@[simp] theorem State.complete_cfg (s : State) (code : ErrCode) : (s.complete code).cfg = s.cfg := rfl
@[simp] theorem State.complete_ctrlIE (s : State) (code : ErrCode) : (s.complete code).ctrlIE = s.ctrlIE := rfl
@[simp] theorem State.complete_busy (s : State) (code : ErrCode) : (s.complete code).status.busy = false := rfl
@[simp] theorem State.complete_done (s : State) (code : ErrCode) : (s.complete code).status.done = true := rfl
@[simp] theorem State.complete_ksv (s : State) (code : ErrCode) : (s.complete code).status.ksv = s.status.ksv := rfl
@[simp] theorem State.complete_bwe (s : State) (code : ErrCode) : (s.complete code).status.bwe = s.status.bwe := rfl
@[simp] theorem State.complete_errCode (s : State) (code : ErrCode) : (s.complete code).status.errCode = code := rfl
@[simp] theorem State.complete_cmd (s : State) (code : ErrCode) : (s.complete code).cmd = s.cmd := rfl
@[simp] theorem State.complete_padOut (s : State) (code : ErrCode) : (s.complete code).padOut = s.padOut := rfl
@[simp] theorem State.complete_key (s : State) (code : ErrCode) : (s.complete code).key = s.key := rfl
@[simp] theorem State.complete_din (s : State) (code : ErrCode) : (s.complete code).din = s.din := rfl
@[simp] theorem State.complete_dout (s : State) (code : ErrCode) : (s.complete code).dout = s.dout := rfl
@[simp] theorem State.complete_inLen (s : State) (code : ErrCode) : (s.complete code).inLen = s.inLen := rfl
@[simp] theorem State.complete_outLen (s : State) (code : ErrCode) : (s.complete code).outLen = s.outLen := rfl
@[simp] theorem State.complete_rk (s : State) (code : ErrCode) : (s.complete code).rk = s.rk := rfl
@[simp] theorem State.complete_inBuf (s : State) (code : ErrCode) : (s.complete code).inBuf = s.inBuf := rfl
@[simp] theorem State.complete_outBuf (s : State) (code : ErrCode) : (s.complete code).outBuf = s.outBuf := rfl
@[simp] theorem State.complete_c (s : State) (code : ErrCode) : (s.complete code).c = s.c := rfl
@[simp] theorem State.complete_d (s : State) (code : ErrCode) : (s.complete code).d = s.d := rfl
@[simp] theorem State.complete_l (s : State) (code : ErrCode) : (s.complete code).l = s.l := rfl
@[simp] theorem State.complete_r (s : State) (code : ErrCode) : (s.complete code).r = s.r := rfl
@[simp] theorem State.complete_remain (s : State) (code : ErrCode) : (s.complete code).remain = 0 := rfl
@[simp] theorem State.complete_rnd (s : State) (code : ErrCode) : (s.complete code).rnd = s.rnd := rfl
@[simp] theorem State.complete_blk (s : State) (code : ErrCode) : (s.complete code).blk = s.blk := rfl
@[simp] theorem State.complete_host (s : State) (code : ErrCode) : (s.complete code).host = s.host := rfl
@[simp] theorem State.complete_schedule (s : State) (code : ErrCode) : (s.complete code).schedule = s.schedule := rfl
@[simp] theorem State.complete_draws (s : State) (code : ErrCode) : (s.complete code).draws = s.draws := rfl

@[simp] theorem State.deriveSchedule_cfg (s : State) : (s.deriveSchedule).cfg = s.cfg := rfl
@[simp] theorem State.deriveSchedule_ctrlIE (s : State) : (s.deriveSchedule).ctrlIE = s.ctrlIE := rfl
@[simp] theorem State.deriveSchedule_busy (s : State) : (s.deriveSchedule).status.busy = s.status.busy := rfl
@[simp] theorem State.deriveSchedule_done (s : State) : (s.deriveSchedule).status.done = s.status.done := rfl
@[simp] theorem State.deriveSchedule_ksv (s : State) : (s.deriveSchedule).status.ksv = true := rfl
@[simp] theorem State.deriveSchedule_bwe (s : State) : (s.deriveSchedule).status.bwe = s.status.bwe := rfl
@[simp] theorem State.deriveSchedule_errCode (s : State) : (s.deriveSchedule).status.errCode = s.status.errCode := rfl
@[simp] theorem State.deriveSchedule_cmd (s : State) : (s.deriveSchedule).cmd = s.cmd := rfl
@[simp] theorem State.deriveSchedule_padOut (s : State) : (s.deriveSchedule).padOut = s.padOut := rfl
@[simp] theorem State.deriveSchedule_key (s : State) : (s.deriveSchedule).key = s.key := rfl
@[simp] theorem State.deriveSchedule_din (s : State) : (s.deriveSchedule).din = s.din := rfl
@[simp] theorem State.deriveSchedule_dout (s : State) : (s.deriveSchedule).dout = s.dout := rfl
@[simp] theorem State.deriveSchedule_inLen (s : State) : (s.deriveSchedule).inLen = s.inLen := rfl
@[simp] theorem State.deriveSchedule_outLen (s : State) : (s.deriveSchedule).outLen = s.outLen := rfl
@[simp] theorem State.deriveSchedule_rk (s : State) : (s.deriveSchedule).rk = roundKeys s.cfg.tables s.key := rfl
@[simp] theorem State.deriveSchedule_inBuf (s : State) : (s.deriveSchedule).inBuf = s.inBuf := rfl
@[simp] theorem State.deriveSchedule_outBuf (s : State) : (s.deriveSchedule).outBuf = s.outBuf := rfl
@[simp] theorem State.deriveSchedule_c (s : State) : (s.deriveSchedule).c = (finalKeyHalves s.cfg.tables s.key).c := rfl
@[simp] theorem State.deriveSchedule_d (s : State) : (s.deriveSchedule).d = (finalKeyHalves s.cfg.tables s.key).d := rfl
@[simp] theorem State.deriveSchedule_l (s : State) : (s.deriveSchedule).l = s.l := rfl
@[simp] theorem State.deriveSchedule_r (s : State) : (s.deriveSchedule).r = s.r := rfl
@[simp] theorem State.deriveSchedule_remain (s : State) : (s.deriveSchedule).remain = s.remain := rfl
@[simp] theorem State.deriveSchedule_rnd (s : State) : (s.deriveSchedule).rnd = s.rnd := rfl
@[simp] theorem State.deriveSchedule_blk (s : State) : (s.deriveSchedule).blk = s.blk := rfl
@[simp] theorem State.deriveSchedule_host (s : State) : (s.deriveSchedule).host = s.host := rfl
@[simp] theorem State.deriveSchedule_schedule (s : State) : (s.deriveSchedule).schedule = s.schedule := rfl
@[simp] theorem State.deriveSchedule_draws (s : State) : (s.deriveSchedule).draws = s.draws := rfl

@[simp] theorem State.discard_cfg (s : State) : (s.discard).cfg = s.cfg := rfl
@[simp] theorem State.discard_ctrlIE (s : State) : (s.discard).ctrlIE = s.ctrlIE := rfl
@[simp] theorem State.discard_busy (s : State) : (s.discard).status.busy = s.status.busy := rfl
@[simp] theorem State.discard_done (s : State) : (s.discard).status.done = s.status.done := rfl
@[simp] theorem State.discard_ksv (s : State) : (s.discard).status.ksv = false := rfl
@[simp] theorem State.discard_bwe (s : State) : (s.discard).status.bwe = s.status.bwe := rfl
@[simp] theorem State.discard_errCode (s : State) : (s.discard).status.errCode = s.status.errCode := rfl
@[simp] theorem State.discard_cmd (s : State) : (s.discard).cmd = s.cmd := rfl
@[simp] theorem State.discard_padOut (s : State) : (s.discard).padOut = s.padOut := rfl
@[simp] theorem State.discard_key (s : State) : (s.discard).key = s.key := rfl
@[simp] theorem State.discard_din (s : State) : (s.discard).din = s.din := rfl
@[simp] theorem State.discard_dout (s : State) : (s.discard).dout = s.dout := rfl
@[simp] theorem State.discard_inLen (s : State) : (s.discard).inLen = s.inLen := rfl
@[simp] theorem State.discard_outLen (s : State) : (s.discard).outLen = s.outLen := rfl
@[simp] theorem State.discard_rk (s : State) : (s.discard).rk = Vector.replicate 16 0#48 := rfl
@[simp] theorem State.discard_inBuf (s : State) : (s.discard).inBuf = s.inBuf := rfl
@[simp] theorem State.discard_outBuf (s : State) : (s.discard).outBuf = s.outBuf := rfl
@[simp] theorem State.discard_c (s : State) : (s.discard).c = 0#28 := rfl
@[simp] theorem State.discard_d (s : State) : (s.discard).d = 0#28 := rfl
@[simp] theorem State.discard_l (s : State) : (s.discard).l = 0#32 := rfl
@[simp] theorem State.discard_r (s : State) : (s.discard).r = 0#32 := rfl
@[simp] theorem State.discard_remain (s : State) : (s.discard).remain = s.remain := rfl
@[simp] theorem State.discard_rnd (s : State) : (s.discard).rnd = s.rnd := rfl
@[simp] theorem State.discard_blk (s : State) : (s.discard).blk = s.blk := rfl
@[simp] theorem State.discard_host (s : State) : (s.discard).host = s.host := rfl
@[simp] theorem State.discard_schedule (s : State) : (s.discard).schedule = s.schedule := rfl
@[simp] theorem State.discard_draws (s : State) : (s.discard).draws = s.draws := rfl

@[simp] theorem State.storeResult_cfg (s : State) (y : Block) (l r : Half) : (s.storeResult y l r).cfg = s.cfg := rfl
@[simp] theorem State.storeResult_ctrlIE (s : State) (y : Block) (l r : Half) : (s.storeResult y l r).ctrlIE = s.ctrlIE := rfl
@[simp] theorem State.storeResult_status (s : State) (y : Block) (l r : Half) : (s.storeResult y l r).status = s.status := rfl
@[simp] theorem State.storeResult_cmd (s : State) (y : Block) (l r : Half) : (s.storeResult y l r).cmd = s.cmd := rfl
@[simp] theorem State.storeResult_padOut (s : State) (y : Block) (l r : Half) : (s.storeResult y l r).padOut = s.padOut := rfl
@[simp] theorem State.storeResult_key (s : State) (y : Block) (l r : Half) : (s.storeResult y l r).key = s.key := rfl
@[simp] theorem State.storeResult_din (s : State) (y : Block) (l r : Half) : (s.storeResult y l r).din = s.din := rfl
@[simp] theorem State.storeResult_dout (s : State) (y : Block) (l r : Half) : (s.storeResult y l r).dout = y := rfl
@[simp] theorem State.storeResult_inLen (s : State) (y : Block) (l r : Half) : (s.storeResult y l r).inLen = s.inLen := rfl
@[simp] theorem State.storeResult_outLen (s : State) (y : Block) (l r : Half) : (s.storeResult y l r).outLen = s.outLen := rfl
@[simp] theorem State.storeResult_rk (s : State) (y : Block) (l r : Half) : (s.storeResult y l r).rk = s.rk := rfl
@[simp] theorem State.storeResult_inBuf (s : State) (y : Block) (l r : Half) : (s.storeResult y l r).inBuf = s.inBuf := rfl
@[simp] theorem State.storeResult_outBuf (s : State) (y : Block) (l r : Half) : (s.storeResult y l r).outBuf = s.outBuf := rfl
@[simp] theorem State.storeResult_c (s : State) (y : Block) (l r : Half) : (s.storeResult y l r).c = s.c := rfl
@[simp] theorem State.storeResult_d (s : State) (y : Block) (l r : Half) : (s.storeResult y l r).d = s.d := rfl
@[simp] theorem State.storeResult_l (s : State) (y : Block) (l r : Half) : (s.storeResult y l r).l = l := rfl
@[simp] theorem State.storeResult_r (s : State) (y : Block) (l r : Half) : (s.storeResult y l r).r = r := rfl
@[simp] theorem State.storeResult_remain (s : State) (y : Block) (l r : Half) : (s.storeResult y l r).remain = s.remain := rfl
@[simp] theorem State.storeResult_rnd (s : State) (y : Block) (l r : Half) : (s.storeResult y l r).rnd = s.rnd := rfl
@[simp] theorem State.storeResult_blk (s : State) (y : Block) (l r : Half) : (s.storeResult y l r).blk = s.blk := rfl
@[simp] theorem State.storeResult_host (s : State) (y : Block) (l r : Half) : (s.storeResult y l r).host = s.host := rfl
@[simp] theorem State.storeResult_schedule (s : State) (y : Block) (l r : Half) : (s.storeResult y l r).schedule = s.schedule := rfl
@[simp] theorem State.storeResult_draws (s : State) (y : Block) (l r : Half) : (s.storeResult y l r).draws = s.draws := rfl

@[simp] theorem State.setResult_cfg (s : State) (n p : Nat) : (s.setResult n p).cfg = s.cfg := rfl
@[simp] theorem State.setResult_ctrlIE (s : State) (n p : Nat) : (s.setResult n p).ctrlIE = s.ctrlIE := rfl
@[simp] theorem State.setResult_status (s : State) (n p : Nat) : (s.setResult n p).status = s.status := rfl
@[simp] theorem State.setResult_cmd (s : State) (n p : Nat) : (s.setResult n p).cmd = s.cmd := rfl
@[simp] theorem State.setResult_padOut (s : State) (n p : Nat) : (s.setResult n p).padOut = BitVec.ofNat 3 p := rfl
@[simp] theorem State.setResult_key (s : State) (n p : Nat) : (s.setResult n p).key = s.key := rfl
@[simp] theorem State.setResult_din (s : State) (n p : Nat) : (s.setResult n p).din = s.din := rfl
@[simp] theorem State.setResult_dout (s : State) (n p : Nat) : (s.setResult n p).dout = s.dout := rfl
@[simp] theorem State.setResult_inLen (s : State) (n p : Nat) : (s.setResult n p).inLen = s.inLen := rfl
@[simp] theorem State.setResult_outLen (s : State) (n p : Nat) : (s.setResult n p).outLen = BitVec.ofNat 32 n := rfl
@[simp] theorem State.setResult_rk (s : State) (n p : Nat) : (s.setResult n p).rk = s.rk := rfl
@[simp] theorem State.setResult_inBuf (s : State) (n p : Nat) : (s.setResult n p).inBuf = s.inBuf := rfl
@[simp] theorem State.setResult_outBuf (s : State) (n p : Nat) : (s.setResult n p).outBuf = s.outBuf := rfl
@[simp] theorem State.setResult_c (s : State) (n p : Nat) : (s.setResult n p).c = s.c := rfl
@[simp] theorem State.setResult_d (s : State) (n p : Nat) : (s.setResult n p).d = s.d := rfl
@[simp] theorem State.setResult_l (s : State) (n p : Nat) : (s.setResult n p).l = s.l := rfl
@[simp] theorem State.setResult_r (s : State) (n p : Nat) : (s.setResult n p).r = s.r := rfl
@[simp] theorem State.setResult_remain (s : State) (n p : Nat) : (s.setResult n p).remain = s.remain := rfl
@[simp] theorem State.setResult_rnd (s : State) (n p : Nat) : (s.setResult n p).rnd = s.rnd := rfl
@[simp] theorem State.setResult_blk (s : State) (n p : Nat) : (s.setResult n p).blk = s.blk := rfl
@[simp] theorem State.setResult_host (s : State) (n p : Nat) : (s.setResult n p).host = s.host := rfl
@[simp] theorem State.setResult_schedule (s : State) (n p : Nat) : (s.setResult n p).schedule = s.schedule := rfl
@[simp] theorem State.setResult_draws (s : State) (n p : Nat) : (s.setResult n p).draws = s.draws := rfl

@[simp] theorem State.storeMessage_cfg (s : State) (bytes : List Byte) : (s.storeMessage bytes).cfg = s.cfg := rfl
@[simp] theorem State.storeMessage_ctrlIE (s : State) (bytes : List Byte) : (s.storeMessage bytes).ctrlIE = s.ctrlIE := rfl
@[simp] theorem State.storeMessage_status (s : State) (bytes : List Byte) : (s.storeMessage bytes).status = s.status := rfl
@[simp] theorem State.storeMessage_cmd (s : State) (bytes : List Byte) : (s.storeMessage bytes).cmd = s.cmd := rfl
@[simp] theorem State.storeMessage_padOut (s : State) (bytes : List Byte) : (s.storeMessage bytes).padOut = s.padOut := rfl
@[simp] theorem State.storeMessage_key (s : State) (bytes : List Byte) : (s.storeMessage bytes).key = s.key := rfl
@[simp] theorem State.storeMessage_din (s : State) (bytes : List Byte) : (s.storeMessage bytes).din = s.din := rfl
@[simp] theorem State.storeMessage_dout (s : State) (bytes : List Byte) : (s.storeMessage bytes).dout = s.dout := rfl
@[simp] theorem State.storeMessage_inLen (s : State) (bytes : List Byte) : (s.storeMessage bytes).inLen = s.inLen := rfl
@[simp] theorem State.storeMessage_outLen (s : State) (bytes : List Byte) : (s.storeMessage bytes).outLen = s.outLen := rfl
@[simp] theorem State.storeMessage_rk (s : State) (bytes : List Byte) : (s.storeMessage bytes).rk = s.rk := rfl
@[simp] theorem State.storeMessage_inBuf (s : State) (bytes : List Byte) : (s.storeMessage bytes).inBuf = s.inBuf := rfl
@[simp] theorem State.storeMessage_outBuf (s : State) (bytes : List Byte) : (s.storeMessage bytes).outBuf = writeBytes s.outBuf 0 bytes := rfl
@[simp] theorem State.storeMessage_c (s : State) (bytes : List Byte) : (s.storeMessage bytes).c = s.c := rfl
@[simp] theorem State.storeMessage_d (s : State) (bytes : List Byte) : (s.storeMessage bytes).d = s.d := rfl
@[simp] theorem State.storeMessage_l (s : State) (bytes : List Byte) : (s.storeMessage bytes).l = s.l := rfl
@[simp] theorem State.storeMessage_r (s : State) (bytes : List Byte) : (s.storeMessage bytes).r = s.r := rfl
@[simp] theorem State.storeMessage_remain (s : State) (bytes : List Byte) : (s.storeMessage bytes).remain = s.remain := rfl
@[simp] theorem State.storeMessage_rnd (s : State) (bytes : List Byte) : (s.storeMessage bytes).rnd = s.rnd := rfl
@[simp] theorem State.storeMessage_blk (s : State) (bytes : List Byte) : (s.storeMessage bytes).blk = s.blk := rfl
@[simp] theorem State.storeMessage_host (s : State) (bytes : List Byte) : (s.storeMessage bytes).host = s.host := rfl
@[simp] theorem State.storeMessage_schedule (s : State) (bytes : List Byte) : (s.storeMessage bytes).schedule = s.schedule := rfl
@[simp] theorem State.storeMessage_draws (s : State) (bytes : List Byte) : (s.storeMessage bytes).draws = s.draws := rfl

@[simp] theorem State.failMessage_cfg (s : State) (code : ErrCode) : (s.failMessage code).cfg = s.cfg := rfl
@[simp] theorem State.failMessage_ctrlIE (s : State) (code : ErrCode) : (s.failMessage code).ctrlIE = s.ctrlIE := rfl
@[simp] theorem State.failMessage_busy (s : State) (code : ErrCode) : (s.failMessage code).status.busy = false := rfl
@[simp] theorem State.failMessage_done (s : State) (code : ErrCode) : (s.failMessage code).status.done = true := rfl
@[simp] theorem State.failMessage_ksv (s : State) (code : ErrCode) : (s.failMessage code).status.ksv = s.status.ksv := rfl
@[simp] theorem State.failMessage_bwe (s : State) (code : ErrCode) : (s.failMessage code).status.bwe = s.status.bwe := rfl
@[simp] theorem State.failMessage_errCode (s : State) (code : ErrCode) : (s.failMessage code).status.errCode = code := rfl
@[simp] theorem State.failMessage_cmd (s : State) (code : ErrCode) : (s.failMessage code).cmd = s.cmd := rfl
@[simp] theorem State.failMessage_padOut (s : State) (code : ErrCode) : (s.failMessage code).padOut = BitVec.ofNat 3 0 := rfl
@[simp] theorem State.failMessage_key (s : State) (code : ErrCode) : (s.failMessage code).key = s.key := rfl
@[simp] theorem State.failMessage_din (s : State) (code : ErrCode) : (s.failMessage code).din = s.din := rfl
@[simp] theorem State.failMessage_dout (s : State) (code : ErrCode) : (s.failMessage code).dout = s.dout := rfl
@[simp] theorem State.failMessage_inLen (s : State) (code : ErrCode) : (s.failMessage code).inLen = s.inLen := rfl
@[simp] theorem State.failMessage_outLen (s : State) (code : ErrCode) : (s.failMessage code).outLen = BitVec.ofNat 32 0 := rfl
@[simp] theorem State.failMessage_rk (s : State) (code : ErrCode) : (s.failMessage code).rk = s.rk := rfl
@[simp] theorem State.failMessage_inBuf (s : State) (code : ErrCode) : (s.failMessage code).inBuf = s.inBuf := rfl
@[simp] theorem State.failMessage_outBuf (s : State) (code : ErrCode) : (s.failMessage code).outBuf = s.outBuf := rfl
@[simp] theorem State.failMessage_c (s : State) (code : ErrCode) : (s.failMessage code).c = s.c := rfl
@[simp] theorem State.failMessage_d (s : State) (code : ErrCode) : (s.failMessage code).d = s.d := rfl
@[simp] theorem State.failMessage_l (s : State) (code : ErrCode) : (s.failMessage code).l = s.l := rfl
@[simp] theorem State.failMessage_r (s : State) (code : ErrCode) : (s.failMessage code).r = s.r := rfl
@[simp] theorem State.failMessage_remain (s : State) (code : ErrCode) : (s.failMessage code).remain = 0 := rfl
@[simp] theorem State.failMessage_rnd (s : State) (code : ErrCode) : (s.failMessage code).rnd = s.rnd := rfl
@[simp] theorem State.failMessage_blk (s : State) (code : ErrCode) : (s.failMessage code).blk = s.blk := rfl
@[simp] theorem State.failMessage_host (s : State) (code : ErrCode) : (s.failMessage code).host = s.host := rfl
@[simp] theorem State.failMessage_schedule (s : State) (code : ErrCode) : (s.failMessage code).schedule = s.schedule := rfl
@[simp] theorem State.failMessage_draws (s : State) (code : ErrCode) : (s.failMessage code).draws = s.draws := rfl

@[simp] theorem finishMessage_cfg (bytes : List Byte) (p : Nat) (s : State) : (finishMessage bytes p s).cfg = s.cfg := rfl
@[simp] theorem finishMessage_ctrlIE (bytes : List Byte) (p : Nat) (s : State) : (finishMessage bytes p s).ctrlIE = s.ctrlIE := rfl
@[simp] theorem finishMessage_busy (bytes : List Byte) (p : Nat) (s : State) : (finishMessage bytes p s).status.busy = false := rfl
@[simp] theorem finishMessage_done (bytes : List Byte) (p : Nat) (s : State) : (finishMessage bytes p s).status.done = true := rfl
@[simp] theorem finishMessage_ksv (bytes : List Byte) (p : Nat) (s : State) : (finishMessage bytes p s).status.ksv = false := rfl
@[simp] theorem finishMessage_bwe (bytes : List Byte) (p : Nat) (s : State) : (finishMessage bytes p s).status.bwe = s.status.bwe := rfl
@[simp] theorem finishMessage_errCode (bytes : List Byte) (p : Nat) (s : State) : (finishMessage bytes p s).status.errCode = .none := rfl
@[simp] theorem finishMessage_cmd (bytes : List Byte) (p : Nat) (s : State) : (finishMessage bytes p s).cmd = s.cmd := rfl
@[simp] theorem finishMessage_padOut (bytes : List Byte) (p : Nat) (s : State) : (finishMessage bytes p s).padOut = BitVec.ofNat 3 p := rfl
@[simp] theorem finishMessage_key (bytes : List Byte) (p : Nat) (s : State) : (finishMessage bytes p s).key = s.key := rfl
@[simp] theorem finishMessage_din (bytes : List Byte) (p : Nat) (s : State) : (finishMessage bytes p s).din = s.din := rfl
@[simp] theorem finishMessage_dout (bytes : List Byte) (p : Nat) (s : State) : (finishMessage bytes p s).dout = s.dout := rfl
@[simp] theorem finishMessage_inLen (bytes : List Byte) (p : Nat) (s : State) : (finishMessage bytes p s).inLen = s.inLen := rfl
@[simp] theorem finishMessage_outLen (bytes : List Byte) (p : Nat) (s : State) : (finishMessage bytes p s).outLen = BitVec.ofNat 32 bytes.length := rfl
@[simp] theorem finishMessage_rk (bytes : List Byte) (p : Nat) (s : State) : (finishMessage bytes p s).rk = Vector.replicate 16 0#48 := rfl
@[simp] theorem finishMessage_inBuf (bytes : List Byte) (p : Nat) (s : State) : (finishMessage bytes p s).inBuf = s.inBuf := rfl
@[simp] theorem finishMessage_outBuf (bytes : List Byte) (p : Nat) (s : State) : (finishMessage bytes p s).outBuf = writeBytes s.outBuf 0 bytes := rfl
@[simp] theorem finishMessage_c (bytes : List Byte) (p : Nat) (s : State) : (finishMessage bytes p s).c = 0#28 := rfl
@[simp] theorem finishMessage_d (bytes : List Byte) (p : Nat) (s : State) : (finishMessage bytes p s).d = 0#28 := rfl
@[simp] theorem finishMessage_l (bytes : List Byte) (p : Nat) (s : State) : (finishMessage bytes p s).l = 0#32 := rfl
@[simp] theorem finishMessage_r (bytes : List Byte) (p : Nat) (s : State) : (finishMessage bytes p s).r = 0#32 := rfl
@[simp] theorem finishMessage_remain (bytes : List Byte) (p : Nat) (s : State) : (finishMessage bytes p s).remain = 0 := rfl
@[simp] theorem finishMessage_rnd (bytes : List Byte) (p : Nat) (s : State) : (finishMessage bytes p s).rnd = s.rnd := rfl
@[simp] theorem finishMessage_blk (bytes : List Byte) (p : Nat) (s : State) : (finishMessage bytes p s).blk = s.blk := rfl
@[simp] theorem finishMessage_host (bytes : List Byte) (p : Nat) (s : State) : (finishMessage bytes p s).host = s.host := rfl
@[simp] theorem finishMessage_schedule (bytes : List Byte) (p : Nat) (s : State) : (finishMessage bytes p s).schedule = s.schedule := rfl
@[simp] theorem finishMessage_draws (bytes : List Byte) (p : Nat) (s : State) : (finishMessage bytes p s).draws = s.draws := rfl

@[simp] theorem State.resetBlock_cfg (s : State) : (s.resetBlock).cfg = s.cfg := rfl
@[simp] theorem State.resetBlock_ctrlIE (s : State) : (s.resetBlock).ctrlIE = false := rfl
@[simp] theorem State.resetBlock_status (s : State) : (s.resetBlock).status = Status.reset := rfl
@[simp] theorem State.resetBlock_cmd (s : State) : (s.resetBlock).cmd = 0x00000000#32 := rfl
@[simp] theorem State.resetBlock_padOut (s : State) : (s.resetBlock).padOut = 0#3 := rfl
@[simp] theorem State.resetBlock_key (s : State) : (s.resetBlock).key = 0#64 := rfl
@[simp] theorem State.resetBlock_din (s : State) : (s.resetBlock).din = 0#64 := rfl
@[simp] theorem State.resetBlock_dout (s : State) : (s.resetBlock).dout = 0#64 := rfl
@[simp] theorem State.resetBlock_inLen (s : State) : (s.resetBlock).inLen = 0#32 := rfl
@[simp] theorem State.resetBlock_outLen (s : State) : (s.resetBlock).outLen = 0#32 := rfl
@[simp] theorem State.resetBlock_rk (s : State) : (s.resetBlock).rk = Vector.replicate 16 0#48 := rfl
@[simp] theorem State.resetBlock_inBuf (s : State) : (s.resetBlock).inBuf = s.inBuf := rfl
@[simp] theorem State.resetBlock_outBuf (s : State) : (s.resetBlock).outBuf = s.outBuf := rfl
@[simp] theorem State.resetBlock_c (s : State) : (s.resetBlock).c = 0#28 := rfl
@[simp] theorem State.resetBlock_d (s : State) : (s.resetBlock).d = 0#28 := rfl
@[simp] theorem State.resetBlock_l (s : State) : (s.resetBlock).l = 0#32 := rfl
@[simp] theorem State.resetBlock_r (s : State) : (s.resetBlock).r = 0#32 := rfl
@[simp] theorem State.resetBlock_remain (s : State) : (s.resetBlock).remain = 0 := rfl
@[simp] theorem State.resetBlock_rnd (s : State) : (s.resetBlock).rnd = 0 := rfl
@[simp] theorem State.resetBlock_blk (s : State) : (s.resetBlock).blk = 0 := rfl
@[simp] theorem State.resetBlock_host (s : State) : (s.resetBlock).host = s.host := rfl
@[simp] theorem State.resetBlock_schedule (s : State) : (s.resetBlock).schedule = s.schedule := rfl
@[simp] theorem State.resetBlock_draws (s : State) : (s.resetBlock).draws = s.draws := rfl

@[simp] theorem State.writeInWord_cfg (s : State) (a : Nat) (v : Word) : (s.writeInWord a v).cfg = s.cfg := rfl
@[simp] theorem State.writeInWord_ctrlIE (s : State) (a : Nat) (v : Word) : (s.writeInWord a v).ctrlIE = s.ctrlIE := rfl
@[simp] theorem State.writeInWord_status (s : State) (a : Nat) (v : Word) : (s.writeInWord a v).status = s.status := rfl
@[simp] theorem State.writeInWord_cmd (s : State) (a : Nat) (v : Word) : (s.writeInWord a v).cmd = s.cmd := rfl
@[simp] theorem State.writeInWord_padOut (s : State) (a : Nat) (v : Word) : (s.writeInWord a v).padOut = s.padOut := rfl
@[simp] theorem State.writeInWord_key (s : State) (a : Nat) (v : Word) : (s.writeInWord a v).key = s.key := rfl
@[simp] theorem State.writeInWord_din (s : State) (a : Nat) (v : Word) : (s.writeInWord a v).din = s.din := rfl
@[simp] theorem State.writeInWord_dout (s : State) (a : Nat) (v : Word) : (s.writeInWord a v).dout = s.dout := rfl
@[simp] theorem State.writeInWord_inLen (s : State) (a : Nat) (v : Word) : (s.writeInWord a v).inLen = s.inLen := rfl
@[simp] theorem State.writeInWord_outLen (s : State) (a : Nat) (v : Word) : (s.writeInWord a v).outLen = s.outLen := rfl
@[simp] theorem State.writeInWord_rk (s : State) (a : Nat) (v : Word) : (s.writeInWord a v).rk = s.rk := rfl
@[simp] theorem State.writeInWord_inBuf (s : State) (a : Nat) (v : Word) : (s.writeInWord a v).inBuf = writeBytes s.inBuf a (wordBytes v) := rfl
@[simp] theorem State.writeInWord_outBuf (s : State) (a : Nat) (v : Word) : (s.writeInWord a v).outBuf = s.outBuf := rfl
@[simp] theorem State.writeInWord_c (s : State) (a : Nat) (v : Word) : (s.writeInWord a v).c = s.c := rfl
@[simp] theorem State.writeInWord_d (s : State) (a : Nat) (v : Word) : (s.writeInWord a v).d = s.d := rfl
@[simp] theorem State.writeInWord_l (s : State) (a : Nat) (v : Word) : (s.writeInWord a v).l = s.l := rfl
@[simp] theorem State.writeInWord_r (s : State) (a : Nat) (v : Word) : (s.writeInWord a v).r = s.r := rfl
@[simp] theorem State.writeInWord_remain (s : State) (a : Nat) (v : Word) : (s.writeInWord a v).remain = s.remain := rfl
@[simp] theorem State.writeInWord_rnd (s : State) (a : Nat) (v : Word) : (s.writeInWord a v).rnd = s.rnd := rfl
@[simp] theorem State.writeInWord_blk (s : State) (a : Nat) (v : Word) : (s.writeInWord a v).blk = s.blk := rfl
@[simp] theorem State.writeInWord_host (s : State) (a : Nat) (v : Word) : (s.writeInWord a v).host = s.host := rfl
@[simp] theorem State.writeInWord_schedule (s : State) (a : Nat) (v : Word) : (s.writeInWord a v).schedule = s.schedule := rfl
@[simp] theorem State.writeInWord_draws (s : State) (a : Nat) (v : Word) : (s.writeInWord a v).draws = s.draws := rfl

@[simp] theorem issue_cfg (w : Word) (s : State) : (issue w s).cfg = s.cfg := rfl
@[simp] theorem issue_ctrlIE (w : Word) (s : State) : (issue w s).ctrlIE = s.ctrlIE := rfl
@[simp] theorem issue_busy (w : Word) (s : State) : (issue w s).status.busy = true := rfl
@[simp] theorem issue_done (w : Word) (s : State) : (issue w s).status.done = false := rfl
@[simp] theorem issue_ksv (w : Word) (s : State) : (issue w s).status.ksv = s.status.ksv := rfl
@[simp] theorem issue_bwe (w : Word) (s : State) : (issue w s).status.bwe = s.status.bwe := rfl
@[simp] theorem issue_errCode (w : Word) (s : State) : (issue w s).status.errCode = .none := rfl
@[simp] theorem issue_cmd (w : Word) (s : State) : (issue w s).cmd = w := rfl
@[simp] theorem issue_padOut (w : Word) (s : State) : (issue w s).padOut = s.padOut := rfl
@[simp] theorem issue_key (w : Word) (s : State) : (issue w s).key = s.key := rfl
@[simp] theorem issue_din (w : Word) (s : State) : (issue w s).din = s.din := rfl
@[simp] theorem issue_dout (w : Word) (s : State) : (issue w s).dout = s.dout := rfl
@[simp] theorem issue_inLen (w : Word) (s : State) : (issue w s).inLen = s.inLen := rfl
@[simp] theorem issue_outLen (w : Word) (s : State) : (issue w s).outLen = s.outLen := rfl
@[simp] theorem issue_rk (w : Word) (s : State) : (issue w s).rk = s.rk := rfl
@[simp] theorem issue_inBuf (w : Word) (s : State) : (issue w s).inBuf = s.inBuf := rfl
@[simp] theorem issue_outBuf (w : Word) (s : State) : (issue w s).outBuf = s.outBuf := rfl
@[simp] theorem issue_c (w : Word) (s : State) : (issue w s).c = s.c := rfl
@[simp] theorem issue_d (w : Word) (s : State) : (issue w s).d = s.d := rfl
@[simp] theorem issue_l (w : Word) (s : State) : (issue w s).l = s.l := rfl
@[simp] theorem issue_r (w : Word) (s : State) : (issue w s).r = s.r := rfl
@[simp] theorem issue_remain (w : Word) (s : State) : (issue w s).remain = latency w s := rfl
@[simp] theorem issue_rnd (w : Word) (s : State) : (issue w s).rnd = s.rnd := rfl
@[simp] theorem issue_blk (w : Word) (s : State) : (issue w s).blk = s.blk := rfl
@[simp] theorem issue_host (w : Word) (s : State) : (issue w s).host = s.host := rfl
@[simp] theorem issue_schedule (w : Word) (s : State) : (issue w s).schedule = s.schedule := rfl
@[simp] theorem issue_draws (w : Word) (s : State) : (issue w s).draws = s.draws := rfl

@[simp] theorem microLoadKey_cfg (s : State) : (microLoadKey s).cfg = s.cfg := rfl
@[simp] theorem microLoadKey_ctrlIE (s : State) : (microLoadKey s).ctrlIE = s.ctrlIE := rfl
@[simp] theorem microLoadKey_status (s : State) : (microLoadKey s).status = s.status := rfl
@[simp] theorem microLoadKey_cmd (s : State) : (microLoadKey s).cmd = s.cmd := rfl
@[simp] theorem microLoadKey_padOut (s : State) : (microLoadKey s).padOut = s.padOut := rfl
@[simp] theorem microLoadKey_key (s : State) : (microLoadKey s).key = s.key := rfl
@[simp] theorem microLoadKey_din (s : State) : (microLoadKey s).din = s.din := rfl
@[simp] theorem microLoadKey_dout (s : State) : (microLoadKey s).dout = s.dout := rfl
@[simp] theorem microLoadKey_inLen (s : State) : (microLoadKey s).inLen = s.inLen := rfl
@[simp] theorem microLoadKey_outLen (s : State) : (microLoadKey s).outLen = s.outLen := rfl
@[simp] theorem microLoadKey_rk (s : State) : (microLoadKey s).rk = s.rk := rfl
@[simp] theorem microLoadKey_inBuf (s : State) : (microLoadKey s).inBuf = s.inBuf := rfl
@[simp] theorem microLoadKey_outBuf (s : State) : (microLoadKey s).outBuf = s.outBuf := rfl
@[simp] theorem microLoadKey_c (s : State) : (microLoadKey s).c = (loadKey s.cfg.tables s.key).c := rfl
@[simp] theorem microLoadKey_d (s : State) : (microLoadKey s).d = (loadKey s.cfg.tables s.key).d := rfl
@[simp] theorem microLoadKey_l (s : State) : (microLoadKey s).l = s.l := rfl
@[simp] theorem microLoadKey_r (s : State) : (microLoadKey s).r = s.r := rfl
@[simp] theorem microLoadKey_remain (s : State) : (microLoadKey s).remain = s.remain := rfl
@[simp] theorem microLoadKey_rnd (s : State) : (microLoadKey s).rnd = 1 := rfl
@[simp] theorem microLoadKey_blk (s : State) : (microLoadKey s).blk = s.blk := rfl
@[simp] theorem microLoadKey_host (s : State) : (microLoadKey s).host = s.host := rfl
@[simp] theorem microLoadKey_schedule (s : State) : (microLoadKey s).schedule = s.schedule := rfl
@[simp] theorem microLoadKey_draws (s : State) : (microLoadKey s).draws = s.draws := rfl

@[simp] theorem microKeyStep_cfg (i : Nat) (s : State) : (microKeyStep i s).cfg = s.cfg := rfl
@[simp] theorem microKeyStep_ctrlIE (i : Nat) (s : State) : (microKeyStep i s).ctrlIE = s.ctrlIE := rfl
@[simp] theorem microKeyStep_status (i : Nat) (s : State) : (microKeyStep i s).status = s.status := rfl
@[simp] theorem microKeyStep_cmd (i : Nat) (s : State) : (microKeyStep i s).cmd = s.cmd := rfl
@[simp] theorem microKeyStep_padOut (i : Nat) (s : State) : (microKeyStep i s).padOut = s.padOut := rfl
@[simp] theorem microKeyStep_key (i : Nat) (s : State) : (microKeyStep i s).key = s.key := rfl
@[simp] theorem microKeyStep_din (i : Nat) (s : State) : (microKeyStep i s).din = s.din := rfl
@[simp] theorem microKeyStep_dout (i : Nat) (s : State) : (microKeyStep i s).dout = s.dout := rfl
@[simp] theorem microKeyStep_inLen (i : Nat) (s : State) : (microKeyStep i s).inLen = s.inLen := rfl
@[simp] theorem microKeyStep_outLen (i : Nat) (s : State) : (microKeyStep i s).outLen = s.outLen := rfl
@[simp] theorem microKeyStep_rk (i : Nat) (s : State) : (microKeyStep i s).rk = s.rk := rfl
@[simp] theorem microKeyStep_inBuf (i : Nat) (s : State) : (microKeyStep i s).inBuf = s.inBuf := rfl
@[simp] theorem microKeyStep_outBuf (i : Nat) (s : State) : (microKeyStep i s).outBuf = s.outBuf := rfl
@[simp] theorem microKeyStep_c (i : Nat) (s : State) : (microKeyStep i s).c = (rotateHalves s.cfg.tables i (KeyHalves.mk s.c s.d)).c := rfl
@[simp] theorem microKeyStep_d (i : Nat) (s : State) : (microKeyStep i s).d = (rotateHalves s.cfg.tables i (KeyHalves.mk s.c s.d)).d := rfl
@[simp] theorem microKeyStep_l (i : Nat) (s : State) : (microKeyStep i s).l = s.l := rfl
@[simp] theorem microKeyStep_r (i : Nat) (s : State) : (microKeyStep i s).r = s.r := rfl
@[simp] theorem microKeyStep_remain (i : Nat) (s : State) : (microKeyStep i s).remain = s.remain := rfl
@[simp] theorem microKeyStep_rnd (i : Nat) (s : State) : (microKeyStep i s).rnd = (i + 1) % 17 := rfl
@[simp] theorem microKeyStep_blk (i : Nat) (s : State) : (microKeyStep i s).blk = s.blk := rfl
@[simp] theorem microKeyStep_host (i : Nat) (s : State) : (microKeyStep i s).host = s.host := rfl
@[simp] theorem microKeyStep_schedule (i : Nat) (s : State) : (microKeyStep i s).schedule = s.schedule := rfl
@[simp] theorem microKeyStep_draws (i : Nat) (s : State) : (microKeyStep i s).draws = s.draws := rfl

@[simp] theorem microLoadBlock_cfg (x : Block) (s : State) : (microLoadBlock x s).cfg = s.cfg := rfl
@[simp] theorem microLoadBlock_ctrlIE (x : Block) (s : State) : (microLoadBlock x s).ctrlIE = s.ctrlIE := rfl
@[simp] theorem microLoadBlock_status (x : Block) (s : State) : (microLoadBlock x s).status = s.status := rfl
@[simp] theorem microLoadBlock_cmd (x : Block) (s : State) : (microLoadBlock x s).cmd = s.cmd := rfl
@[simp] theorem microLoadBlock_padOut (x : Block) (s : State) : (microLoadBlock x s).padOut = s.padOut := rfl
@[simp] theorem microLoadBlock_key (x : Block) (s : State) : (microLoadBlock x s).key = s.key := rfl
@[simp] theorem microLoadBlock_din (x : Block) (s : State) : (microLoadBlock x s).din = s.din := rfl
@[simp] theorem microLoadBlock_dout (x : Block) (s : State) : (microLoadBlock x s).dout = s.dout := rfl
@[simp] theorem microLoadBlock_inLen (x : Block) (s : State) : (microLoadBlock x s).inLen = s.inLen := rfl
@[simp] theorem microLoadBlock_outLen (x : Block) (s : State) : (microLoadBlock x s).outLen = s.outLen := rfl
@[simp] theorem microLoadBlock_rk (x : Block) (s : State) : (microLoadBlock x s).rk = s.rk := rfl
@[simp] theorem microLoadBlock_inBuf (x : Block) (s : State) : (microLoadBlock x s).inBuf = s.inBuf := rfl
@[simp] theorem microLoadBlock_outBuf (x : Block) (s : State) : (microLoadBlock x s).outBuf = s.outBuf := rfl
@[simp] theorem microLoadBlock_c (x : Block) (s : State) : (microLoadBlock x s).c = s.c := rfl
@[simp] theorem microLoadBlock_d (x : Block) (s : State) : (microLoadBlock x s).d = s.d := rfl
@[simp] theorem microLoadBlock_l (x : Block) (s : State) : (microLoadBlock x s).l = (loadBlock s.cfg.tables x).l := rfl
@[simp] theorem microLoadBlock_r (x : Block) (s : State) : (microLoadBlock x s).r = (loadBlock s.cfg.tables x).r := rfl
@[simp] theorem microLoadBlock_remain (x : Block) (s : State) : (microLoadBlock x s).remain = s.remain := rfl
@[simp] theorem microLoadBlock_rnd (x : Block) (s : State) : (microLoadBlock x s).rnd = 1 := rfl
@[simp] theorem microLoadBlock_blk (x : Block) (s : State) : (microLoadBlock x s).blk = s.blk := rfl
@[simp] theorem microLoadBlock_host (x : Block) (s : State) : (microLoadBlock x s).host = s.host := rfl
@[simp] theorem microLoadBlock_schedule (x : Block) (s : State) : (microLoadBlock x s).schedule = s.schedule := rfl
@[simp] theorem microLoadBlock_draws (x : Block) (s : State) : (microLoadBlock x s).draws = s.draws := rfl

@[simp] theorem microRound_cfg (i : Nat) (k : Subkey) (s : State) : (microRound i k s).cfg = s.cfg := rfl
@[simp] theorem microRound_ctrlIE (i : Nat) (k : Subkey) (s : State) : (microRound i k s).ctrlIE = s.ctrlIE := rfl
@[simp] theorem microRound_status (i : Nat) (k : Subkey) (s : State) : (microRound i k s).status = s.status := rfl
@[simp] theorem microRound_cmd (i : Nat) (k : Subkey) (s : State) : (microRound i k s).cmd = s.cmd := rfl
@[simp] theorem microRound_padOut (i : Nat) (k : Subkey) (s : State) : (microRound i k s).padOut = s.padOut := rfl
@[simp] theorem microRound_key (i : Nat) (k : Subkey) (s : State) : (microRound i k s).key = s.key := rfl
@[simp] theorem microRound_din (i : Nat) (k : Subkey) (s : State) : (microRound i k s).din = s.din := rfl
@[simp] theorem microRound_dout (i : Nat) (k : Subkey) (s : State) : (microRound i k s).dout = s.dout := rfl
@[simp] theorem microRound_inLen (i : Nat) (k : Subkey) (s : State) : (microRound i k s).inLen = s.inLen := rfl
@[simp] theorem microRound_outLen (i : Nat) (k : Subkey) (s : State) : (microRound i k s).outLen = s.outLen := rfl
@[simp] theorem microRound_rk (i : Nat) (k : Subkey) (s : State) : (microRound i k s).rk = s.rk := rfl
@[simp] theorem microRound_inBuf (i : Nat) (k : Subkey) (s : State) : (microRound i k s).inBuf = s.inBuf := rfl
@[simp] theorem microRound_outBuf (i : Nat) (k : Subkey) (s : State) : (microRound i k s).outBuf = s.outBuf := rfl
@[simp] theorem microRound_c (i : Nat) (k : Subkey) (s : State) : (microRound i k s).c = s.c := rfl
@[simp] theorem microRound_d (i : Nat) (k : Subkey) (s : State) : (microRound i k s).d = s.d := rfl
@[simp] theorem microRound_l (i : Nat) (k : Subkey) (s : State) : (microRound i k s).l = (feistelRound s.cfg.tables (FeistelHalves.mk s.l s.r) k).l := rfl
@[simp] theorem microRound_r (i : Nat) (k : Subkey) (s : State) : (microRound i k s).r = (feistelRound s.cfg.tables (FeistelHalves.mk s.l s.r) k).r := rfl
@[simp] theorem microRound_remain (i : Nat) (k : Subkey) (s : State) : (microRound i k s).remain = s.remain := rfl
@[simp] theorem microRound_rnd (i : Nat) (k : Subkey) (s : State) : (microRound i k s).rnd = (i + 1) % 17 := rfl
@[simp] theorem microRound_blk (i : Nat) (k : Subkey) (s : State) : (microRound i k s).blk = s.blk := rfl
@[simp] theorem microRound_host (i : Nat) (k : Subkey) (s : State) : (microRound i k s).host = s.host := rfl
@[simp] theorem microRound_schedule (i : Nat) (k : Subkey) (s : State) : (microRound i k s).schedule = s.schedule := rfl
@[simp] theorem microRound_draws (i : Nat) (k : Subkey) (s : State) : (microRound i k s).draws = s.draws := rfl

@[simp] theorem State.atLine_cfg (s : State) (n : Nat) : (s.atLine n).cfg = s.cfg := rfl
@[simp] theorem State.atLine_ctrlIE (s : State) (n : Nat) : (s.atLine n).ctrlIE = s.ctrlIE := rfl
@[simp] theorem State.atLine_status (s : State) (n : Nat) : (s.atLine n).status = s.status := rfl
@[simp] theorem State.atLine_cmd (s : State) (n : Nat) : (s.atLine n).cmd = s.cmd := rfl
@[simp] theorem State.atLine_padOut (s : State) (n : Nat) : (s.atLine n).padOut = s.padOut := rfl
@[simp] theorem State.atLine_key (s : State) (n : Nat) : (s.atLine n).key = s.key := rfl
@[simp] theorem State.atLine_din (s : State) (n : Nat) : (s.atLine n).din = s.din := rfl
@[simp] theorem State.atLine_dout (s : State) (n : Nat) : (s.atLine n).dout = s.dout := rfl
@[simp] theorem State.atLine_inLen (s : State) (n : Nat) : (s.atLine n).inLen = s.inLen := rfl
@[simp] theorem State.atLine_outLen (s : State) (n : Nat) : (s.atLine n).outLen = s.outLen := rfl
@[simp] theorem State.atLine_rk (s : State) (n : Nat) : (s.atLine n).rk = s.rk := rfl
@[simp] theorem State.atLine_inBuf (s : State) (n : Nat) : (s.atLine n).inBuf = s.inBuf := rfl
@[simp] theorem State.atLine_outBuf (s : State) (n : Nat) : (s.atLine n).outBuf = s.outBuf := rfl
@[simp] theorem State.atLine_c (s : State) (n : Nat) : (s.atLine n).c = s.c := rfl
@[simp] theorem State.atLine_d (s : State) (n : Nat) : (s.atLine n).d = s.d := rfl
@[simp] theorem State.atLine_l (s : State) (n : Nat) : (s.atLine n).l = s.l := rfl
@[simp] theorem State.atLine_r (s : State) (n : Nat) : (s.atLine n).r = s.r := rfl
@[simp] theorem State.atLine_remain (s : State) (n : Nat) : (s.atLine n).remain = s.remain := rfl
@[simp] theorem State.atLine_rnd (s : State) (n : Nat) : (s.atLine n).rnd = s.rnd := rfl
@[simp] theorem State.atLine_blk (s : State) (n : Nat) : (s.atLine n).blk = s.blk := rfl
@[simp] theorem State.atLine_prog (s : State) (n : Nat) : (s.atLine n).host.prog = s.host.prog := rfl
@[simp] theorem State.atLine_line (s : State) (n : Nat) : (s.atLine n).host.line = n := rfl
@[simp] theorem State.atLine_names (s : State) (n : Nat) : (s.atLine n).host.names = s.host.names := rfl
@[simp] theorem State.atLine_response (s : State) (n : Nat) : (s.atLine n).host.response = s.host.response := rfl
@[simp] theorem State.atLine_schedule (s : State) (n : Nat) : (s.atLine n).schedule = s.schedule := rfl
@[simp] theorem State.atLine_draws (s : State) (n : Nat) : (s.atLine n).draws = s.draws := rfl

@[simp] theorem State.answered_cfg (s : State) (a : Response) : (s.answered a).cfg = s.cfg := rfl
@[simp] theorem State.answered_ctrlIE (s : State) (a : Response) : (s.answered a).ctrlIE = s.ctrlIE := rfl
@[simp] theorem State.answered_status (s : State) (a : Response) : (s.answered a).status = s.status := rfl
@[simp] theorem State.answered_cmd (s : State) (a : Response) : (s.answered a).cmd = s.cmd := rfl
@[simp] theorem State.answered_padOut (s : State) (a : Response) : (s.answered a).padOut = s.padOut := rfl
@[simp] theorem State.answered_key (s : State) (a : Response) : (s.answered a).key = s.key := rfl
@[simp] theorem State.answered_din (s : State) (a : Response) : (s.answered a).din = s.din := rfl
@[simp] theorem State.answered_dout (s : State) (a : Response) : (s.answered a).dout = s.dout := rfl
@[simp] theorem State.answered_inLen (s : State) (a : Response) : (s.answered a).inLen = s.inLen := rfl
@[simp] theorem State.answered_outLen (s : State) (a : Response) : (s.answered a).outLen = s.outLen := rfl
@[simp] theorem State.answered_rk (s : State) (a : Response) : (s.answered a).rk = s.rk := rfl
@[simp] theorem State.answered_inBuf (s : State) (a : Response) : (s.answered a).inBuf = s.inBuf := rfl
@[simp] theorem State.answered_outBuf (s : State) (a : Response) : (s.answered a).outBuf = s.outBuf := rfl
@[simp] theorem State.answered_c (s : State) (a : Response) : (s.answered a).c = s.c := rfl
@[simp] theorem State.answered_d (s : State) (a : Response) : (s.answered a).d = s.d := rfl
@[simp] theorem State.answered_l (s : State) (a : Response) : (s.answered a).l = s.l := rfl
@[simp] theorem State.answered_r (s : State) (a : Response) : (s.answered a).r = s.r := rfl
@[simp] theorem State.answered_remain (s : State) (a : Response) : (s.answered a).remain = s.remain := rfl
@[simp] theorem State.answered_rnd (s : State) (a : Response) : (s.answered a).rnd = s.rnd := rfl
@[simp] theorem State.answered_blk (s : State) (a : Response) : (s.answered a).blk = s.blk := rfl
@[simp] theorem State.answered_prog (s : State) (a : Response) : (s.answered a).host.prog = s.host.prog := rfl
@[simp] theorem State.answered_line (s : State) (a : Response) : (s.answered a).host.line = s.host.line + 1 := rfl
@[simp] theorem State.answered_names (s : State) (a : Response) : (s.answered a).host.names = s.host.names := rfl
@[simp] theorem State.answered_response (s : State) (a : Response) : (s.answered a).host.response = a := rfl
@[simp] theorem State.answered_schedule (s : State) (a : Response) : (s.answered a).schedule = s.schedule := rfl
@[simp] theorem State.answered_draws (s : State) (a : Response) : (s.answered a).draws = s.draws := rfl

@[simp] theorem State.bind_cfg (s : State) (n : Nat) (v : Word) : (s.bind n v).cfg = s.cfg := rfl
@[simp] theorem State.bind_ctrlIE (s : State) (n : Nat) (v : Word) : (s.bind n v).ctrlIE = s.ctrlIE := rfl
@[simp] theorem State.bind_status (s : State) (n : Nat) (v : Word) : (s.bind n v).status = s.status := rfl
@[simp] theorem State.bind_cmd (s : State) (n : Nat) (v : Word) : (s.bind n v).cmd = s.cmd := rfl
@[simp] theorem State.bind_padOut (s : State) (n : Nat) (v : Word) : (s.bind n v).padOut = s.padOut := rfl
@[simp] theorem State.bind_key (s : State) (n : Nat) (v : Word) : (s.bind n v).key = s.key := rfl
@[simp] theorem State.bind_din (s : State) (n : Nat) (v : Word) : (s.bind n v).din = s.din := rfl
@[simp] theorem State.bind_dout (s : State) (n : Nat) (v : Word) : (s.bind n v).dout = s.dout := rfl
@[simp] theorem State.bind_inLen (s : State) (n : Nat) (v : Word) : (s.bind n v).inLen = s.inLen := rfl
@[simp] theorem State.bind_outLen (s : State) (n : Nat) (v : Word) : (s.bind n v).outLen = s.outLen := rfl
@[simp] theorem State.bind_rk (s : State) (n : Nat) (v : Word) : (s.bind n v).rk = s.rk := rfl
@[simp] theorem State.bind_inBuf (s : State) (n : Nat) (v : Word) : (s.bind n v).inBuf = s.inBuf := rfl
@[simp] theorem State.bind_outBuf (s : State) (n : Nat) (v : Word) : (s.bind n v).outBuf = s.outBuf := rfl
@[simp] theorem State.bind_c (s : State) (n : Nat) (v : Word) : (s.bind n v).c = s.c := rfl
@[simp] theorem State.bind_d (s : State) (n : Nat) (v : Word) : (s.bind n v).d = s.d := rfl
@[simp] theorem State.bind_l (s : State) (n : Nat) (v : Word) : (s.bind n v).l = s.l := rfl
@[simp] theorem State.bind_r (s : State) (n : Nat) (v : Word) : (s.bind n v).r = s.r := rfl
@[simp] theorem State.bind_remain (s : State) (n : Nat) (v : Word) : (s.bind n v).remain = s.remain := rfl
@[simp] theorem State.bind_rnd (s : State) (n : Nat) (v : Word) : (s.bind n v).rnd = s.rnd := rfl
@[simp] theorem State.bind_blk (s : State) (n : Nat) (v : Word) : (s.bind n v).blk = s.blk := rfl
@[simp] theorem State.bind_prog (s : State) (n : Nat) (v : Word) : (s.bind n v).host.prog = s.host.prog := rfl
@[simp] theorem State.bind_line (s : State) (n : Nat) (v : Word) : (s.bind n v).host.line = s.host.line := rfl
@[simp] theorem State.bind_names (s : State) (n : Nat) (v : Word) : (s.bind n v).host.names = cellWrite s.host.names n v := rfl
@[simp] theorem State.bind_response (s : State) (n : Nat) (v : Word) : (s.bind n v).host.response = s.host.response := rfl
@[simp] theorem State.bind_schedule (s : State) (n : Nat) (v : Word) : (s.bind n v).schedule = s.schedule := rfl
@[simp] theorem State.bind_draws (s : State) (n : Nat) (v : Word) : (s.bind n v).draws = s.draws := rfl

@[simp] theorem hostWaitIrq_cfg (s : State) : (hostWaitIrq s).cfg = s.cfg := rfl
@[simp] theorem hostWaitIrq_ctrlIE (s : State) : (hostWaitIrq s).ctrlIE = s.ctrlIE := rfl
@[simp] theorem hostWaitIrq_status (s : State) : (hostWaitIrq s).status = s.status := rfl
@[simp] theorem hostWaitIrq_cmd (s : State) : (hostWaitIrq s).cmd = s.cmd := rfl
@[simp] theorem hostWaitIrq_padOut (s : State) : (hostWaitIrq s).padOut = s.padOut := rfl
@[simp] theorem hostWaitIrq_key (s : State) : (hostWaitIrq s).key = s.key := rfl
@[simp] theorem hostWaitIrq_din (s : State) : (hostWaitIrq s).din = s.din := rfl
@[simp] theorem hostWaitIrq_dout (s : State) : (hostWaitIrq s).dout = s.dout := rfl
@[simp] theorem hostWaitIrq_inLen (s : State) : (hostWaitIrq s).inLen = s.inLen := rfl
@[simp] theorem hostWaitIrq_outLen (s : State) : (hostWaitIrq s).outLen = s.outLen := rfl
@[simp] theorem hostWaitIrq_rk (s : State) : (hostWaitIrq s).rk = s.rk := rfl
@[simp] theorem hostWaitIrq_inBuf (s : State) : (hostWaitIrq s).inBuf = s.inBuf := rfl
@[simp] theorem hostWaitIrq_outBuf (s : State) : (hostWaitIrq s).outBuf = s.outBuf := rfl
@[simp] theorem hostWaitIrq_c (s : State) : (hostWaitIrq s).c = s.c := rfl
@[simp] theorem hostWaitIrq_d (s : State) : (hostWaitIrq s).d = s.d := rfl
@[simp] theorem hostWaitIrq_l (s : State) : (hostWaitIrq s).l = s.l := rfl
@[simp] theorem hostWaitIrq_r (s : State) : (hostWaitIrq s).r = s.r := rfl
@[simp] theorem hostWaitIrq_remain (s : State) : (hostWaitIrq s).remain = s.remain := rfl
@[simp] theorem hostWaitIrq_rnd (s : State) : (hostWaitIrq s).rnd = s.rnd := rfl
@[simp] theorem hostWaitIrq_blk (s : State) : (hostWaitIrq s).blk = s.blk := rfl
@[simp] theorem hostWaitIrq_prog (s : State) : (hostWaitIrq s).host.prog = s.host.prog := rfl
@[simp] theorem hostWaitIrq_line (s : State) : (hostWaitIrq s).host.line = if s.irq then s.host.line + 1 else s.host.line := rfl
@[simp] theorem hostWaitIrq_names (s : State) : (hostWaitIrq s).host.names = s.host.names := rfl
@[simp] theorem hostWaitIrq_response (s : State) : (hostWaitIrq s).host.response = s.host.response := rfl
@[simp] theorem hostWaitIrq_schedule (s : State) : (hostWaitIrq s).schedule = s.schedule := rfl
@[simp] theorem hostWaitIrq_draws (s : State) : (hostWaitIrq s).draws = s.draws := rfl

@[simp] theorem State.popTurn_cfg (s : State) : (s.popTurn).cfg = s.cfg := rfl
@[simp] theorem State.popTurn_ctrlIE (s : State) : (s.popTurn).ctrlIE = s.ctrlIE := rfl
@[simp] theorem State.popTurn_status (s : State) : (s.popTurn).status = s.status := rfl
@[simp] theorem State.popTurn_cmd (s : State) : (s.popTurn).cmd = s.cmd := rfl
@[simp] theorem State.popTurn_padOut (s : State) : (s.popTurn).padOut = s.padOut := rfl
@[simp] theorem State.popTurn_key (s : State) : (s.popTurn).key = s.key := rfl
@[simp] theorem State.popTurn_din (s : State) : (s.popTurn).din = s.din := rfl
@[simp] theorem State.popTurn_dout (s : State) : (s.popTurn).dout = s.dout := rfl
@[simp] theorem State.popTurn_inLen (s : State) : (s.popTurn).inLen = s.inLen := rfl
@[simp] theorem State.popTurn_outLen (s : State) : (s.popTurn).outLen = s.outLen := rfl
@[simp] theorem State.popTurn_rk (s : State) : (s.popTurn).rk = s.rk := rfl
@[simp] theorem State.popTurn_inBuf (s : State) : (s.popTurn).inBuf = s.inBuf := rfl
@[simp] theorem State.popTurn_outBuf (s : State) : (s.popTurn).outBuf = s.outBuf := rfl
@[simp] theorem State.popTurn_c (s : State) : (s.popTurn).c = s.c := rfl
@[simp] theorem State.popTurn_d (s : State) : (s.popTurn).d = s.d := rfl
@[simp] theorem State.popTurn_l (s : State) : (s.popTurn).l = s.l := rfl
@[simp] theorem State.popTurn_r (s : State) : (s.popTurn).r = s.r := rfl
@[simp] theorem State.popTurn_remain (s : State) : (s.popTurn).remain = s.remain := rfl
@[simp] theorem State.popTurn_rnd (s : State) : (s.popTurn).rnd = s.rnd := rfl
@[simp] theorem State.popTurn_blk (s : State) : (s.popTurn).blk = s.blk := rfl
@[simp] theorem State.popTurn_host (s : State) : (s.popTurn).host = s.host := rfl
@[simp] theorem State.popTurn_schedule (s : State) : (s.popTurn).schedule = s.schedule.tail := rfl
@[simp] theorem State.popTurn_draws (s : State) : (s.popTurn).draws = s.draws := rfl

@[simp] theorem State.acceptNow_cfg (s : State) (w : Word) : (s.acceptNow w).cfg = s.cfg := rfl
@[simp] theorem State.acceptNow_ctrlIE (s : State) (w : Word) : (s.acceptNow w).ctrlIE = s.ctrlIE := rfl
@[simp] theorem State.acceptNow_busy (s : State) (w : Word) : (s.acceptNow w).status.busy = true := rfl
@[simp] theorem State.acceptNow_done (s : State) (w : Word) : (s.acceptNow w).status.done = false := rfl
@[simp] theorem State.acceptNow_ksv (s : State) (w : Word) : (s.acceptNow w).status.ksv = s.status.ksv := rfl
@[simp] theorem State.acceptNow_bwe (s : State) (w : Word) : (s.acceptNow w).status.bwe = s.status.bwe := rfl
@[simp] theorem State.acceptNow_errCode (s : State) (w : Word) : (s.acceptNow w).status.errCode = .none := rfl
@[simp] theorem State.acceptNow_cmd (s : State) (w : Word) : (s.acceptNow w).cmd = w := rfl
@[simp] theorem State.acceptNow_padOut (s : State) (w : Word) : (s.acceptNow w).padOut = s.padOut := rfl
@[simp] theorem State.acceptNow_key (s : State) (w : Word) : (s.acceptNow w).key = s.key := rfl
@[simp] theorem State.acceptNow_din (s : State) (w : Word) : (s.acceptNow w).din = s.din := rfl
@[simp] theorem State.acceptNow_dout (s : State) (w : Word) : (s.acceptNow w).dout = s.dout := rfl
@[simp] theorem State.acceptNow_inLen (s : State) (w : Word) : (s.acceptNow w).inLen = s.inLen := rfl
@[simp] theorem State.acceptNow_outLen (s : State) (w : Word) : (s.acceptNow w).outLen = s.outLen := rfl
@[simp] theorem State.acceptNow_rk (s : State) (w : Word) : (s.acceptNow w).rk = s.rk := rfl
@[simp] theorem State.acceptNow_inBuf (s : State) (w : Word) : (s.acceptNow w).inBuf = s.inBuf := rfl
@[simp] theorem State.acceptNow_outBuf (s : State) (w : Word) : (s.acceptNow w).outBuf = s.outBuf := rfl
@[simp] theorem State.acceptNow_c (s : State) (w : Word) : (s.acceptNow w).c = s.c := rfl
@[simp] theorem State.acceptNow_d (s : State) (w : Word) : (s.acceptNow w).d = s.d := rfl
@[simp] theorem State.acceptNow_l (s : State) (w : Word) : (s.acceptNow w).l = s.l := rfl
@[simp] theorem State.acceptNow_r (s : State) (w : Word) : (s.acceptNow w).r = s.r := rfl
@[simp] theorem State.acceptNow_remain (s : State) (w : Word) : (s.acceptNow w).remain = 1 := rfl
@[simp] theorem State.acceptNow_rnd (s : State) (w : Word) : (s.acceptNow w).rnd = s.rnd := rfl
@[simp] theorem State.acceptNow_blk (s : State) (w : Word) : (s.acceptNow w).blk = s.blk := rfl
@[simp] theorem State.acceptNow_host (s : State) (w : Word) : (s.acceptNow w).host = s.host := rfl
@[simp] theorem State.acceptNow_schedule (s : State) (w : Word) : (s.acceptNow w).schedule = .sequencer :: s.schedule := rfl
@[simp] theorem State.acceptNow_draws (s : State) (w : Word) : (s.acceptNow w).draws = s.draws := rfl

end Sys2Proof.Machine
end

