-- ==== Sys2Proof/Laws/Commands.lean ====
section
/-!
SUPPORT. What the shared operations under the commands do, and what every command's completion leaves.
-/

namespace Sys2Proof

/-- A padded message has whole blocks (45_block_framer.md rule R221). -/
theorem padcount_spec (n : Nat) : padcount n ≤ 7 ∧ (n + padcount n) % 8 = 0 := by
  unfold padcount; omega

@[simp] theorem padMessage_length (padByte : Byte) (m : List Byte) :
    (padMessage padByte m).length = m.length + padcount m.length := by simp [padMessage]

@[simp] theorem transformMessage_length (t : Tables) (keys : List Subkey) (bytes : List Byte) :
    (transformMessage t keys bytes).length = 8 * (bytes.length / 8) := by
  simp [transformMessage, List.length_flatMap, mul_comm]

/-- Eight elements an index: element `j` of the concatenation is element `j % 8` of part `j / 8`. -/
theorem flatMap_range_getElem? {α : Type} (f : Nat → List α) (hf : ∀ b, (f b).length = 8) (n j : Nat) :
    ((List.range n).flatMap f)[j]? = if j < 8 * n then (f (j / 8))[j % 8]? else none := by
  induction n with
  | zero => simp
  | succ n ih =>
    have hlen : ((List.range n).flatMap f).length = 8 * n := by
      simp [List.length_flatMap, hf, mul_comm]
    rw [List.range_succ, List.flatMap_append, List.getElem?_append, hlen, ih]
    by_cases h : j < 8 * n
    · rw [if_pos h, if_pos h, if_pos (by omega)]
    · rw [if_neg h]
      simp only [List.flatMap_cons, List.flatMap_nil, List.append_nil]
      by_cases h' : j < 8 * (n + 1)
      · rw [if_pos h', show j / 8 = n by omega, show j - 8 * n = j % 8 by omega]
      · rw [if_neg h', List.getElem?_eq_none (by rw [hf]; omega)]

/-- Byte `j` of a transformed message (45_block_framer.md rule R223). -/
theorem transformMessage_getElem? (t : Tables) (keys : List Subkey) (bytes : List Byte) {j : Nat}
    (h : j < 8 * (bytes.length / 8)) :
    (transformMessage t keys bytes)[j]? = (toBytes (desx t (blockAt bytes (j / 8)) keys))[j % 8]? := by
  rw [transformMessage, flatMap_range_getElem? _ (fun b => toBytes_length _), if_pos h]

/-- A chunk within a message is its eight bytes (45_block_framer.md rule R222). -/
theorem chunk_eq {bytes : List Byte} {b : Nat} (h : 8 * b + 8 ≤ bytes.length) :
    chunk bytes b = (List.range 8).map fun k => bytes.getD (8 * b + k) 0#8 := by
  apply List.ext_getElem
  · simp [chunk]; omega
  · intro i h1 h2
    simp only [List.length_map, List.length_range] at h2
    simp [chunk, List.getD_eq_getElem?_getD, List.getElem?_eq_getElem (show 8 * b + i < bytes.length by omega)]

namespace Machine

@[simp] theorem message_length (s : State) : (message s).length = s.inLen.toNat := by simp [message]

theorem message_getElem? (s : State) {j : Nat} (h : j < s.inLen.toNat) :
    (message s)[j]? = some (readInByte s j) := by simp [message, h]

/-- What no command's completion changes, and the protocol every one follows (30_encoding.md rule R106,
40_command_sequencer.md rule R124). -/
structure CommandFrame (s t : State) : Prop where
  cfg : t.cfg = s.cfg
  ctrlIE : t.ctrlIE = s.ctrlIE
  cmd : t.cmd = s.cmd
  key : t.key = s.key
  din : t.din = s.din
  inLen : t.inLen = s.inLen
  inBuf : t.inBuf = s.inBuf
  rnd : t.rnd = s.rnd
  blk : t.blk = s.blk
  host : t.host = s.host
  schedule : t.schedule = s.schedule
  draws : t.draws = s.draws
  bwe : t.status.bwe = s.status.bwe
  busy : t.status.busy = false
  done : t.status.done = true
  remain : t.remain = 0

/-- Every command completes, from every state. -/
theorem exec_total (i : Instr) (s : State) : ∃ t, exec i s = .next t := by
  cases i with
  | msgEnc => simp only [exec, execMsgEnc]; split <;> exact ⟨_, rfl⟩
  | msgDec q => simp only [exec, execMsgDec]; split <;> exact ⟨_, rfl⟩
  | _ => exact ⟨_, rfl⟩

theorem complete_frame (s : State) (code : ErrCode) : CommandFrame s (s.complete code) := by
  constructor <;> rfl

theorem failMessage_frame (s : State) (code : ErrCode) : CommandFrame s (s.failMessage code) := by
  constructor <;> rfl

theorem finishMessage_frame (bytes : List Byte) (p : Nat) (s : State) :
    CommandFrame s (finishMessage bytes p s) := by constructor <;> rfl

theorem blockCommand_frame (keys : List Subkey) (s : State) : CommandFrame s (blockCommand keys s) := by
  unfold blockCommand; split <;> constructor <;> rfl

/-- The frame of every command. -/
theorem exec_frame {i : Instr} {s t : State} (h : exec i s = .next t) : CommandFrame s t := by
  cases i with
  | nop => cases h; exact complete_frame s _
  | illegal w => cases h; exact complete_frame s _
  | clear => cases h; constructor <;> rfl
  | ksDerive => cases h; constructor <;> rfl
  | blkEnc => cases h; exact blockCommand_frame _ s
  | blkDec => cases h; exact blockCommand_frame _ s
  | msgEnc =>
    simp only [exec, execMsgEnc] at h
    split at h <;> cases h
    · exact finishMessage_frame _ _ s
    · exact failMessage_frame s _
  | msgDec q =>
    simp only [exec, execMsgDec] at h
    split at h <;> cases h
    · exact finishMessage_frame _ _ s
    · exact failMessage_frame s _

/-- The checks of MSG_ENC pass exactly on a message that fits and is not empty. -/
theorem encodeCheck_none {s : State} :
    encodeCheck s = .none ↔ s.inLen.toNat ≤ s.cfg.maxMsgBytes ∧ 0 < s.inLen.toNat := by
  unfold encodeCheck
  split
  · simp; omega
  · split <;> simp <;> omega

/-- The checks of MSG_DEC pass exactly on whole blocks that fit and hold the padding. -/
theorem decodeCheck_none {q : Nat} {s : State} :
    decodeCheck q s = .none ↔
      s.inLen.toNat ≤ s.cfg.maxMsgBytes ∧ s.inLen.toNat % 8 = 0 ∧ q ≤ s.inLen.toNat := by
  unfold decodeCheck
  split
  · simp; omega
  · split
    · simp; omega
    · split <;> simp <;> omega

/-- The bytes of an encoded message. -/
theorem encodedMessage_length (s : State) :
    (encodedMessage s).length = s.inLen.toNat + padcount s.inLen.toNat := by
  have := padcount_spec s.inLen.toNat
  simp [encodedMessage]; omega

/-- The bytes of a decoded message before the strip. -/
theorem decodedMessage_length (s : State) : (decodedMessage s).length = 8 * (s.inLen.toNat / 8) := by
  simp [decodedMessage]

/-- A well-formed configuration has whole blocks of buffer within the window (00_scope.md rule R7). -/
theorem cfg_wf_max {c : Config} (h : c.wf = true) :
    c.maxMsgBytes % 8 = 0 ∧ 8 ≤ c.maxMsgBytes ∧ c.maxMsgBytes ≤ 65536 := by
  simp only [Config.wf, Bool.and_eq_true, beq_iff_eq, decide_eq_true_eq] at h
  exact ⟨h.1.1.1.1, h.1.1.1.2, h.1.1.2⟩

theorem cfg_wf_tables {c : Config} (h : c.wf = true) : c.tables.wf = true := by
  simp only [Config.wf, Bool.and_eq_true] at h
  exact h.1.2

end Machine

end Sys2Proof
end

