-- ==== Sys2Proof/Laws/Step.lean ====
section
/-!
SUPPORT. What each agent's step can do: the inversion lemmas the statements about the whole machine go through.
-/

namespace Sys2Proof.Machine

/-- A step is the step of the agent whose turn it is. -/
theorem step_of_wf {s : State} (h : s.cfg.wf = true) : step s = agentStep (nextTurn s) s.popTurn := by
  simp [step, machineStep, h]

theorem step_next {s t : State} (h : step s = .next t) :
    s.cfg.wf = true ∧ agentStep (nextTurn s) s.popTurn = .next t := by
  unfold step machineStep at h
  split at h
  · exact ⟨‹_›, h⟩
  · cases h

/-- What a running step can change: C, D, L, R, RND, BLK and REMAIN (40_command_sequencer.md rule R123). -/
structure InternalOnly (s t : State) : Prop where
  eq : t = { s with c := t.c, d := t.d, l := t.l, r := t.r, rnd := t.rnd, blk := t.blk, remain := t.remain }
  rnd_le : t.rnd ≤ 16 ∨ t.rnd = s.rnd

theorem InternalOnly.refl (s : State) : InternalOnly s s := ⟨rfl, .inr rfl⟩

theorem microLoadKey_internal (s : State) : InternalOnly s (microLoadKey s) :=
  ⟨rfl, .inl (by simp)⟩

theorem microKeyStep_internal (i : Nat) (s : State) : InternalOnly s (microKeyStep i s) :=
  ⟨rfl, .inl (by simp; omega)⟩

theorem microBlock_internal (x : Block) (keys : List Subkey) (pos : Nat) (s : State) :
    InternalOnly s (microBlock x keys pos s) := by
  unfold microBlock
  split
  · exact ⟨rfl, .inl (by simp)⟩
  · split
    · exact ⟨rfl, .inl (by simp; omega)⟩
    · exact .refl s

theorem microMessage_internal (keys : List Subkey) (bytes : List Byte) (pos : Nat) (s : State) :
    InternalOnly s (microMessage keys bytes pos s) := by
  unfold microMessage
  split
  · exact ⟨rfl, .inr rfl⟩
  · split
    · exact microLoadKey_internal s
    · split
      · exact microKeyStep_internal _ s
      · split
        · exact ⟨rfl, .inr rfl⟩
        · exact microBlock_internal _ _ _ s

/-- A micro-step changes internal state only, and not REMAIN. -/
theorem microStep_internal (i : Instr) (pos : Nat) (s : State) : InternalOnly s (microStep i pos s) := by
  cases i with
  | ksDerive =>
    simp only [microStep, microKsDerive]
    split
    · exact microLoadKey_internal s
    · exact microKeyStep_internal pos s
  | blkEnc => exact microBlock_internal _ _ pos s
  | blkDec => exact microBlock_internal _ _ pos s
  | msgEnc => exact microMessage_internal _ _ pos s
  | msgDec q => exact microMessage_internal _ _ pos s
  | nop => exact .refl s
  | clear => exact .refl s
  | illegal w => exact .refl s

/-- A running step changes internal state only (40_command_sequencer.md rule R123). -/
theorem runningStep_internal (s : State) :
    InternalOnly s (runningStep s) ∧ (runningStep s).remain = s.remain - 1 := by
  unfold runningStep
  split
  · have h := microStep_internal (decode s.cmd) (referenceLatency (decode s.cmd) s - s.remain) s
    exact ⟨⟨by rw [h.eq], h.rnd_le⟩, rfl⟩
  · exact ⟨⟨rfl, .inr rfl⟩, rfl⟩

/-- What the sequencer's step can do. -/
theorem sequencerStep_cases (s : State) :
    (s.status.busy = false ∧ sequencerStep s = .next s) ∨
    (s.status.busy = true ∧ 1 < s.remain ∧ sequencerStep s = .next (runningStep s)) ∨
    (s.status.busy = true ∧ s.remain ≤ 1 ∧ sequencerStep s = exec (decode s.cmd) s) := by
  unfold sequencerStep
  cases hb : s.status.busy
  · exact .inl ⟨rfl, by simp⟩
  · by_cases hr : 1 < s.remain
    · exact .inr (.inl ⟨rfl, hr, by simp [hr]⟩)
    · exact .inr (.inr ⟨rfl, by omega, by simp [hr]⟩)

/-- What a host write can do to the block (20_memory.md rules R65 to R68). -/
inductive WriteMove (s : State) (v : Word) : State → Prop where
  | ignored : WriteMove s v s
  | lost : s.status.busy = true → WriteMove s v s.busyWrite
  | ctrl : WriteMove s v (s.writeCtrl v)
  | status : WriteMove s v (s.writeStatus v)
  | issued : s.status.busy = false → WriteMove s v (issue v s)
  | key (k : Block) : s.status.busy = false → WriteMove s v { s with key := k }
  | din (x : Block) : s.status.busy = false → WriteMove s v { s with din := x }
  | inLen : s.status.busy = false → WriteMove s v { s with inLen := v }
  | inBuf (a : Nat) : s.status.busy = false → a % 4 = 0 → a < s.cfg.maxMsgBytes → WriteMove s v (s.writeInWord a v)

/-- The words of IN_BUF that an aligned offset names (20_memory.md rule R62). -/
theorem target_inBuf {s : State} {offset : Offset} {a : Nat} (ha : offset.toNat % 4 = 0)
    (h : target s offset = .inBuf a) : a % 4 = 0 ∧ a < s.cfg.maxMsgBytes := by
  unfold target targetAt registerTarget at h
  repeat' split at h
  all_goals simp only [Target.inBuf.injEq, reduceCtorEq] at h
  omega

/-- A legal access is aligned and 32 bits wide. -/
theorem legalAccess_iff {offset : Offset} {bytes : Nat} :
    legalAccess offset bytes = true ↔ bytes = 4 ∧ offset.toNat % 4 = 0 := by
  simp [legalAccess]

theorem writeWord_move (s : State) (v : Word) {offset : Offset} (ha : offset.toNat % 4 = 0) :
    WriteMove s v (writeWord s v (target s offset)) := by
  unfold writeWord
  cases hb : s.status.busy
  · simp only [Bool.false_and, Bool.false_eq_true, if_false]
    cases ht : target s offset with
    | inBuf a => exact .inBuf a hb (target_inBuf ha ht).1 (target_inBuf ha ht).2
    | ctrl => exact .ctrl
    | status => exact .status
    | cmd => exact .issued hb
    | keyHi => exact .key _ hb
    | keyLo => exact .key _ hb
    | dinHi => exact .din _ hb
    | dinLo => exact .din _ hb
    | inLen => exact .inLen hb
    | _ => exact .ignored
  · simp only [Bool.true_and]
    split
    · exact .lost hb
    · rename_i hf
      cases ht : target s offset with
      | ctrl => exact .ctrl
      | status => exact .status
      | cmd => simp [ht, Target.frozenWhileBusy] at hf
      | keyHi => simp [ht, Target.frozenWhileBusy] at hf
      | keyLo => simp [ht, Target.frozenWhileBusy] at hf
      | dinHi => simp [ht, Target.frozenWhileBusy] at hf
      | dinLo => simp [ht, Target.frozenWhileBusy] at hf
      | inLen => simp [ht, Target.frozenWhileBusy] at hf
      | inBuf a => simp [ht, Target.frozenWhileBusy] at hf
      | _ => exact .ignored

/-- What a read can do to the state: use up a draw (20_memory.md rule R77). -/
theorem afterRead_cases (s : State) (x : Target) :
    afterRead s x = s ∨ (s.status.busy = true ∧ afterRead s x = { s with draws := s.draws + 1 }) := by
  unfold afterRead
  split
  · exact .inr ⟨by simp_all, rfl⟩
  · exact .inl rfl

/-- What the host's turn can do. -/
inductive HostMove (s : State) : State → Prop where
  | ended : s.host.prog[s.host.line]? = none → HostMove s s
  | wrote (offset : Offset) (value : HostValue) (v : Word) :
      s.host.prog[s.host.line]? = some (.write offset 4 value) → hostValue s value = some v →
      offset.toNat % 4 = 0 → HostMove s ((writeWord s v (target s offset)).answered .written)
  | read (offset : Offset) (name : Option Nat) (t : State) :
      s.host.prog[s.host.line]? = some (.read offset 4 name) → offset.toNat % 4 = 0 →
      t = (afterRead s (target s offset)).answered (.data (readWord s (target s offset))) →
      HostMove s (match name with | some number => t.bind number (readWord s (target s offset)) | none => t)
  | branched (number : Nat) (mask : Word) (label line : Nat) :
      s.host.prog[s.host.line]? = some (.bnz number mask label) → HostMove s (s.atLine line)
  | waited : s.host.prog[s.host.line]? = some .waitIrq → HostMove s (hostWaitIrq s)

theorem hostStep_move {s t : State} (h : hostStep s = .next t) : HostMove s t := by
  unfold hostStep at h
  split at h
  · rename_i line hl
    cases line with
    | write offset bytes value =>
      simp only [hostLine, hostWrite, memWrite] at h
      split at h
      · rename_i v hv
        split at h
        · rename_i u hu
          split at hu
          · rename_i hla
            obtain ⟨rfl, ha⟩ := legalAccess_iff.1 hla
            cases hu; cases h
            exact .wrote offset value v hl hv ha
          · cases hu
        · cases h
      · cases h
    | read offset bytes name =>
      simp only [hostLine, hostRead, memRead] at h
      split at h
      · rename_i v u hu
        split at hu
        · rename_i hla
          obtain ⟨rfl, ha⟩ := legalAccess_iff.1 hla
          cases hu
          cases name with
          | some number => cases h; exact .read offset (some number) _ hl ha rfl
          | none => cases h; exact .read offset none _ hl ha rfl
        · cases hu
      · cases h
    | bnz number mask label =>
      simp only [hostLine] at h
      split at h
      · rename_i v hv
        cases h
        unfold hostBranch
        split
        · exact .branched number mask label _ hl
        · exact .branched number mask label _ hl
      · cases h
    | waitIrq => cases h; exact .waited hl
  · cases h
    exact .ended ‹_›

/-- On the host's turn the step is its next line's (30_encoding.md rule R108). -/
theorem step_host_line {s : State} (hw : s.cfg.wf = true) (hn : nextTurn s = .host) {line : HostLine}
    (hl : s.host.prog[s.host.line]? = some line) : step s = hostLine s.popTurn line := by
  rw [step_of_wf hw, hn]
  simp [agentStep, hostStep, hl]

/-- What the host's turn can change while a command runs: CTRL.IE, DONE and BWE, the host agent and the draw counter
(20_memory.md rules R67, R68, R77). -/
theorem hostStep_while_busy {s t : State} (hb : s.status.busy = true) (h : hostStep s = .next t) :
    t = { s with ctrlIE := t.ctrlIE, status := { s.status with done := t.status.done, bwe := t.status.bwe }
                 host := t.host, draws := t.draws } := by
  have hw : ∀ {v : Word} {u : State}, WriteMove s v u → u = { s with
      ctrlIE := u.ctrlIE, status := { s.status with done := u.status.done, bwe := u.status.bwe } } := by
    intro v u hu
    cases hu with
    | ignored => rfl
    | lost _ => rfl
    | ctrl => rfl
    | status => rfl
    | issued hn => rw [hb] at hn; cases hn
    | key k hn => rw [hb] at hn; cases hn
    | din x hn => rw [hb] at hn; cases hn
    | inLen hn => rw [hb] at hn; cases hn
    | inBuf a hn => rw [hb] at hn; cases hn
  cases hostStep_move h with
  | ended _ => rfl
  | wrote offset value v _ _ ha =>
    have := hw (writeWord_move s v ha)
    generalize writeWord s v (target s offset) = u at this
    rw [this]; rfl
  | read offset name u _ _ hu =>
    have : u = { s with host := u.host, draws := u.draws } := by
      rw [hu]
      rcases afterRead_cases s (target s offset) with e | ⟨_, e⟩ <;> rw [e] <;> rfl
    cases name with
    | none => rw [this]
    | some number => rw [this]; rfl
  | branched _ _ _ _ _ => rfl
  | waited _ => rfl

end Sys2Proof.Machine
end

