-- ==== Sys2Proof/Laws/HostPort.lean ====
section
/-!
SUPPORT. The laws of the words a host transaction moves: halves of 64-bit registers, buffer words, register map.
-/

namespace Sys2Proof

/-- A word is its four bytes (20_memory.md rule R71). -/
@[simp] theorem wordOfBytes_bytes (w : Word) :
    wordOfBytes (w.extractLsb' 24 8) (w.extractLsb' 16 8) (w.extractLsb' 8 8) (w.extractLsb' 0 8) = w := by
  apply BitVec.eq_of_getMsbD_eq
  intro i hi
  have hi' : i < 32 := hi
  simp only [wordOfBytes, BitVec.getMsbD_append, BitVec.getMsbD_extractLsb']
  interval_cases i <;> simp

namespace Machine

/-- The bits of a 64-bit register from its two words. -/
theorem halves_getLsbD (hi lo : Word) (i : Nat) :
    BitVec.getLsbD (w := 64) (hi ++ lo) i = if i < 32 then lo.getLsbD i else hi.getLsbD (i - 32) := by
  rw [← BitVec.getLsbD_append]

@[simp] theorem hiWord_setHi (k : Block) (v : Word) : hiWord (setHi k v) = v := by
  apply BitVec.eq_of_getLsbD_eq
  intro i hi
  simp [hiWord, setHi, hi, halves_getLsbD]

@[simp] theorem loWord_setHi (k : Block) (v : Word) : loWord (setHi k v) = loWord k := by
  apply BitVec.eq_of_getLsbD_eq
  intro i hi
  simp [loWord, setHi, hi, halves_getLsbD]

@[simp] theorem hiWord_setLo (k : Block) (v : Word) : hiWord (setLo k v) = hiWord k := by
  apply BitVec.eq_of_getLsbD_eq
  intro i hi
  simp [hiWord, setLo, hi, halves_getLsbD]

@[simp] theorem loWord_setLo (k : Block) (v : Word) : loWord (setLo k v) = v := by
  apply BitVec.eq_of_getLsbD_eq
  intro i hi
  simp only [loWord, setLo, BitVec.getLsbD_extractLsb', hi, decide_true, Bool.true_and, halves_getLsbD]
  simp [hi]

@[simp] theorem hiWord_append (hi lo : Word) : hiWord (hi ++ lo) = hi := by
  apply BitVec.eq_of_getLsbD_eq
  intro i hi
  simp [hiWord, hi, halves_getLsbD]

@[simp] theorem loWord_append (hi lo : Word) : loWord (hi ++ lo) = lo := by
  apply BitVec.eq_of_getLsbD_eq
  intro i hi
  simp only [loWord, BitVec.getLsbD_extractLsb', hi, decide_true, Bool.true_and, halves_getLsbD]
  simp [hi]

/-- A 64-bit value is its two words (20_memory.md rule R70). -/
@[simp] theorem hiWord_append_loWord (v : Block) : hiWord v ++ loWord v = v := by
  apply BitVec.eq_of_getLsbD_eq
  intro i hi
  rw [halves_getLsbD]
  by_cases h : i < 32
  · simp [loWord, h]
  · simp [hiWord, h, Nat.add_sub_cancel' (Nat.le_of_not_lt h)]
    omega

/-- Byte `j` of a buffer word (20_memory.md rule R71). -/
theorem bufferWord_byte (byte : Nat → Byte) (a : Nat) {j : Nat} (hj : j < 4) :
    (bufferWord byte a).extractLsb' (24 - 8 * j) 8 = byte (a + j) := by
  apply BitVec.eq_of_getMsbD_eq
  intro i hi
  simp only [bufferWord, BitVec.getMsbD_extractLsb', BitVec.getMsbD_append]
  interval_cases j <;> interval_cases i <;> simp

/-- The buffer word of a word's bytes is the word. -/
theorem bufferWord_wordBytes (v : Word) : bufferWord (fun j => (wordBytes v).getD j 0#8) 0 = v := by
  apply BitVec.eq_of_getMsbD_eq
  intro i hi
  have hi' : i < 32 := hi
  simp only [bufferWord, wordBytes, BitVec.getMsbD_append]
  interval_cases i <;> simp

/-- IN_BUF after a host write of the word at byte index `a` (20_memory.md rule R72). -/
theorem readInByte_writeInWord (s : State) (a : Nat) (v : Word) (j : Nat) :
    readInByte (s.writeInWord a v) j =
      if a ≤ j ∧ j < a + 4 then (wordBytes v).getD (j - a) 0#8 else readInByte s j := by
  rw [readInByte_of_inBuf (m := s.inBuf) (a := a) (bytes := wordBytes v) rfl]; rfl

/-- An IN_BUF word reads back (20_memory.md rule R72). -/
@[simp] theorem inBufWord_writeInWord (s : State) (a : Nat) (v : Word) : inBufWord (s.writeInWord a v) a = v := by
  rw [inBufWord]
  conv_rhs => rw [← bufferWord_wordBytes v]
  simp only [bufferWord, readInByte_writeInWord]
  simp

/-- The register map below 0x34 (20_memory.md rule R62). -/
theorem target_register (s : State) {offset : Offset} (h : offset.toNat < 0x34) :
    target s offset = registerTarget (offset.toNat / 4) := by
  simp [target, targetAt, h]

/-- The register map of the IN_BUF window (20_memory.md rule R62). -/
theorem target_inBuf_window {s : State} {offset : Offset} (h1 : 0x10000 ≤ offset.toNat)
    (h2 : offset.toNat < 0x10000 + s.cfg.maxMsgBytes) : target s offset = .inBuf (offset.toNat - 0x10000) := by
  unfold target targetAt
  rw [if_neg (by omega), if_neg (by omega), if_neg (by omega), if_neg (by omega), if_pos h2]

/-- The register map of the OUT_BUF window (20_memory.md rule R62). -/
theorem target_outBuf_window {s : State} {offset : Offset} (h : s.cfg.maxMsgBytes ≤ 65536)
    (h1 : 0x20000 ≤ offset.toNat) (h2 : offset.toNat < 0x20000 + s.cfg.maxMsgBytes) :
    target s offset = .outBuf (offset.toNat - 0x20000) := by
  unfold target targetAt
  rw [if_neg (by omega), if_neg (by omega), if_neg (by omega), if_neg (by omega), if_neg (by omega),
    if_neg (by omega), if_pos h2]

/-- A 64-bit value of a host program is its two words (30_encoding.md rule R109). -/
theorem hostBlock_eq_some {s : State} {x : HostBlock} {v : Block} :
    hostBlock s x = some v ↔ hostValue s x.hi = some (hiWord v) ∧ hostValue s x.lo = some (loWord v) := by
  cases x with
  | literal w =>
    simp only [hostBlock, HostBlock.hi, HostBlock.lo, hostValue, Option.some.injEq]
    exact ⟨fun h => by simp [h], fun h => by rw [← hiWord_append_loWord w, h.1, h.2, hiWord_append_loWord]⟩
  | names yh yl =>
    simp only [hostBlock, HostBlock.hi, HostBlock.lo, hostValue]
    cases h1 : cellRead s.host.names yh <;> cases h2 : cellRead s.host.names yl <;>
      simp only [Option.some.injEq, reduceCtorEq, false_and, and_false]
    exact ⟨fun h => by subst h; simp, fun h => by rw [h.1, h.2, hiWord_append_loWord]⟩

/-- A read of CTRL is never a draw (20_memory.md rule R69). -/
theorem readWord_ctrl (s : State) : readWord s .ctrl = ctrlWord s := by
  unfold readWord; split <;> rfl

/-- A read of STATUS shows STATUS, with some bit in KSV (20_memory.md rule R69). -/
theorem readWord_status (s : State) : ∃ b, readWord s .status = statusWord s.status b := by
  unfold readWord; split <;> exact ⟨_, rfl⟩

end Machine

end Sys2Proof
end

