-- ==== Sys2Proof/Laws/PerInstr.lean ====
section
/-!
SUPPORT. The per-instruction family Legality: which words the encodings of well-formed commands are.
-/

/-- A well-formed command's word is legal by the formula of 30_encoding.md rule R104 exactly when it is among the
words that rule lists, and exactly when the command is not ILLEGAL. -/
def Sys2Proof.Laws.Legality.Statement (i : Sys2Proof.Instr) : Prop :=
  i.wf = true →
    (Sys2Proof.legal (Sys2Proof.encode i) = true ↔ Sys2Proof.encode i ∈ Sys2Proof.legalWords) ∧
    (Sys2Proof.encode i ∈ Sys2Proof.legalWords ↔ ∀ w, i ≠ .illegal w)

namespace Sys2Proof.Laws.Legality

theorem nop : Statement .nop := fun _ => by
  constructor <;> simp [legal, rsvField, opField, padinField, encode, legalWords]

theorem clear : Statement .clear := fun _ => by
  constructor <;> simp [legal, rsvField, opField, padinField, encode, legalWords]

theorem ksDerive : Statement .ksDerive := fun _ => by
  constructor <;> simp [legal, rsvField, opField, padinField, encode, legalWords]

theorem blkEnc : Statement .blkEnc := fun _ => by
  constructor <;> simp [legal, rsvField, opField, padinField, encode, legalWords]

theorem blkDec : Statement .blkDec := fun _ => by
  constructor <;> simp [legal, rsvField, opField, padinField, encode, legalWords]

theorem msgEnc : Statement .msgEnc := fun _ => by
  constructor <;> simp [legal, rsvField, opField, padinField, encode, legalWords]

theorem msgDec (padin : BitVec 3) : Statement (.msgDec padin) := fun _ => by
  have h : ∀ q : BitVec 3, legal (encode (.msgDec q)) = true ∧ encode (.msgDec q) ∈ legalWords := by decide
  simp [h padin]

theorem illegal (word : Word) : Statement (.illegal word) := fun h => by
  have hw : word ∉ legalWords := by simpa [Instr.wf] using h
  refine ⟨⟨fun hl => ?_, fun hm => absurd hm hw⟩, ⟨fun hm => absurd hm hw, fun hn => absurd rfl (hn word)⟩⟩
  exfalso
  apply hw
  simp only [encode, legal, rsvField, opField, padinField, Bool.and_eq_true, Bool.or_eq_true, beq_iff_eq,
    decide_eq_true_eq, BitVec.le_def] at hl
  obtain ⟨h1, h2⟩ := hl
  have hn : word.toNat = (word.extractLsb' 11 21).toNat * 2048 + (word.extractLsb' 8 3).toNat * 256 +
      (word.extractLsb' 0 8).toNat := by
    have := word.isLt
    simp only [BitVec.extractLsb'_toNat, Nat.shiftRight_eq_div_pow]; omega
  rw [h1] at hn
  have hp := (word.extractLsb' 8 3).isLt
  have he : word = BitVec.ofNat 32 word.toNat := by simp
  rw [he, hn]
  rcases h2 with ⟨h2, h3⟩ | h2
  · rw [h3]
    generalize (word.extractLsb' 0 8).toNat = o at *
    have ho : o ≤ 5 := h2
    interval_cases o <;> decide
  · rw [h2]
    generalize (word.extractLsb' 8 3).toNat = q at *
    interval_cases q <;> decide

end Sys2Proof.Laws.Legality
end

