-- ==== Sys2Proof/Laws/Sequencer.lean ====
section
/-!
SUPPORT. A running step does not change what its command completes with (40_command_sequencer.md rule R122).
-/

namespace Sys2Proof.Machine

/-- A completion does not depend on REMAIN. -/
theorem exec_remain (i : Instr) (s : State) (n : Nat) : exec i { s with remain := n } = exec i s := by
  cases i with
  | msgEnc =>
    simp only [exec, execMsgEnc]
    have h : encodeCheck { s with remain := n } = encodeCheck s := rfl
    have e : encodedMessage { s with remain := n } = encodedMessage s := rfl
    rw [h, e]
    generalize encodedMessage s = bytes
    split <;> rfl
  | msgDec q =>
    simp only [exec, execMsgDec]
    have h : decodeCheck q.toNat { s with remain := n } = decodeCheck q.toNat s := rfl
    have e : decodedMessage { s with remain := n } = decodedMessage s := rfl
    rw [h, e]
    generalize decodedMessage s = bytes
    split <;> rfl
  | blkEnc => simp only [exec, execBlkEnc, blockCommand]; split <;> rfl
  | blkDec => simp only [exec, execBlkDec, blockCommand]; split <;> rfl
  | _ => rfl

/-- A message command that passes its checks ends alike from states that differ in internal state only. -/
theorem finishMessage_internal {s x : State} (h : InternalOnly s x) (bytes : List Byte) (p : Nat) :
    SameButCounters (finishMessage bytes p x) (finishMessage bytes p s) := by
  unfold SameButCounters
  rw [h.eq]
  rfl

/-- A micro-step with a position to take, of the command `i`, leaves the completion of `i` but for RND and BLK. -/
theorem exec_microStep (i : Instr) (pos : Nat) (s : State) (h : 1 < referenceLatency i s) :
    ∃ t u, exec i (microStep i pos s) = .next t ∧ exec i s = .next u ∧ SameButCounters t u := by
  have hm := microStep_internal i pos s
  cases i with
  | nop => simp [referenceLatency] at h
  | clear => simp [referenceLatency] at h
  | illegal w => simp [referenceLatency] at h
  | ksDerive =>
    refine ⟨_, _, rfl, rfl, ?_⟩
    simp only [microStep, microKsDerive]
    split <;> rfl
  | blkEnc =>
    have hk : s.status.ksv = true := by
      simp only [referenceLatency] at h; split at h
      · assumption
      · omega
    refine ⟨_, _, rfl, rfl, ?_⟩
    simp only [microStep, microBlock, blockCommand]
    split
    · simp [hk, SameButCounters]; rfl
    · split
      · simp [hk, SameButCounters]; rfl
      · simp [SameButCounters]
  | blkDec =>
    have hk : s.status.ksv = true := by
      simp only [referenceLatency] at h; split at h
      · assumption
      · omega
    refine ⟨_, _, rfl, rfl, ?_⟩
    simp only [microStep, microBlock, blockCommand]
    split
    · simp [hk, SameButCounters]; rfl
    · split
      · simp [hk, SameButCounters]; rfl
      · simp [SameButCounters]
  | msgEnc =>
    have hk : encodeCheck s = .none := by
      simp only [referenceLatency, messageLatency] at h; split at h
      · assumption
      · omega
    generalize hx : microStep .msgEnc pos s = x at *
    have hk2 : encodeCheck x = .none := by rw [hm.eq]; exact hk
    have e : encodedMessage x = encodedMessage s := by rw [hm.eq]; rfl
    have e2 : x.inLen = s.inLen := by rw [hm.eq]
    refine ⟨_, _, by simp only [exec, execMsgEnc, hk2]; rfl, by simp only [exec, execMsgEnc, hk]; rfl, ?_⟩
    rw [e, e2]
    exact finishMessage_internal hm _ _
  | msgDec q =>
    have hk : decodeCheck q.toNat s = .none := by
      simp only [referenceLatency, messageLatency] at h; split at h
      · assumption
      · omega
    generalize hx : microStep (.msgDec q) pos s = x at *
    have hk2 : decodeCheck q.toNat x = .none := by rw [hm.eq]; exact hk
    have e : decodedMessage x = decodedMessage s := by rw [hm.eq]; rfl
    refine ⟨_, _, by simp only [exec, execMsgDec, hk2]; rfl, by simp only [exec, execMsgDec, hk]; rfl, ?_⟩
    rw [e]
    exact finishMessage_internal hm _ _

/-- A running step leaves the completion of the accepted command, but for RND and BLK. -/
theorem exec_runningStep (s : State) (h : 1 < s.remain) :
    ∃ t u, exec (decode s.cmd) (runningStep s) = .next t ∧ exec (decode s.cmd) s = .next u ∧
      SameButCounters t u := by
  unfold runningStep
  split
  · rename_i hle
    rw [exec_remain]
    exact exec_microStep _ _ s (by omega)
  · rw [exec_remain]
    obtain ⟨u, hu⟩ := exec_total (decode s.cmd) s
    exact ⟨u, u, hu, hu, rfl⟩

theorem SameButHostSide.refl (s : State) : SameButHostSide s s := rfl

theorem SameButHostSide.trans {s t u : State} (h1 : SameButHostSide s t) (h2 : SameButHostSide t u) :
    SameButHostSide s u := by
  unfold SameButHostSide at *
  rw [h2, h1]

/-- States that differ in RND and BLK alone. -/
theorem SameButCounters.hostSide {s t : State} (h : SameButCounters s t) : SameButHostSide s t := by
  unfold SameButCounters at h
  unfold SameButHostSide
  cases s; cases t
  simp only [State.mk.injEq] at h ⊢
  simp [h]

/-- What the host's turns change while a command runs, and the schedule, leaves what its completion gives. -/
theorem exec_host_side (i : Instr) {s x : State}
    (h : x = { s with ctrlIE := x.ctrlIE, status := { s.status with done := x.status.done, bwe := x.status.bwe }
                      host := x.host, schedule := x.schedule, draws := x.draws }) :
    ∃ u v, exec i s = .next u ∧ exec i x = .next v ∧ SameButHostSide u v := by
  have hk : x.status.ksv = s.status.ksv := by rw [h]
  cases i with
  | msgEnc =>
    have e1 : encodeCheck x = encodeCheck s := by rw [h]; rfl
    have e2 : encodedMessage x = encodedMessage s := by rw [h]; rfl
    have e3 : x.inLen = s.inLen := by rw [h]
    simp only [exec, execMsgEnc, e1, e2, e3]
    generalize encodedMessage s = bytes
    split
    · exact ⟨_, _, rfl, rfl, by rw [h]; rfl⟩
    · exact ⟨_, _, rfl, rfl, by rw [h]; rfl⟩
  | msgDec q =>
    have e1 : decodeCheck q.toNat x = decodeCheck q.toNat s := by rw [h]; rfl
    have e2 : decodedMessage x = decodedMessage s := by rw [h]; rfl
    simp only [exec, execMsgDec, e1, e2]
    generalize decodedMessage s = bytes
    split
    · exact ⟨_, _, rfl, rfl, by rw [h]; rfl⟩
    · exact ⟨_, _, rfl, rfl, by rw [h]; rfl⟩
  | blkEnc =>
    refine ⟨_, _, rfl, rfl, ?_⟩
    simp only [blockCommand, hk]
    split
    · rw [h]; rfl
    · rw [h]; rfl
  | blkDec =>
    refine ⟨_, _, rfl, rfl, ?_⟩
    simp only [blockCommand, hk]
    split
    · rw [h]; rfl
    · rw [h]; rfl
  | nop => exact ⟨_, _, rfl, rfl, by rw [h]; rfl⟩
  | clear => exact ⟨_, _, rfl, rfl, by rw [h]; rfl⟩
  | ksDerive => exact ⟨_, _, rfl, rfl, by rw [h]; rfl⟩
  | illegal w => exact ⟨_, _, rfl, rfl, by rw [h]; rfl⟩

end Sys2Proof.Machine
end

