-- ==== Sys2Proof/Tests/Slice0.lean ====
section
/-!
SUPPORT. Tests on fixed values, and a witness for the hypotheses of each statement.

The expected values are those of spec/95_test_vectors.md (its section stands in each comment), of the corner rows of
42_substitution_box_array.md rule R175, and of the encodings written out from 30_encoding.md.
-/

namespace Sys2Proof.Tests

open Sys2Proof Sys2Proof.Machine Sys2Proof.Claims

-- One theorem at a time: each kernel evaluation that waits for another would hold a thread.
set_option Elab.async false

/-! WellFormed: an ill-formed term for each check -/

/-- A legal word is no ILLEGAL's (30_encoding.md rule R110). -/
theorem test_wf_refuses_legal_word_as_illegal :
    (Instr.illegal 0x00000005#32).wf = false ∧ (Instr.illegal 0x00000706#32).wf = false ∧
    (Instr.illegal 0x00000105#32).wf = true ∧ (Instr.msgDec 7#3).wf = true := by decide

/-- The default parameters are legal (00_scope.md rule R7). -/
theorem test_default_config_wf : Config.default.wf = true := by decide +kernel

/-- MAX_MSG_BYTES: a multiple of 8, at least 8, at most 65536; LAT at least 1 (00_scope.md rule R7). -/
theorem test_config_refuses_each_bound :
    ({ Config.default with maxMsgBytes := 12 } : Config).wf = false ∧
    ({ Config.default with maxMsgBytes := 0 } : Config).wf = false ∧
    ({ Config.default with maxMsgBytes := 65544 } : Config).wf = false ∧
    ({ Config.default with lat := [(latInput 0#32 State.reset, 0)] } : Config).wf = false ∧
    ({ Config.default with maxMsgBytes := 8 } : Config).wf = true ∧
    ({ Config.default with maxMsgBytes := 65536 } : Config).wf = true := by decide +kernel

/-- The five conditions of 41_bit_vector_and_permutation.md rule R159, one broken at a time. -/
theorem test_tables_refuse_each_condition :
    ({ Tables.fips with e := Tables.fipsE.tail } : Tables).wf = false ∧
    ({ Tables.fips with p := 33 :: Tables.fipsP.tail } : Tables).wf = false ∧
    ({ Tables.fips with pc1 := 0 :: Tables.fipsPC1.tail } : Tables).wf = false ∧
    ({ Tables.fips with pc2 := 57 :: Tables.fipsPC2.tail } : Tables).wf = false ∧
    ({ Tables.fips with shifts := 3 :: Tables.fipsSHIFTS.tail } : Tables).wf = false ∧
    ({ Tables.fips with sbox := Tables.fips.sbox.tail } : Tables).wf = false ∧
    ({ Tables.fips with sbox := [[16 :: List.replicate 15 0]] } : Tables).wf = false ∧
    ({ Tables.fips with fp := Tables.fipsIP } : Tables).wf = false := by decide +kernel

/-! Decoding: words written out field by field, RSV ++ PADIN ++ OP (30_encoding.md rule R100) -/

theorem test_decode_nop : decode (0#21 ++ 0b000#3 ++ 0b00000000#8) = .nop := by decide
theorem test_decode_clear : decode (0#21 ++ 0b000#3 ++ 0b00000001#8) = .clear := by decide
theorem test_decode_ksDerive : decode (0#21 ++ 0b000#3 ++ 0b00000010#8) = .ksDerive := by decide
theorem test_decode_blkEnc : decode (0#21 ++ 0b000#3 ++ 0b00000011#8) = .blkEnc := by decide
theorem test_decode_blkDec : decode (0#21 ++ 0b000#3 ++ 0b00000100#8) = .blkDec := by decide
theorem test_decode_msgEnc : decode (0#21 ++ 0b000#3 ++ 0b00000101#8) = .msgEnc := by decide
theorem test_decode_msgDec : decode (0#21 ++ 0b110#3 ++ 0b00000110#8) = .msgDec 6#3 := by decide
theorem test_decode_illegal : decode (0#21 ++ 0b001#3 ++ 0b00000101#8) = .illegal 0x00000105#32 := by decide

/-- Words of spec/opcode_table.json in its own bit numbers, and the assembler text of 30_encoding.md rule R107. -/
theorem test_decode_table_words :
    decodeTableWord 32 0 = some .nop ∧ decodeTableWord 32 4 = some .blkDec ∧
    decodeTableWord 32 0x706 = some (.msgDec 7#3) ∧ decodeTableWord 32 7 = some (.illegal 7#32) ∧
    decodeTableWord 32 0x80000002 = some (.illegal 0x80000002#32) := by decide

theorem test_asm_text :
    asmText (.msgDec 6#3) = "MSG_DEC pad=6" ∧ asmText (.illegal 0x00000105#32) = ".word 0x00000105" := by decide

/-- Three bytes are no command word. -/
theorem test_decode_bytes_too_short : decodeBytes [0x00#8, 0x00#8, 0x06#8] = .error (.tooShort 3) := by decide

/-! Units (95_test_vectors.md sections 2 and 3) -/

theorem test_ip : permute 64 0x0123456789ABCDEF#64 Tables.fipsIP = 0xCC00CCFFF0AAF0AA#64 := by decide +kernel
theorem test_fp : permute 64 0x0A4CD99543423234#64 Tables.fipsFP = 0x85E813540F0AB405#64 := by decide +kernel
theorem test_e : permute 48 0x80000000#32 Tables.fipsE = 0x400000000001#48 := by decide +kernel
theorem test_p : permute 32 0x5C82B597#32 Tables.fipsP = 0x234AA9BB#32 := by decide +kernel
theorem test_pc1 : permute 56 0x133457799BBCDFF1#64 Tables.fipsPC1 = 0xF0CCAAF556678F#56 := by decide +kernel
theorem test_pc2 : permute 48 0xE19955FAACCF1E#56 Tables.fipsPC2 = 0x1B02EFFC7072#48 := by decide +kernel
theorem test_sba : sba Tables.fips 0x6117BA866527#48 = 0x5C82B597#32 := by decide +kernel
theorem test_f : feistelF Tables.fips 0xF0AAF0AA#32 0x1B02EFFC7072#48 = 0x234AA9BB#32 := by decide +kernel
theorem test_to_bits : toBits 16 [0x41#8, 0x80#8] = 0b0100000110000000#16 := by decide
theorem test_block_view :
    toBits 64 [0x54#8, 0x45#8, 0x53#8, 0x54#8, 0x44#8, 0x41#8, 0x54#8, 0x41#8] = 0x5445535444415441#64 := by
  decide +kernel

/-- Key schedule, 95_test_vectors.md section 2.2, rows 9 and 16. -/
theorem test_subkeys :
    subkey Tables.fips 0x133457799BBCDFF1#64 9 = 0xE0DBEBEDE781#48 ∧
    subkey Tables.fips 0x133457799BBCDFF1#64 16 = 0xCB3D8B0E17F5#48 ∧
    (keyHalvesAfter Tables.fips 0x133457799BBCDFF1#64 9).c = 0x557F866#28 := by decide +kernel

/-! States -/

/-- The key of 95_test_vectors.md. -/
def theKey : Block := 0x133457799BBCDFF1#64

/-- Reset, with the key written. -/
def keyed : State := { State.reset with key := theKey }

/-- The next state of a command, or the state itself if there is none. -/
def after (i : Instr) (s : State) : State :=
  match exec i s with
  | .next t => t
  | .fault _ => s
  | .refused _ => s

/-- The next state of a step, or the state itself if there is none. -/
def stepped (s : State) : State :=
  match step s with
  | .next t => t
  | .fault _ => s
  | .refused _ => s

theorem exec_after (i : Instr) (s : State) : exec i s = .next (after i s) := by
  obtain ⟨t, ht⟩ := exec_total i s
  simp only [after, ht]

/-- STATUS as the host reads it while not BUSY. -/
def statusOf (s : State) : Word := statusWord s.status s.status.ksv

/-- After KS_DERIVE of the key. -/
def scheduled : State := after .ksDerive keyed

/-- IN_BUF holds these bytes from index 0, and IN_LEN their number. -/
def loaded (bytes : List Byte) : State :=
  { keyed with inBuf := writeBytes [] 0 bytes, inLen := BitVec.ofNat 32 bytes.length }

/-- "HI". -/
def hi : State := loaded [0x48#8, 0x49#8]

/-- The ciphertext of "HI" (95_test_vectors.md section 1.2). -/
def hiCipher : List Byte := [0xE5#8, 0x06#8, 0xB6#8, 0x4F#8, 0x24#8, 0x5F#8, 0x2C#8, 0x17#8]

/-- A state whose message is `n` bytes long. -/
def ofLength (n : Nat) : State := { keyed with inLen := BitVec.ofNat 32 n }

/-- A host program on a state. -/
def hosted (lines : List HostLine) (s : State) : State := { s with host := { s.host with prog := lines } }

/-- KS_DERIVE accepted, `n` steps left. -/
def deriving17 : State := keyed.accept 0x00000002#32 17

/-- NOP accepted, its completion next. -/
def nopLast : State := keyed.accept 0x00000000#32 1

/-! One step of each command (95_test_vectors.md sections 2, 5, 6 and 7.2) -/

/-- Section 7.2: reset, NOP. -/
theorem test_nop_status : statusOf (stepped (State.reset.withFetchWord 32 0x0)) = 0x00000002#32 := by decide +kernel

/-- Section 7.2: after KS_DERIVE, NOP keeps KSV. -/
theorem test_nop_keeps_schedule : statusOf (after .nop scheduled) = 0x00000006#32 := by decide +kernel

/-- Section 7.2: after KS_DERIVE, CLEAR. -/
theorem test_clear_after_derive :
    statusOf (after .clear scheduled) = 0x00000002#32 ∧ rkHiWord (after .clear scheduled) 0 = 0x00000000#32 ∧
    (after .clear scheduled).key = theKey := by decide +kernel

/-- Section 8.5: CLEAR masks OUT_BUF through OUT_LEN, and its storage stays. -/
theorem test_clear_masks_outBuf :
    maskedOutByte (after .clear (after .msgEnc hi)) 0 = 0x00#8 ∧
    readOutByte (after .clear (after .msgEnc hi)) 0 = 0xE5#8 := by decide +kernel

/-- Section 2.2: the RK window after KS_DERIVE, and STATUS. -/
theorem test_ksDerive_window :
    rkHiWord scheduled 0 = 0x00001B02#32 ∧ rkLoWord scheduled 0 = 0xEFFC7072#32 ∧
    rkHiWord scheduled 15 = 0x0000CB3D#32 ∧ rkLoWord scheduled 15 = 0x8B0E17F5#32 ∧
    statusOf scheduled = 0x00000006#32 := by decide +kernel

/-- Section 8.1: C and D after KS_DERIVE. -/
theorem test_ksDerive_halves : scheduled.c = 0xF0CCAAF#28 ∧ scheduled.d = 0x556678F#28 := by decide +kernel

/-- Section 2.1, row 1, and section 2.3, the halves after round 16. -/
theorem test_blkEnc_known_answer :
    (after .blkEnc { scheduled with din := 0x0123456789ABCDEF#64 }).dout = 0x85E813540F0AB405#64 ∧
    (after .blkEnc { scheduled with din := 0x0123456789ABCDEF#64 }).l = 0x43423234#32 ∧
    (after .blkEnc { scheduled with din := 0x0123456789ABCDEF#64 }).r = 0x0A4CD995#32 := by decide +kernel

/-- Section 7.2: reset, BLK_ENC. -/
theorem test_blkEnc_no_schedule :
    statusOf (stepped (State.reset.withFetchWord 32 0x3)) = 0x00000702#32 := by decide +kernel

/-- Section 8.1: BLK_DEC, and its halves of section 2.4. -/
theorem test_blkDec_known_answer :
    (after .blkDec { scheduled with din := 0x85E813540F0AB405#64 }).dout = 0x0123456789ABCDEF#64 ∧
    (after .blkDec { scheduled with din := 0x85E813540F0AB405#64 }).l = 0xF0AAF0AA#32 ∧
    (after .blkDec { scheduled with din := 0x85E813540F0AB405#64 }).r = 0xCC00CCFF#32 := by decide +kernel

/-- Section 4.2: for a weak key BLK_DEC is BLK_ENC. -/
theorem test_blkDec_weak_key :
    (after .blkDec { after .ksDerive { keyed with key := 0xE0E0E0E0F1F1F1F1#64 } with
      din := 0x0123456789ABCDEF#64 }).dout = 0xEE600BC06FC9EF23#64 := by decide +kernel

/-- Section 1.2: MSG_ENC of "HI". -/
theorem test_msgEnc_hi :
    (List.range 8).map (maskedOutByte (after .msgEnc hi)) = hiCipher ∧
    (after .msgEnc hi).outLen = 8#32 ∧ (after .msgEnc hi).padOut = 6#3 ∧
    statusOf (after .msgEnc hi) = 0x00000002#32 := by decide +kernel

/-- Section 6.4: the lengths MSG_ENC refuses. -/
theorem test_msgEnc_errors :
    statusOf (after .msgEnc (ofLength 0)) = 0x00000102#32 ∧
    statusOf (after .msgEnc (ofLength 4097)) = 0x00000902#32 ∧
    statusOf (after .msgEnc (ofLength 0xFFFFFFFF)) = 0x00000902#32 ∧
    statusOf (after .msgEnc { scheduled with inLen := 0#32 }) = 0x00000106#32 := by decide +kernel

/-- Section 1.2: MSG_DEC pad=6 of that ciphertext; section 8.2: OUT_BUF[2] in storage is what was there. -/
theorem test_msgDec_hi :
    (List.range 8).map (maskedOutByte (after (.msgDec 6#3) { loaded hiCipher with outBuf := writeBytes [] 0 hiCipher }))
      = [0x48#8, 0x49#8, 0x00#8, 0x00#8, 0x00#8, 0x00#8, 0x00#8, 0x00#8] ∧
    readOutByte (after (.msgDec 6#3) { loaded hiCipher with outBuf := writeBytes [] 0 hiCipher }) 2 = 0xB6#8 := by
  decide +kernel

/-- Section 6.2: the errors of MSG_DEC, and the empty message. -/
theorem test_msgDec_errors :
    statusOf (after (.msgDec 0#3) (ofLength 0)) = 0x00000002#32 ∧
    statusOf (after (.msgDec 3#3) (ofLength 0)) = 0x00000802#32 ∧
    statusOf (after (.msgDec 0#3) (ofLength 5)) = 0x00000202#32 ∧
    statusOf (after (.msgDec 0#3) (ofLength 4097)) = 0x00000902#32 ∧
    statusOf (after (.msgDec 0#3) (ofLength 4104)) = 0x00000902#32 := by decide +kernel

/-- Section 7.2: reset, .word 0x00000007; CMD reads the word. -/
theorem test_illegal_status :
    statusOf (stepped (State.reset.withFetchWord 32 0x7)) = 0x00000602#32 ∧
    readWord (stepped (State.reset.withFetchWord 32 0x7)) .cmd = 0x00000007#32 := by decide +kernel

/-- Section 7.2: after KS_DERIVE, .word 0x00000007 keeps KSV. -/
theorem test_illegal_keeps_schedule :
    statusOf (after (.illegal 0x00000007#32) scheduled) = 0x00000606#32 := by decide +kernel

/-! The sequencer and the host port (95_test_vectors.md sections 7.3, 7.5; 70_reset_and_hazards.md rule R296) -/

/-- The reference latencies of rule R296. -/
theorem test_reference_latencies :
    latency 0x00000000#32 keyed = 1 ∧ latency 0x00000002#32 keyed = 17 ∧ latency 0x00000003#32 keyed = 1 ∧
    latency 0x00000003#32 { keyed with status := { keyed.status with ksv := true } } = 18 ∧
    latency 0x00000005#32 hi = 37 ∧ latency 0x00000005#32 (ofLength 0) = 1 := by decide +kernel

/-- Ruling U7 of spec/93_implementation_defined.md: LAT may depend on the message bytes; here "HI" takes 50 steps and
another message of its length the 37 of rule R296. -/
theorem test_latency_by_message_bytes :
    latLookup ⟨0x5#32, theKey, 0#64, 2#32, [0x48#8, 0x49#8], Vector.replicate 16 0#48, false⟩ 37
      [(⟨0x5#32, theKey, 0#64, 2#32, [0x48#8, 0x49#8], Vector.replicate 16 0#48, false⟩, 50)] = 50 ∧
    latLookup ⟨0x5#32, theKey, 0#64, 2#32, [0x48#8, 0x4A#8], Vector.replicate 16 0#48, false⟩ 37
      [(⟨0x5#32, theKey, 0#64, 2#32, [0x48#8, 0x49#8], Vector.replicate 16 0#48, false⟩, 50)] = 37 := by decide +kernel

/-- 20_memory.md rule R72 and ruling U5: the bytes past the message are none of LAT's inputs. -/
theorem test_latency_reads_the_message_alone :
    (latInput 0x00000005#32 hi).inBuf = [0x48#8, 0x49#8] ∧ inBufBytes (ofLength 0) = [] ∧
    inBufBytes { hi with inBuf := writeBytes hi.inBuf 2 [0xFF#8] } = [0x48#8, 0x49#8] := by decide +kernel

/-- The third running step of KS_DERIVE leaves C and D as row 2 of section 2.2. -/
theorem test_running_step_shows_halves :
    (stepped (stepped (stepped deriving17))).c = 0xC332ABF#28 ∧
    (stepped (stepped (stepped deriving17))).remain = 14 := by decide +kernel

/-- Section 7.5: a misaligned read is an ERROR that faults the host. -/
theorem test_misaligned_read_faults :
    memRead State.reset 0x00002#18 4 = none ∧
    step (hosted [.read 0x00002#18 4 none] State.reset) = .fault (.busError 0x00002#18 4) :=
  ⟨rfl, by rw [step_of_wf test_default_config_wf]; rfl⟩

/-- Section 7.5: reserved and read-only writes, and a KEY_LO write while BUSY. -/
theorem test_ignored_writes :
    memRead State.reset 0x00034#18 4 = some (0x00000000#32, State.reset) ∧
    memWrite keyed 0x00020#18 4 0xFFFFFFFF#32 = some keyed ∧
    memWrite keyed 0x20000#18 4 0xFFFFFFFF#32 = some keyed ∧
    memWrite deriving17 0x00014#18 4 0x00000000#32 =
      some { deriving17 with status := { deriving17.status with bwe := true } } := by decide +kernel

/-- Section 7.3: irq across the completion and the STATUS write of 0x2. -/
theorem test_irq_sequence :
    ({ nopLast with ctrlIE := true } : State).irq = false ∧ (stepped { nopLast with ctrlIE := true }).irq = true ∧
    ((stepped { nopLast with ctrlIE := true }).writeStatus 0x2#32).irq = false := by decide +kernel

/-- 60_exceptions.md rule R262: a host that waits for irq stays while irq is 0 and goes on when it is 1. -/
theorem test_wait_for_irq :
    (stepped (hosted (pseudoRunIrq .nop) (keyed.atLine 1))).host.line = 1 ∧
    (stepped (hosted (pseudoRunIrq .nop) { (keyed.complete .none).atLine 1 with ctrlIE := true })).host.line = 2 := by
  decide +kernel

/-- 30_encoding.md rule R109: LOADMSG 48 49 (95_test_vectors.md section 8.2). -/
theorem test_loadmsg :
    pseudoLoadMsg [0x48#8, 0x49#8] =
      [.write 0x10000#18 4 (.literal 0x48490000#32), .write 0x00028#18 4 (.literal 0x00000002#32)] := by
  decide +kernel

/-- Section 8.4: the KEY_LO write races with the completion; both turns are possible from one state. -/
theorem test_write_races_with_completion :
    (stepped (hosted [lineW .keyLo 0#32] { keyed.accept 0x2#32 1 with schedule := [.host] })).status.bwe = true ∧
    (stepped (hosted [lineW .keyLo 0#32] { keyed.accept 0x2#32 1 with schedule := [.sequencer] })).status.busy = false := by
  decide +kernel

/-! Witnesses: a concrete state and operands that meet the hypotheses of each statement -/

theorem keyed_wf : keyed.cfg.wf = true := test_default_config_wf

/-- A step under the default parameters. -/
theorem step_default {s : State} (h : s.cfg = Config.default) : step s = agentStep (nextTurn s) s.popTurn :=
  step_of_wf (by rw [h]; exact test_default_config_wf)

theorem witness_LegalWordsAreTheFourteen : legal 0x00000105#32 = false ∧ legal 0x00000706#32 = true := by decide

theorem witness_DecodeOfEncode : (Instr.msgDec 7#3).wf = true ∧ (Instr.illegal 0xFFFFFFFF#32).wf = true := by decide

theorem witness_StepRunsAcceptedCommand :
    nopLast.cfg.wf = true ∧ SequencerNext nopLast ∧ nopLast.status.busy = true ∧ nopLast.remain = 1 :=
  ⟨keyed_wf, rfl, rfl, rfl⟩

theorem witness_FetchedWordRunsNext : keyed.cfg.wf = true := keyed_wf

theorem witness_IllFormedConfigurationIsRefused :
    ({ keyed with cfg := { Config.default with maxMsgBytes := 12 } } : State).cfg.wf = false ∧
    keyed.cfg.wf = true := by decide +kernel

/-- A reset while a command runs. -/
theorem witness_ResetStepRestoresRegisters :
    ({ deriving17 with schedule := [.reset] } : State).cfg.wf = true ∧
    nextTurn { deriving17 with schedule := [.reset] } = .reset := ⟨keyed_wf, rfl⟩

/-- A state with a command running that has the invariant. -/
theorem deriving17_inv : deriving17.Inv where
  inBuf_wf := ⟨List.Pairwise.nil, by simp [deriving17, keyed, State.reset]⟩
  outBuf_wf := ⟨List.Pairwise.nil, by simp [deriving17, keyed, State.reset]⟩
  outLen_le := Nat.zero_le _
  out_written := fun j hj => absurd hj (Nat.not_lt_zero j)
  running := fun _ => ⟨by decide, rfl, rfl⟩
  idle := fun h => by cases h
  schedule_held := fun h => by cases h
  schedule_clear := fun _ => rfl
  errCode_used := by decide
  rnd_le := by decide
  names_rising := List.Pairwise.nil

theorem deriving17_step : step deriving17 = .next (runningStep deriving17) :=
  (step_default rfl).trans rfl

theorem witness_StepKeepsInvariant : deriving17.Inv ∧ step deriving17 = .next (runningStep deriving17) :=
  ⟨deriving17_inv, deriving17_step⟩

theorem witness_StepKeepsConfiguration : step deriving17 = .next (runningStep deriving17) := deriving17_step

theorem witness_SequencerLeavesHostInputs :
    SequencerNext deriving17 ∧ step deriving17 = .next (runningStep deriving17) := ⟨rfl, deriving17_step⟩

/-- Acceptance, completion and reset each change BUSY. -/
theorem witness_OnlyAcceptanceCompletionResetChangeBusy :
    (∃ t, step (hosted [lineCommand .ksDerive] keyed) = .next t ∧ t.status.busy ≠ keyed.status.busy) ∧
    (∃ t, step nopLast = .next t ∧ t.status.busy ≠ nopLast.status.busy) ∧
    (∃ t, step { nopLast with schedule := [.reset] } = .next t ∧ t.status.busy ≠ nopLast.status.busy) :=
  ⟨⟨(issue 0x00000002#32 (hosted [lineCommand .ksDerive] keyed)).answered .written,
      (step_default rfl).trans rfl, by decide⟩,
    ⟨nopLast.complete .none, (step_default rfl).trans rfl, by decide⟩,
    ⟨keyed.resetBlock, (step_default rfl).trans rfl, by decide⟩⟩

theorem scheduled_ksv : scheduled.status.ksv = true := rfl

theorem witness_BlkEncCompletes : scheduled.status.ksv = true := scheduled_ksv
theorem witness_BlkDecCompletes : scheduled.status.ksv = true := scheduled_ksv
theorem witness_BlockCommandsNeedSchedule : keyed.status.ksv = false := rfl
theorem witness_BlockCommandsUseHeldSchedule : Instr.blkDec = .blkEnc ∨ Instr.blkDec = .blkDec := .inr rfl

/-- The shortest and the longest message. -/
theorem witness_MsgEncCompletes :
    (ofLength 1).cfg.wf = true ∧ 0 < (ofLength 1).inLen.toNat ∧
    (ofLength 4096).inLen.toNat ≤ (ofLength 4096).cfg.maxMsgBytes ∧ 0 < (ofLength 4096).inLen.toNat ∧
    (ofLength 1).inLen.toNat ≤ (ofLength 1).cfg.maxMsgBytes :=
  ⟨keyed_wf, by decide, by decide, by decide, by decide⟩

theorem witness_MsgEncErrors :
    (ofLength 4097).cfg.maxMsgBytes < (ofLength 4097).inLen.toNat ∧ (ofLength 0).inLen.toNat = 0 := by decide

/-- The empty ciphertext, and the longest with the most padding. -/
theorem witness_MsgDecCompletes :
    (ofLength 0).cfg.wf = true ∧ (ofLength 0).inLen.toNat ≤ (ofLength 0).cfg.maxMsgBytes ∧
    (ofLength 0).inLen.toNat % 8 = 0 ∧ (0#3).toNat ≤ (ofLength 0).inLen.toNat ∧
    (ofLength 4096).inLen.toNat ≤ (ofLength 4096).cfg.maxMsgBytes ∧ (ofLength 4096).inLen.toNat % 8 = 0 ∧
    (7#3).toNat ≤ (ofLength 4096).inLen.toNat :=
  ⟨keyed_wf, by decide, by decide, by decide, by decide, by decide, by decide⟩

theorem witness_MsgDecErrors :
    (ofLength 4097).cfg.maxMsgBytes < (ofLength 4097).inLen.toNat ∧
    ((ofLength 5).inLen.toNat ≤ (ofLength 5).cfg.maxMsgBytes ∧ (ofLength 5).inLen.toNat % 8 ≠ 0) ∧
    ((ofLength 0).inLen.toNat ≤ (ofLength 0).cfg.maxMsgBytes ∧ (ofLength 0).inLen.toNat % 8 = 0 ∧
      (ofLength 0).inLen.toNat < (1#3).toNat) ∧
    ((ofLength 4097).cfg.wf = true ∧ (ofLength 4097).inLen.toNat = (ofLength 4097).cfg.maxMsgBytes + 1) :=
  ⟨by decide, ⟨by decide, by decide⟩, ⟨by decide, by decide, by decide⟩, ⟨keyed_wf, by decide⟩⟩

theorem witness_ErrorCodesOfCommands : exec .blkEnc keyed = .next (keyed.complete .noSchedule) := rfl

theorem witness_RotateLeftMovesFirstBitsToEnd : 27 < 28 ∧ 1 ≤ 28 ∧ Tables.fips.wf = true ∧ 1 ≤ 16 ∧ 16 ≤ 16 := by
  decide +kernel

theorem witness_DefaultHalvesReturn :
    ({ Tables.fips with e := [] } : Tables).shifts = Tables.fipsSHIFTS ∧ ({ Tables.fips with e := [] } : Tables) ≠ Tables.fips := by
  decide +kernel

theorem witness_FpInvertsIp : Tables.fips.wf = true ∧ 63 < 64 := by decide +kernel

/-- Two keys that differ in every parity bit and in no other (95_test_vectors.md section 4.2). -/
theorem witness_ParityBitsReachNoSubkey :
    (∀ i < 64, i % 8 ≠ 7 → theKey.getMsbD i = (0x123556789ABDDEF0#64).getMsbD i) ∧
    theKey ≠ 0x123556789ABDDEF0#64 := by decide +kernel

theorem witness_SboxLanesAreIndependent : 0 < 8 ∧ 7 < 8 := by decide

/-- A subkey under which f of a zero half is zero. -/
theorem witness_RoundIsInvertible : feistelF Tables.fips 0#32 0x0530884D00D9#48 = 0#32 := by decide +kernel

theorem witness_DecodingInvertsEncoding :
    permTableWf 64 64 Tables.fips.ip = true ∧ permTableWf 64 64 Tables.fips.fp = true ∧
    undoes Tables.fips.fp Tables.fips.ip = true ∧ undoes Tables.fips.ip Tables.fips.fp = true := by decide +kernel

theorem witness_ComplementationProperty : Tables.fips.wf = true ∧ keyed.cfg.wf = true := by decide +kernel

/-- After MSG_ENC of "HI", its ciphertext copied into IN_BUF. -/
def hiCopied : State :=
  { after .msgEnc hi with inBuf := writeBytes [] 0 hiCipher, inLen := (after .msgEnc hi).outLen }

/-- "HI" encoded, and its ciphertext copied into IN_BUF. -/
theorem witness_MessageRoundTrip :
    hi.cfg.wf = true ∧ 1 ≤ hi.inLen.toNat ∧ hi.inLen.toNat ≤ hi.cfg.maxMsgBytes ∧
    exec .msgEnc hi = .next (after .msgEnc hi) ∧ hiCopied.cfg = hi.cfg ∧ hiCopied.key = hi.key ∧
    hiCopied.inLen = (after .msgEnc hi).outLen ∧
    (∀ j < (after .msgEnc hi).outLen.toNat, readInByte hiCopied j = readOutByte (after .msgEnc hi) j) :=
  ⟨keyed_wf, by decide, by decide, exec_after _ _, (exec_frame (exec_after .msgEnc hi)).cfg,
    (exec_frame (exec_after .msgEnc hi)).key, rfl, by decide +kernel⟩

/-- "HI" in a state with another DIN and another IN_BUF past the message. -/
def hiElsewhere : State := { hi with din := 1#64, inBuf := writeBytes hi.inBuf 2 [0xFF#8] }

/-- The same message in two states that differ in DIN and in IN_BUF past the message. -/
theorem witness_EncodingIsDeterministic :
    hi.cfg = hiElsewhere.cfg ∧ hi.key = hiElsewhere.key ∧ SameMessage hi hiElsewhere ∧
    exec .msgEnc hi = .next (after .msgEnc hi) ∧ exec .msgEnc hiElsewhere = .next (after .msgEnc hiElsewhere) :=
  ⟨rfl, rfl, ⟨rfl, by decide +kernel⟩, exec_after _ _, exec_after _ _⟩

/-- A ciphertext of two blocks with `b` in byte 8. -/
def twoBlocks (b : Byte) : State := { ofLength 16 with inBuf := [(8, b)] }

/-- Two ciphertexts of two blocks that differ in byte 8, and MSG_DEC pad=7 of each. -/
theorem witness_BlocksAreIndependent :
    (twoBlocks 0x91#8).cfg = (twoBlocks 0x90#8).cfg ∧ (twoBlocks 0x91#8).key = (twoBlocks 0x90#8).key ∧
    (twoBlocks 0x91#8).inLen = (twoBlocks 0x90#8).inLen ∧
    (∀ j, j / 8 ≠ 1 → readInByte (twoBlocks 0x91#8) j = readInByte (twoBlocks 0x90#8) j) ∧
    exec (.msgDec 7#3) (twoBlocks 0x91#8) = .next (after (.msgDec 7#3) (twoBlocks 0x91#8)) ∧
    exec (.msgDec 7#3) (twoBlocks 0x90#8) = .next (after (.msgDec 7#3) (twoBlocks 0x90#8)) := by
  refine ⟨rfl, rfl, rfl, fun j hj => ?_, exec_after _ _, exec_after _ _⟩
  have : j ≠ 8 := by rintro rfl; exact hj rfl
  simp [twoBlocks, readInByte, cellRead, this]

/-- The third part: "HI" in two states that differ past the message. -/
theorem witness_CmdWriteAcceptsAnyWord : keyed.cfg.wf = true ∧ keyed.status.busy = false ∧
    SameMessage hi { hi with inBuf := writeBytes hi.inBuf 2 [0xFF#8] } ∧
    readInByte { hi with inBuf := writeBytes hi.inBuf 2 [0xFF#8] } 2 = 0xFF#8 :=
  ⟨keyed_wf, rfl, ⟨rfl, by decide +kernel⟩, by decide +kernel⟩

theorem witness_RunningStepsAreInvisible :
    deriving17.cfg.wf = true ∧ SequencerNext deriving17 ∧ deriving17.status.busy = true ∧ 1 < deriving17.remain :=
  ⟨keyed_wf, rfl, rfl, by decide⟩

theorem witness_CommandCompletesAfterRemainSteps :
    deriving17.cfg.wf = true ∧ deriving17.status.busy = true ∧ 1 ≤ deriving17.remain ∧ deriving17.schedule = [] :=
  ⟨keyed_wf, rfl, by decide, rfl⟩

/-- NOP accepted, two steps left, with a KEY_LO write of the host between them. -/
def interleaved : State :=
  hosted [lineW .keyLo 0#32] { keyed.accept 0x00000000#32 2 with schedule := [.sequencer, .host, .sequencer] }

/-- The states of that run. -/
def interleaved1 : State := runningStep interleaved.popTurn
def interleaved2 : State := interleaved1.popTurn.busyWrite.answered .written
def interleaved3 : State := interleaved2.popTurn.complete .none

/-- The second part: two turns of three are running (BUSY), and the third completes. -/
theorem witness_CommandCompletesAfterRemainSteps_interleaved :
    interleaved.cfg.wf = true ∧ interleaved.status.busy = true ∧ 1 ≤ interleaved.remain ∧
    .reset ∉ interleaved.schedule.take 3 ∧ Sys2Proof.core.run 3 interleaved = .next interleaved3 ∧
    Sys2Proof.core.run 2 interleaved = .next interleaved2 ∧
    sequencerTurns interleaved 2 < interleaved.remain ∧ sequencerTurns interleaved 3 = interleaved.remain := by
  have h1 : Sys2Proof.core.step interleaved = .next interleaved1 :=
    show step interleaved = .next interleaved1 from (step_default rfl).trans rfl
  have h2 : Sys2Proof.core.step interleaved1 = .next interleaved2 :=
    show step interleaved1 = .next interleaved2 from (step_default rfl).trans rfl
  have h3 : Sys2Proof.core.step interleaved2 = .next interleaved3 :=
    show step interleaved2 = .next interleaved3 from (step_default rfl).trans rfl
  refine ⟨keyed_wf, rfl, by decide, by decide, ?_, ?_, by decide, by decide⟩
  · simp only [Host.Core.run, h1, h2, h3]
  · simp only [Host.Core.run, h1, h2]

/-- A misaligned read and a 16-bit write of an aligned offset. -/
theorem witness_IllegalAccessFaultsHost :
    ((0x00002#18).toNat % 4 ≠ 0 ∨ 4 ≠ 4) ∧ ((0x00014#18).toNat % 4 ≠ 0 ∨ 2 ≠ 4) ∧
    (hosted [.read 0x00002#18 4 none] keyed).cfg.wf = true ∧
    nextTurn (hosted [.read 0x00002#18 4 none] keyed) = .host ∧
    nextTurn (hosted [.write 0x00014#18 2 (.literal 1#32)] keyed) = .host ∧
    (hosted [.read 0x00002#18 4 none] keyed).host.prog[0]? = some (.read 0x00002#18 4 none) ∧
    (hosted [.write 0x00014#18 2 (.literal 1#32)] keyed).host.prog[0]? =
      some (.write 0x00014#18 2 (.literal 1#32)) ∧
    (hostValue keyed (.literal 1#32)).isSome = true :=
  ⟨by decide, by decide, keyed_wf, rfl, rfl, rfl, rfl, rfl⟩

/-- Both ends of every reserved range, with MAX_MSG_BYTES = 4096. -/
theorem witness_ReservedOffsetsReadZero :
    keyed.cfg.wf = true ∧ keyed.cfg.maxMsgBytes = 4096 ∧
    ∀ n ∈ [0x34, 0xFC, 0x180, 0xFFFC, 0x11000, 0x1FFFC, 0x21000, 0x2FFFC, 0x30000, 0x3FFFC],
      (BitVec.ofNat 18 n).toNat = n ∧ n % 4 = 0 ∧
      (0x34 ≤ n ∧ n < 0x100 ∨ 0x180 ≤ n ∧ n < 0x10000 ∨ 0x10000 + 4096 ≤ n ∧ n < 0x20000 ∨
        0x20000 + 4096 ≤ n ∧ n < 0x30000 ∨ 0x30000 ≤ n) :=
  ⟨keyed_wf, rfl, by decide⟩

/-- The read-only offsets, the ends of the two read-only windows among them. -/
theorem witness_ReadOnlyWritesIgnored :
    keyed.cfg.wf = true ∧ keyed.cfg.maxMsgBytes = 4096 ∧
    ∀ n ∈ [0x0C, 0x20, 0x24, 0x2C, 0x30, 0x100, 0x17C, 0x20000, 0x20FFC],
      (BitVec.ofNat 18 n).toNat = n ∧ n % 4 = 0 ∧
      (n = 0x0C ∨ n = 0x20 ∨ n = 0x24 ∨ n = 0x2C ∨ n = 0x30 ∨ 0x100 ≤ n ∧ n < 0x180 ∨
        0x20000 ≤ n ∧ n < 0x20000 + 4096) :=
  ⟨keyed_wf, rfl, by decide⟩

/-- The offsets the busy-write rule names, the ends of the IN_BUF window among them, in a busy and an idle state. -/
theorem witness_BusyWriteRule :
    deriving17.cfg.wf = true ∧ deriving17.status.busy = true ∧ keyed.status.busy = false ∧
    ∀ n ∈ [0x08, 0x10, 0x14, 0x18, 0x1C, 0x28, 0x10000, 0x10FFC],
      (BitVec.ofNat 18 n).toNat = n ∧ n % 4 = 0 ∧
      (n = 0x08 ∨ 0x10 ≤ n ∧ n ≤ 0x1C ∨ n = 0x28 ∨ 0x10000 ≤ n ∧ n < 0x10000 + 4096) :=
  ⟨keyed_wf, rfl, rfl, by decide⟩

/-- A busy state with something in every result register. -/
def otherResults : State :=
  { deriving17 with dout := 1#64, outLen := 1#32, padOut := 1#3, rk := Vector.replicate 16 1#48
                    outBuf := [(0, 1#8)], status := { deriving17.status with ksv := true } }

/-- Two busy states that differ in every result register. -/
theorem witness_BusyReadsRevealNoResult :
    deriving17.status.busy = true ∧
    otherResults = { deriving17 with
      dout := otherResults.dout, outLen := otherResults.outLen, padOut := otherResults.padOut
      rk := otherResults.rk, outBuf := otherResults.outBuf
      status := { deriving17.status with ksv := otherResults.status.ksv } } ∧
    otherResults.dout ≠ deriving17.dout ∧ deriving17.Inv :=
  ⟨rfl, rfl, by decide, deriving17_inv⟩

theorem witness_ReadsHaveNoSideEffect :
    memRead keyed 0x00010#18 4 = some (0x13345779#32, keyed) ∧ keyed.status.busy = false ∧
    (∃ r, memRead deriving17 0x00020#18 4 = some r) := ⟨rfl, rfl, ⟨_, rfl⟩⟩

theorem witness_SixtyFourBitViews : keyed.status.busy = false := rfl

/-- The names 0 and 1 of a GETDOUT -> y, bound to the words of a ciphertext. -/
def named : State := (keyed.bind 0 0x85E81354#32).bind 1 0x0F0AB405#32

/-- GETDOUT -> y, SETKEY and SETDIN at the host's turn, of a literal and of `y`. -/
theorem witness_SixtyFourBitViews_names :
    keyed.cfg.wf = true ∧ keyed.status.busy = false ∧ 0 ≠ 1 ∧
    NextTwoLines (hosted (pseudoGetDout 0 1) keyed) (pseudoGetDout 0 1) ∧
    cellRead named.host.names 0 = some 0x85E81354#32 ∧ cellRead named.host.names 1 = some 0x0F0AB405#32 ∧
    hostBlock named (.names 0 1) = some 0x85E813540F0AB405#64 ∧
    hostBlock keyed (.literal theKey) = some theKey ∧
    NextTwoLines (hosted (pseudoSetKey (.literal theKey)) keyed) (pseudoSetKey (.literal theKey)) ∧
    NextTwoLines (hosted (pseudoSetDin (.names 0 1)) named) (pseudoSetDin (.names 0 1)) :=
  ⟨keyed_wf, rfl, by decide, ⟨rfl, rfl, rfl, rfl, rfl⟩, rfl, rfl, by decide, rfl, ⟨rfl, rfl, rfl, rfl, rfl⟩,
    ⟨rfl, rfl, rfl, rfl, rfl⟩⟩

/-- The last word of the window. -/
theorem witness_InBufWordWrite :
    keyed.cfg.wf = true ∧ keyed.status.busy = false ∧ 4 * 1023 < keyed.cfg.maxMsgBytes :=
  ⟨keyed_wf, rfl, by decide⟩

theorem witness_OutBufReadIsMasked :
    keyed.cfg.wf = true ∧ keyed.status.busy = false ∧ 4 * 1023 < keyed.cfg.maxMsgBytes :=
  ⟨keyed_wf, rfl, by decide⟩

theorem witness_RkWindowRead : 1 ≤ 1 ∧ 16 ≤ 16 ∧ scheduled.status.busy = false := ⟨by decide, by decide, rfl⟩

theorem witness_IrqFollowsDone :
    exec .nop keyed = .next (keyed.complete .none) ∧ (0x00000002#32).getLsbD 1 = true ∧
    memWrite scheduled 0x00004#18 4 0x00000002#32 = some (scheduled.writeStatus 0x00000002#32) :=
  ⟨rfl, by decide, rfl⟩

theorem witness_StepFaultsExactlyOnUnsafeLine :
    keyed.cfg.wf = true ∧ nextTurn (hosted [.read 0x00002#18 4 none] keyed) = .host ∧
    hostLineSafe (hosted [.read 0x00002#18 4 none] keyed) (.read 0x00002#18 4 none) = false :=
  ⟨keyed_wf, rfl, rfl⟩

/-- The WAIT of 30_encoding.md rule R109, its name bound. -/
theorem witness_CleanHostNeverStops :
    (hosted (pseudoRun 0 .ksDerive 0) (keyed.bind 0 0#32)).cfg.wf = true ∧
    (hosted (pseudoRun 0 .ksDerive 0) (keyed.bind 0 0#32)).HostClean :=
  ⟨keyed_wf, by unfold State.HostClean; decide +kernel⟩

theorem witness_SettledRegisterReads : scheduled.status.busy = false ∧ scheduled.status.done = true := ⟨rfl, rfl⟩

/-- A state with CTRL.IE = 1 and a completion that is not acknowledged. -/
def pending : State := { keyed.complete .none with ctrlIE := true }

/-- The invariant of that state. -/
theorem pending_inv : pending.Inv where
  inBuf_wf := ⟨List.Pairwise.nil, by simp [pending, keyed, State.complete, State.reset]⟩
  outBuf_wf := ⟨List.Pairwise.nil, by simp [pending, keyed, State.complete, State.reset]⟩
  outLen_le := Nat.zero_le _
  out_written := fun j hj => absurd hj (Nat.not_lt_zero j)
  running := fun h => by cases h
  idle := fun _ => rfl
  schedule_held := fun h => by cases h
  schedule_clear := fun _ => rfl
  errCode_used := by decide
  rnd_le := by decide
  names_rising := List.Pairwise.nil

/-- Each kind of line at the host's turn, a write of a bound name among them, and an ended program. -/
theorem witness_HostTurnRunsLine :
    keyed.cfg.wf = true ∧ nextTurn keyed = .host ∧ keyed.host.prog[keyed.host.line]? = none ∧
    (0x10FFC#18).toNat % 4 = 0 ∧
    (hosted [.write 0x10FFC#18 4 (.name 7)] (keyed.bind 7 5#32)).host.prog[0]? = some (.write 0x10FFC#18 4 (.name 7)) ∧
    cellRead (keyed.bind 7 5#32).host.names 7 = some 5#32 ∧
    (hosted [lineR .status 7] keyed).host.prog[0]? = some (.read 0x00004#18 4 (some 7)) ∧
    (hosted [.read 0x00004#18 4 none] keyed).host.prog[0]? = some (.read 0x00004#18 4 none) ∧
    (hosted [.bnz 7 1#32 0] keyed).host.prog[0]? = some (.bnz 7 1#32 0) ∧
    (hosted [.waitIrq] keyed).host.prog[0]? = some .waitIrq ∧ nextTurn (hosted [.waitIrq] keyed) = .host ∧
    pending.Inv ∧ pending.irq = true :=
  ⟨keyed_wf, rfl, rfl, by decide, rfl, rfl, rfl, rfl, rfl, rfl, rfl, pending_inv, rfl⟩

end Sys2Proof.Tests
end

section
/-!
SUPPORT. No agent's step is refused (60_exceptions.md rule R252), and what the latency of a word depends on
(00_scope.md rule R7, 20_memory.md rule R72).
-/

namespace Sys2Proof.Machine

open Sys2Proof.Claims

/-! The refusals of a step (41_bit_vector_and_permutation.md rule R156) -/

theorem sequencerStep_ne_refused (s : State) (r : Refusal) : sequencerStep s ≠ .refused r := by
  rcases sequencerStep_cases s with ⟨_, e⟩ | ⟨_, _, e⟩ | ⟨_, _, e⟩
  · simp [e]
  · simp [e]
  · obtain ⟨t, ht⟩ := exec_total (decode s.cmd) s
    simp [e, ht]

theorem hostWrite_ne_refused (s : State) (offset : Offset) (bytes : Nat) (v : Word) (r : Refusal) :
    hostWrite s offset bytes v ≠ .refused r := by
  unfold hostWrite
  split <;> simp

theorem hostRead_ne_refused (s : State) (offset : Offset) (bytes : Nat) (name : Option Nat) (r : Refusal) :
    hostRead s offset bytes name ≠ .refused r := by
  unfold hostRead
  split
  · cases name <;> simp
  · simp

theorem hostLine_ne_refused (s : State) (line : HostLine) (r : Refusal) : hostLine s line ≠ .refused r := by
  cases line with
  | write offset bytes value =>
    simp only [hostLine]
    split
    · exact hostWrite_ne_refused s offset bytes _ r
    · simp
  | read offset bytes name => exact hostRead_ne_refused s offset bytes name r
  | bnz number mask label =>
    simp only [hostLine]
    split <;> simp
  | waitIrq => simp [hostLine]

theorem hostStep_ne_refused (s : State) (r : Refusal) : hostStep s ≠ .refused r := by
  unfold hostStep
  split
  · exact hostLine_ne_refused s _ r
  · simp

/-- No agent's step is refused: a refusal is the configuration check's alone. -/
theorem agentStep_ne_refused (turn : Turn) (s : State) (r : Refusal) : agentStep turn s ≠ .refused r := by
  cases turn with
  | host => exact hostStep_ne_refused s r
  | sequencer => exact sequencerStep_ne_refused s r
  | reset => simp [agentStep]

theorem step_of_not_wf {s : State} (h : s.cfg.wf = false) : step s = .refused .illFormedConfig := by
  simp [step, machineStep, h]

/-- The one refusal of a step, and when it is given. -/
theorem step_eq_refused_iff {s : State} {r : Refusal} :
    step s = .refused r ↔ s.cfg.wf = false ∧ r = .illFormedConfig := by
  cases h : s.cfg.wf
  · simp [step_of_not_wf h, eq_comm]
  · simp [step_of_wf h, agentStep_ne_refused]

/-! The latency of a word (40_command_sequencer.md rule R121) -/

/-- A lookup gives a listed latency or the default. -/
theorem le_latLookup {m default : Nat} {lat : List (LatInput × Nat)} (x : LatInput) (hd : m ≤ default)
    (hlat : ∀ entry ∈ lat, m ≤ entry.2) : m ≤ latLookup x default lat := by
  induction lat with
  | nil => exact hd
  | cons entry rest ih =>
    obtain ⟨hentry, hrest⟩ := List.forall_mem_cons.1 hlat
    unfold latLookup
    split
    · exact hentry
    · exact ih hrest

theorem one_le_messageLatency (check : ErrCode) (s : State) : 1 ≤ messageLatency check s := by
  unfold messageLatency
  split <;> omega

theorem one_le_referenceLatency (i : Instr) (s : State) : 1 ≤ referenceLatency i s := by
  cases i with
  | nop => exact le_rfl
  | clear => exact le_rfl
  | illegal _ => exact le_rfl
  | ksDerive => simp [referenceLatency]
  | blkEnc => simp only [referenceLatency]; split <;> omega
  | blkDec => simp only [referenceLatency]; split <;> omega
  | msgEnc => exact one_le_messageLatency _ s
  | msgDec _ => exact one_le_messageLatency _ s

/-- The listed latencies of a well-formed configuration are legal (00_scope.md rule R7). -/
theorem cfg_wf_lat {c : Config} (h : c.wf = true) : ∀ entry ∈ c.lat, 1 ≤ entry.2 := by
  simp only [Config.wf, Bool.and_eq_true, List.all_eq_true, decide_eq_true_eq] at h
  exact h.2

theorem one_le_latency (w : Word) {s : State} (h : s.cfg.wf = true) : 1 ≤ latency w s :=
  le_latLookup _ (one_le_referenceLatency _ s) (cfg_wf_lat h)

/-- The exception listed first decides the latency of its input. -/
theorem latency_of_lat_cons (w : Word) {s : State} {n : Nat} {rest : List (LatInput × Nat)}
    (h : s.cfg.lat = (latInput w s, n) :: rest) : latency w s = n := by
  simp [latency, h, latLookup]

/-- Equal messages give equal message bytes as far as IN_BUF goes. -/
theorem inBufBytes_congr {s t : State} (hcfg : s.cfg = t.cfg) (hmsg : SameMessage s t) :
    inBufBytes s = inBufBytes t := by
  obtain ⟨hlen, hbytes⟩ := hmsg
  unfold inBufBytes
  rw [← hcfg, ← hlen]
  refine List.map_congr_left fun j hj => hbytes j ?_
  have := List.mem_range.1 hj
  omega

/-- The reference latency depends on MAX_MSG_BYTES, KSV and IN_LEN alone (70_reset_and_hazards.md rule R296). -/
theorem referenceLatency_congr {s t : State} (i : Instr) (hcfg : s.cfg = t.cfg)
    (hksv : s.status.ksv = t.status.ksv) (hlen : s.inLen = t.inLen) :
    referenceLatency i s = referenceLatency i t := by
  have hblocks : blockCount s = blockCount t := by simp [blockCount, hlen]
  cases i with
  | blkEnc => simp [referenceLatency, hksv]
  | blkDec => simp [referenceLatency, hksv]
  | msgEnc =>
    have hcheck : encodeCheck s = encodeCheck t := by simp [encodeCheck, hcfg, hlen]
    simp [referenceLatency, messageLatency, hcheck, hblocks]
  | msgDec q =>
    have hcheck : decodeCheck q.toNat s = decodeCheck q.toNat t := by simp [decodeCheck, hcfg, hlen]
    simp [referenceLatency, messageLatency, hcheck, hblocks]
  | _ => rfl

/-- The latency depends on what a command reads and on the message, on no IN_BUF byte past it (20_memory.md
rule R72). -/
theorem latency_congr {s t : State} (w : Word) (hcfg : s.cfg = t.cfg) (hkey : s.key = t.key)
    (hdin : s.din = t.din) (hrk : s.rk = t.rk) (hksv : s.status.ksv = t.status.ksv) (hmsg : SameMessage s t) :
    latency w s = latency w t := by
  have ⟨hlen, _⟩ := hmsg
  have hinput : latInput w s = latInput w t := by
    simp [latInput, hkey, hdin, hrk, hksv, hlen, inBufBytes_congr hcfg hmsg]
  simp [latency, hinput, hcfg, referenceLatency_congr (decode w) hcfg hksv hlen]

/-- A CMD write while not BUSY is the issue of its word (20_memory.md rules R62, R67). -/
theorem memWrite_cmd {s : State} (hidle : s.status.busy = false) (w : Word) :
    memWrite s 0x00008#18 4 w = some (issue w s) := by
  have hlegal : legalAccess 0x00008#18 4 = true := by decide
  have htarget : target s 0x00008#18 = .cmd := target_register s (by decide)
  simp [memWrite, hlegal, htarget, writeWord, hidle, applyWrite]

end Sys2Proof.Machine

namespace Sys2Proof.Claims

open Sys2Proof.Machine

/-- Settles O7: no agent's step is refused, so a refusal is the configuration check's. -/
theorem illFormedConfigurationIsRefused : Obligations.IllFormedConfigurationIsRefused := by
  intro s
  constructor
  · simp [step_eq_refused_iff]
  · simp [step_eq_refused_iff]

/-- Settles O42: the write is the issue of the word, the latency is at least 1 in a well-formed configuration, an
exception listed first gives any latency, and the inputs of LAT hold the message alone. -/
theorem cmdWriteAcceptsAnyWord : Obligations.CmdWriteAcceptsAnyWord := by
  refine ⟨fun s w hwf hidle => ?_, fun s w n => ?_, fun s t w => latency_congr w⟩
  · exact ⟨issue w s, memWrite_cmd hidle w, rfl, one_le_latency w hwf, rfl, rfl⟩
  · exact latency_of_lat_cons w rfl

end Sys2Proof.Claims
end

section
/-!
SUPPORT. The invariant (Safety.lean) under each operation of the block and of the host: one lemma per operation, from
which the commands and the agents' steps are put together.
-/

namespace Sys2Proof.Machine

/-- A result code that is not one of the reserved ones (60_exceptions.md rule R250). -/
abbrev ErrCode.Reported (code : ErrCode) : Prop :=
  code ≠ .lengthMismatch ∧ code ≠ .index ∧ code ≠ .length

theorem ErrCode.none_reported : ErrCode.none.Reported := by decide

theorem encodeCheck_reported (s : State) : (encodeCheck s).Reported := by
  unfold encodeCheck
  split
  · decide
  · split <;> decide

theorem decodeCheck_reported (q : Nat) (s : State) : (decodeCheck q s).Reported := by
  unfold decodeCheck
  split
  · decide
  · split
    · decide
    · split <;> decide

/-! Buffers -/

/-- A run of bytes within the buffer keeps it in form (10_state.md rules R35, R36). -/
theorem BufferWf.writeBytes {max a : Nat} {m : Memory} {bytes : List Byte} (h : BufferWf max m)
    (hfits : a + bytes.length ≤ max) : BufferWf max (writeBytes m a bytes) where
  rising := writeBytes_rising h.rising a bytes
  bounded cell hc := by
    rcases mem_writeBytes hc with hold | hnew
    · exact h.bounded cell hold
    · omega

/-- A written byte stays written. -/
theorem isSome_cellRead_writeBytes {m : Memory} {j : Nat} (a : Nat) (bytes : List Byte)
    (h : (cellRead m j).isSome = true) : (cellRead (writeBytes m a bytes) j).isSome = true := by
  rw [cellRead_writeBytes]
  split
  · simp; omega
  · exact h

/-! The operations of the commands -/

variable {s t : State}

theorem State.Inv.complete (h : s.Inv) {code : ErrCode} (hcode : code.Reported) : (s.complete code).Inv :=
  { h with
    running := nofun
    idle := fun _ => rfl
    errCode_used := hcode }

theorem State.Inv.deriveSchedule (h : s.Inv) : s.deriveSchedule.Inv :=
  { h with
    schedule_held := fun _ => ⟨s.key, rfl⟩
    schedule_clear := nofun }

theorem State.Inv.discard (h : s.Inv) : s.discard.Inv :=
  { h with
    schedule_held := nofun
    schedule_clear := fun _ => rfl }

theorem State.Inv.storeResult (h : s.Inv) (y : Block) (l r : Half) : (s.storeResult y l r).Inv :=
  { h with }

theorem State.Inv.storeMessage (h : s.Inv) {bytes : List Byte} (hfits : bytes.length ≤ s.cfg.maxMsgBytes) :
    (s.storeMessage bytes).Inv :=
  { h with
    outBuf_wf := h.outBuf_wf.writeBytes (by omega)
    out_written := fun j hj => isSome_cellRead_writeBytes 0 bytes (h.out_written j hj) }

/-- OUT_LEN may be set to a length within the buffer whose bytes are all written. -/
theorem State.Inv.setResult (h : s.Inv) {n : Nat} (p : Nat) (hfits : n ≤ s.cfg.maxMsgBytes)
    (hwritten : ∀ j < n, (cellRead s.outBuf j).isSome = true) : (s.setResult n p).Inv :=
  have hle : (BitVec.ofNat 32 n).toNat ≤ n := by
    rw [BitVec.toNat_ofNat]; exact Nat.mod_le _ _
  { h with
    outLen_le := hle.trans hfits
    out_written := fun j hj => hwritten j (Nat.lt_of_lt_of_le hj hle) }

theorem State.Inv.failMessage (h : s.Inv) {code : ErrCode} (hcode : code.Reported) : (s.failMessage code).Inv :=
  (h.setResult 0 (Nat.zero_le _) (by simp)).complete hcode

theorem State.Inv.finishMessage (h : s.Inv) {bytes : List Byte} (p : Nat)
    (hfits : bytes.length ≤ s.cfg.maxMsgBytes) : (finishMessage bytes p s).Inv := by
  have hstored : (s.deriveSchedule.storeMessage bytes).Inv := h.deriveSchedule.storeMessage hfits
  have hwritten : ∀ j < bytes.length, (cellRead (s.deriveSchedule.storeMessage bytes).outBuf j).isSome = true := by
    intro j hj
    simp [cellRead_writeBytes, hj]
  exact (hstored.setResult p hfits hwritten).discard.complete ErrCode.none_reported

theorem State.Inv.blockCommand (h : s.Inv) (keys : List Subkey) : (blockCommand keys s).Inv := by
  unfold Machine.blockCommand
  split
  · exact (h.storeResult _ _ _).complete ErrCode.none_reported
  · exact h.complete (by decide)

/-- A message that passes the checks is encoded within the buffer, which holds whole blocks (00_scope.md rule R7). -/
theorem encodedMessage_fits (hwf : s.cfg.wf = true) (hcheck : encodeCheck s = .none) :
    (encodedMessage s).length ≤ s.cfg.maxMsgBytes := by
  obtain ⟨hlen, _⟩ := encodeCheck_none.1 hcheck
  obtain ⟨hmax, _, _⟩ := cfg_wf_max hwf
  obtain ⟨hpad, hwhole⟩ := padcount_spec s.inLen.toNat
  rw [encodedMessage_length]
  omega

theorem decodedMessage_fits {q : Nat} (hcheck : decodeCheck q s = .none) :
    (stripTail q (decodedMessage s)).length ≤ s.cfg.maxMsgBytes := by
  obtain ⟨hlen, _, _⟩ := decodeCheck_none.1 hcheck
  rw [stripTail, List.length_take, decodedMessage_length]
  omega

/-- Every command's completion keeps the invariant. -/
theorem State.Inv.exec (h : s.Inv) (hwf : s.cfg.wf = true) {i : Instr} (he : exec i s = .next t) : t.Inv := by
  cases i with
  | nop => cases he; exact h.complete ErrCode.none_reported
  | illegal _ => cases he; exact h.complete (by decide)
  | clear =>
    cases he
    have hcleared : (s.discard.setResult 0 0).Inv := h.discard.setResult 0 (Nat.zero_le _) (by simp)
    have hdout : ({ s.discard.setResult 0 0 with dout := 0#64 } : State).Inv := { hcleared with }
    exact hdout.complete ErrCode.none_reported
  | ksDerive => cases he; exact h.deriveSchedule.complete ErrCode.none_reported
  | blkEnc => cases he; exact h.blockCommand _
  | blkDec => cases he; exact h.blockCommand _
  | msgEnc =>
    simp only [Machine.exec, execMsgEnc] at he
    split at he <;> cases he
    · exact h.finishMessage _ (encodedMessage_fits hwf ‹_›)
    · exact h.failMessage (encodeCheck_reported s)
  | msgDec q =>
    simp only [Machine.exec, execMsgDec] at he
    split at he <;> cases he
    · exact h.finishMessage _ (decodedMessage_fits ‹_›)
    · exact h.failMessage (decodeCheck_reported _ s)

/-! The operations of the agents -/

theorem State.Inv.popTurn (h : s.Inv) : s.popTurn.Inv := { h with }

theorem State.Inv.resetBlock (h : s.Inv) : s.resetBlock.Inv :=
  { h with
    outLen_le := Nat.zero_le _
    out_written := fun j hj => absurd hj (Nat.not_lt_zero j)
    running := nofun
    idle := fun _ => rfl
    schedule_held := nofun
    schedule_clear := fun _ => rfl
    errCode_used := ErrCode.none_reported
    rnd_le := Nat.zero_le _ }

/-- A running step keeps the invariant: REMAIN is above 1 before it, and no register but the internal ones moves. -/
theorem State.Inv.runningStep (h : s.Inv) (hremain : 1 < s.remain) (hb : s.status.busy = true) :
    (runningStep s).Inv := by
  obtain ⟨⟨heq, hrnd⟩, hcount⟩ := runningStep_internal s
  have hrnd' : (Machine.runningStep s).rnd ≤ 16 := by
    rcases hrnd with hrnd | hrnd
    · exact hrnd
    · exact hrnd ▸ h.rnd_le
  rw [heq]
  exact
    { h with
      running := fun hb => ⟨by simp only [hcount]; omega, (h.running hb).2⟩
      idle := fun hn => by rw [hb] at hn; cases hn
      rnd_le := hrnd' }

theorem State.Inv.sequencerStep (h : s.Inv) (hwf : s.cfg.wf = true) (hs : sequencerStep s = .next t) : t.Inv := by
  rcases sequencerStep_cases s with ⟨_, e⟩ | ⟨hb, hr, e⟩ | ⟨_, _, e⟩
  · rw [e] at hs; cases hs; exact h
  · rw [e] at hs; cases hs; exact h.runningStep hr hb
  · exact h.exec hwf (e ▸ hs)

theorem State.Inv.answered (h : s.Inv) (r : Response) : (s.answered r).Inv := { h with }

theorem State.Inv.atLine (h : s.Inv) (line : Nat) : (s.atLine line).Inv := { h with }

theorem State.Inv.bind (h : s.Inv) (number : Nat) (value : Word) : (s.bind number value).Inv :=
  { h with names_rising := cellWrite_rising h.names_rising number value }

theorem State.Inv.afterRead (h : s.Inv) (x : Target) : (afterRead s x).Inv := by
  rcases afterRead_cases s x with e | ⟨_, e⟩
  · rwa [e]
  · rw [e]; exact { h with }

theorem State.Inv.issue (h : s.Inv) (hwf : s.cfg.wf = true) (w : Word) : (issue w s).Inv :=
  { h with
    running := fun _ => ⟨one_le_latency w hwf, rfl, rfl⟩
    idle := nofun
    errCode_used := ErrCode.none_reported }

/-- A word of IN_BUF lies within it, as MAX_MSG_BYTES is a multiple of 8 (20_memory.md rule R72). -/
theorem State.Inv.writeInWord (h : s.Inv) (hwf : s.cfg.wf = true) {a : Nat} (ha : a % 4 = 0)
    (hin : a < s.cfg.maxMsgBytes) (v : Word) : (s.writeInWord a v).Inv := by
  obtain ⟨hmax, _, _⟩ := cfg_wf_max hwf
  have hlen : (wordBytes v).length = 4 := rfl
  exact { h with inBuf_wf := h.inBuf_wf.writeBytes (by omega) }

theorem State.Inv.writeMove (h : s.Inv) (hwf : s.cfg.wf = true) {v : Word} (hm : WriteMove s v t) : t.Inv := by
  cases hm with
  | ignored => exact h
  | lost _ => exact { h with }
  | ctrl => exact { h with }
  | status =>
    exact { h with
      running := fun hb => by
        obtain ⟨hremain, hdone, hcode⟩ := h.running hb
        exact ⟨hremain, by simp [hdone], hcode⟩ }
  | issued _ => exact h.issue hwf v
  | key _ _ => exact { h with }
  | din _ _ => exact { h with }
  | inLen _ => exact { h with }
  | inBuf a _ ha hin => exact h.writeInWord hwf ha hin v

theorem State.Inv.hostMove (h : s.Inv) (hwf : s.cfg.wf = true) (hm : HostMove s t) : t.Inv := by
  cases hm with
  | ended _ => exact h
  | wrote offset value v _ _ ha => exact (h.writeMove hwf (writeWord_move s v ha)).answered _
  | read offset name u _ _ hu =>
    have hread : u.Inv := hu ▸ (h.afterRead _).answered _
    cases name with
    | none => exact hread
    | some number => exact hread.bind number _
  | branched _ _ _ line _ => exact h.atLine line
  | waited _ => exact h.atLine _

/-- Every agent's step keeps the invariant. -/
theorem State.Inv.agentStep (h : s.Inv) (hwf : s.cfg.wf = true) {turn : Turn} (ha : agentStep turn s = .next t) :
    t.Inv := by
  cases turn with
  | host => exact h.hostMove hwf (hostStep_move ha)
  | sequencer => exact h.sequencerStep hwf ha
  | reset => cases ha; exact h.resetBlock

end Sys2Proof.Machine

namespace Sys2Proof.Claims

open Sys2Proof.Machine

/-- Settles O11: each agent's step keeps the invariant at the state with the turn taken. -/
theorem stepKeepsInvariant : Obligations.StepKeepsInvariant := by
  intro s t hinv hstep
  obtain ⟨hwf, hagent⟩ := step_next hstep
  exact hinv.popTurn.agentStep hwf hagent

end Sys2Proof.Claims
end

section
/-!
SUPPORT. What the agents' steps leave: the configuration under every step, the host's inputs under the sequencer's, and
BUSY and ERRCODE but at acceptance and completion.
-/

namespace Sys2Proof.Machine

open Sys2Proof.Claims

variable {s t : State}

/-! What the sequencer leaves -/

/-- Everything of the block that is the host's to write, the host itself, and the configuration (10_state.md rules R22,
R26, R28, R29, R31, R35, R41). -/
structure HostInputsKept (s t : State) : Prop where
  cfg : t.cfg = s.cfg
  key : t.key = s.key
  din : t.din = s.din
  inLen : t.inLen = s.inLen
  inBuf : t.inBuf = s.inBuf
  ctrlIE : t.ctrlIE = s.ctrlIE
  cmd : t.cmd = s.cmd
  bwe : t.status.bwe = s.status.bwe
  host : t.host = s.host
  draws : t.draws = s.draws

theorem HostInputsKept.refl (s : State) : HostInputsKept s s := by constructor <;> rfl

theorem CommandFrame.hostInputsKept (h : CommandFrame s t) : HostInputsKept s t :=
  { h with }

theorem InternalOnly.hostInputsKept (h : InternalOnly s t) : HostInputsKept s t := by
  rw [h.eq]; constructor <;> rfl

theorem InternalOnly.status (h : InternalOnly s t) : t.status = s.status := by rw [h.eq]

/-- No step of the sequencer writes what is the host's to write. -/
theorem sequencerStep_keeps_hostInputs (h : sequencerStep s = .next t) : HostInputsKept s t := by
  rcases sequencerStep_cases s with ⟨_, e⟩ | ⟨_, _, e⟩ | ⟨_, _, e⟩
  · rw [e] at h; cases h; exact .refl s
  · rw [e] at h; cases h; exact (runningStep_internal s).1.hostInputsKept
  · exact (exec_frame (e ▸ h)).hostInputsKept

/-! The configuration -/

theorem WriteMove.cfg {v : Word} (h : WriteMove s v t) : t.cfg = s.cfg := by cases h <;> rfl

theorem afterRead_cfg (s : State) (x : Target) : (afterRead s x).cfg = s.cfg := by
  rcases afterRead_cases s x with e | ⟨_, e⟩ <;> rw [e]

theorem HostMove.cfg (h : HostMove s t) : t.cfg = s.cfg := by
  cases h with
  | ended _ => rfl
  | wrote offset value v _ _ ha => exact (writeWord_move s v ha).cfg
  | read offset name u _ _ hu =>
    have hread : u.cfg = s.cfg := hu ▸ afterRead_cfg s _
    cases name <;> exact hread
  | branched _ _ _ _ _ => rfl
  | waited _ => rfl

theorem agentStep_cfg {turn : Turn} (h : agentStep turn s = .next t) : t.cfg = s.cfg := by
  cases turn with
  | host => exact (hostStep_move h).cfg
  | sequencer => exact (sequencerStep_keeps_hostInputs h).cfg
  | reset => cases h; rfl

/-! BUSY and ERRCODE (10_state.md rule R24) -/

/-- BUSY and ERRCODE stand as they stood. -/
structure BusyErrKept (s t : State) : Prop where
  busy : t.status.busy = s.status.busy
  errCode : t.status.errCode = s.status.errCode

theorem BusyErrKept.of_status (h : t.status = s.status) : BusyErrKept s t := by
  constructor <;> rw [h]

/-- CMD stands at the one aligned offset 0x08 (20_memory.md rule R62). -/
theorem offset_of_target_cmd {offset : Offset} (ha : offset.toNat % 4 = 0) (h : target s offset = .cmd) :
    offset = 0x00008#18 := by
  unfold target targetAt registerTarget at h
  repeat' split at h
  all_goals simp only [reduceCtorEq] at h
  apply BitVec.eq_of_toNat_eq
  simp only [BitVec.toNat_ofNat]
  omega

/-- A write keeps BUSY and ERRCODE, but for the write of CMD that issues a command (20_memory.md rules R67, R68). -/
theorem writeWord_busyErr (s : State) (v : Word) (x : Target) :
    BusyErrKept s (writeWord s v x) ∨ (s.status.busy = false ∧ x = .cmd ∧ writeWord s v x = issue v s) := by
  unfold writeWord
  split
  · exact .inl ⟨rfl, rfl⟩
  · rename_i hfree
    cases x with
    | cmd => exact .inr ⟨by simpa [Target.frozenWhileBusy] using hfree, rfl, rfl⟩
    | _ => exact .inl ⟨rfl, rfl⟩

theorem afterRead_status (s : State) (x : Target) : (afterRead s x).status = s.status := by
  rcases afterRead_cases s x with e | ⟨_, e⟩ <;> rw [e]

/-- The host's turn keeps BUSY and ERRCODE, or its line writes CMD while not BUSY and a command is accepted
(40_command_sequencer.md rule R121). -/
theorem HostMove.busyErr (h : HostMove s t) :
    BusyErrKept s t ∨
    (s.status.busy = false ∧ WritesCmd s ∧ t.status.busy = true ∧ t.status.done = false ∧
      t.status.errCode = .none) := by
  cases h with
  | ended _ => exact .inl ⟨rfl, rfl⟩
  | wrote offset value v hline _ ha =>
    rcases writeWord_busyErr s v (target s offset) with hkept | ⟨hidle, hcmd, hissue⟩
    · exact .inl ⟨hkept.busy, hkept.errCode⟩
    · rw [offset_of_target_cmd ha hcmd] at hline
      rw [hissue]
      exact .inr ⟨hidle, ⟨value, hline⟩, rfl, rfl, rfl⟩
  | read offset name u _ _ hu =>
    have hread : u.status = s.status := hu ▸ afterRead_status s _
    cases name <;> exact .inl (.of_status hread)
  | branched _ _ _ _ _ => exact .inl ⟨rfl, rfl⟩
  | waited _ => exact .inl ⟨rfl, rfl⟩

/-- The sequencer's step keeps BUSY and ERRCODE, or completes the command (40_command_sequencer.md rule R124). -/
theorem sequencerStep_busyErr (h : sequencerStep s = .next t) :
    BusyErrKept s t ∨
    (s.status.busy = true ∧ s.remain ≤ 1 ∧ t.status.busy = false ∧ t.status.done = true) := by
  rcases sequencerStep_cases s with ⟨_, e⟩ | ⟨_, _, e⟩ | ⟨hbusy, hlast, e⟩
  · rw [e] at h; cases h; exact .inl ⟨rfl, rfl⟩
  · rw [e] at h; cases h; exact .inl (.of_status (runningStep_internal s).1.status)
  · have hframe := exec_frame (e ▸ h)
    exact .inr ⟨hbusy, hlast, hframe.busy, hframe.done⟩

end Sys2Proof.Machine
end

section
/-!
SUPPORT. The registers as the host reads and writes them: one transaction each (20_memory.md rule R62), and where the
fields stand in the words (10_state.md rules R22, R23, R27).
-/

namespace Sys2Proof.Machine

variable {s : State}

/-- OUT_BUF reads 0x00 while OUT_LEN is 0 (20_memory.md rule R73). -/
theorem maskedOutByte_of_outLen_zero (h : s.outLen = 0#32) (j : Nat) : maskedOutByte s j = 0x00#8 := by
  simp [maskedOutByte, h]

/-- A write of STATUS applies, BUSY or not (20_memory.md rule R67). -/
theorem memWrite_status (s : State) (v : Word) : memWrite s 0x00004#18 4 v = some (s.writeStatus v) := by
  have hlegal : legalAccess 0x00004#18 4 = true := by decide
  have htarget : target s 0x00004#18 = .status := target_register s (by decide)
  simp [memWrite, hlegal, htarget, writeWord, Target.frozenWhileBusy, applyWrite]

/-- A read of a register while not BUSY shows it and changes nothing (20_memory.md rules R62, R65, R77). -/
theorem memRead_register {offset : Offset} (hidle : s.status.busy = false) (hlow : offset.toNat < 0x34)
    (ha : offset.toNat % 4 = 0) :
    memRead s offset 4 = some (settledWord s (registerTarget (offset.toNat / 4)), s) := by
  simp [memRead, legalAccess, ha, target_register s hlow, readWord, afterRead, hidle]

/-- A read of ID shows it, BUSY or not (10_state.md rule R33). -/
theorem memRead_id (s : State) : memRead s 0x00030#18 4 = some (idWord, s) := by
  have hlegal : legalAccess 0x00030#18 4 = true := by decide
  have htarget : target s 0x00030#18 = .id := target_register s (by decide)
  have hread : readWord s .id = idWord := by unfold readWord; split <;> rfl
  have hafter : afterRead s .id = s := by simp [afterRead, Target.drawsWhileBusy]
  simp [memRead, hlegal, htarget, hread, hafter]

theorem ctrlWord_eq (s : State) : ctrlWord s = if s.ctrlIE then 0x00000001#32 else 0x00000000#32 := by
  unfold ctrlWord
  cases s.ctrlIE <;> decide

/-- The bits of STATUS as the host reads them, from the fields of R23 (10_state.md), lowest first. -/
theorem statusWord_getLsbD (st : Status) (ksv : Bool) (i : Nat) :
    (statusWord st ksv).getLsbD i =
      if i < 4 then [st.busy, st.done, ksv, st.bwe].getD i false
      else if i < 8 then false else st.errCode.code.getLsbD (i - 8) := by
  rw [statusWord, BitVec.getLsbD_append]
  simp only [BitVec.getLsbD_append, flagBit, BitVec.getLsbD_ofBool, BitVec.getLsbD_zero, Nat.sub_sub]
  by_cases hflag : i < 4
  · interval_cases i <;> rfl
  · have hcode : 12 ≤ i → st.errCode.code.getLsbD (i - 8) = false := fun h => BitVec.getLsbD_of_ge _ _ (by omega)
    grind

/-- Where the fields of STATUS stand (10_state.md rule R23). -/
theorem statusWord_fields (st : Status) (ksv : Bool) :
    (statusWord st ksv).getLsbD 0 = st.busy ∧ (statusWord st ksv).getLsbD 1 = st.done ∧
    (statusWord st ksv).getLsbD 2 = ksv ∧ (statusWord st ksv).getLsbD 3 = st.bwe ∧
    (statusWord st ksv).extractLsb' 4 4 = 0#4 ∧ (statusWord st ksv).extractLsb' 8 4 = st.errCode.code ∧
    (statusWord st ksv).extractLsb' 12 20 = 0#20 := by
  have hlow (i : Nat) (hi : i < 4) : (statusWord st ksv).getLsbD (4 + i) = false := by
    rw [statusWord_getLsbD, if_neg (by omega), if_pos (by omega)]
  have hhigh (i : Nat) : (statusWord st ksv).getLsbD (8 + i) = st.errCode.code.getLsbD i := by
    rw [statusWord_getLsbD, if_neg (by omega), if_neg (by omega), Nat.add_sub_cancel_left]
  refine ⟨statusWord_getLsbD st ksv 0, statusWord_getLsbD st ksv 1, statusWord_getLsbD st ksv 2,
    statusWord_getLsbD st ksv 3, ?_, ?_, ?_⟩
  all_goals
    apply BitVec.eq_of_getLsbD_eq
    intro i hi
  · simp [hlow i hi]
  · simp [hhigh i, hi]
  · simp [show 12 + i = 8 + (4 + i) by omega, hhigh]

/-- Where PAD_OUT stands in its word (10_state.md rule R27). -/
theorem padOutWord_fields (p : BitVec 3) :
    (p.setWidth 32).extractLsb' 0 3 = p ∧ (p.setWidth 32).extractLsb' 3 29 = 0#29 := by
  constructor
  · apply BitVec.eq_of_getLsbD_eq
    intro i hi
    simp [hi]
    omega
  · apply BitVec.eq_of_getLsbD_eq
    intro i hi
    simp [hi]

end Sys2Proof.Machine

namespace Sys2Proof.Claims

open Sys2Proof.Machine

/-- Settles O8: each row is the field of State.reset, and OUT_LEN = 0 masks every OUT_BUF byte. -/
theorem resetValues : Obligations.ResetValues := by
  have hrk : ∀ entry ∈ State.reset.rk.toList, entry = 0#48 := by
    simp [State.reset]
  exact ⟨rfl, rfl, rfl, rfl, rfl, rfl, rfl, rfl, rfl, rfl, hrk, fun _ => rfl, maskedOutByte_of_outLen_zero rfl,
    rfl, rfl, rfl, rfl, rfl, rfl, rfl, rfl, rfl⟩

/-- Settles O10: no byte is listed, no command runs, no schedule is held. -/
theorem resetHoldsInvariant : Obligations.ResetHoldsInvariant where
  inBuf_wf := ⟨List.Pairwise.nil, nofun⟩
  outBuf_wf := ⟨List.Pairwise.nil, nofun⟩
  outLen_le := Nat.zero_le _
  out_written := fun j hj => absurd hj (Nat.not_lt_zero j)
  running := nofun
  idle := fun _ => rfl
  schedule_held := nofun
  schedule_clear := fun _ => rfl
  errCode_used := ErrCode.none_reported
  rnd_le := Nat.zero_le _
  names_rising := List.Pairwise.nil

/-- Settles O12: no agent writes the configuration. -/
theorem stepKeepsConfiguration : Obligations.StepKeepsConfiguration := by
  intro s t hstep
  obtain ⟨_, hagent⟩ := step_next hstep
  rw [agentStep_cfg hagent, State.popTurn_cfg]

/-- Settles O13: a running step moves internal registers only, and a completion keeps its frame. -/
theorem sequencerLeavesHostInputs : Obligations.SequencerLeavesHostInputs := by
  intro s t hnext hstep
  obtain ⟨_, hagent⟩ := step_next hstep
  rw [hnext] at hagent
  have hkept := sequencerStep_keeps_hostInputs hagent
  exact ⟨hkept.key, hkept.din, hkept.inLen, hkept.inBuf, hkept.ctrlIE, hkept.cmd, hkept.bwe, hkept.host, hkept.draws⟩

/-- Settles O14: the host's turn and the sequencer's keep BUSY and ERRCODE but at acceptance and at completion. -/
theorem onlyAcceptanceCompletionResetChangeBusy : Obligations.OnlyAcceptanceCompletionResetChangeBusy := by
  intro s t hstep hchange
  obtain ⟨_, hagent⟩ := step_next hstep
  have hnot : ¬ BusyErrKept s.popTurn t := fun hkept => hchange.elim (· hkept.busy) (· hkept.errCode)
  cases hturn : nextTurn s with
  | reset => exact .inl rfl
  | host =>
    rw [hturn] at hagent
    exact .inr (.inl ⟨rfl, (hostStep_move hagent).busyErr.resolve_left hnot⟩)
  | sequencer =>
    rw [hturn] at hagent
    exact .inr (.inr ⟨rfl, (sequencerStep_busyErr hagent).resolve_left hnot⟩)

/-- Settles O56: a completion sets DONE and keeps IE; the STATUS write and the acceptance clear DONE. -/
theorem irqFollowsDone : Obligations.IrqFollowsDone := by
  refine ⟨fun _ => rfl, rfl, fun i s t hexec => ?_, fun s t v hwrite hbit => ?_, fun s w => ?_⟩
  · have hframe := exec_frame hexec
    simp [State.irq, hframe.ctrlIE, hframe.done]
  · rw [memWrite_status] at hwrite
    cases hwrite
    simp [State.irq, hbit]
  · simp [State.irq, issue]

/-- Settles O59: a settled read shows the register the map names, and the fields stand where their words put them. -/
theorem settledRegisterReads : Obligations.SettledRegisterReads := by
  refine ⟨fun s hidle => ?_, memRead_id, by decide⟩
  have hread {offset : Offset} := memRead_register (offset := offset) hidle
  obtain ⟨hbusy, hfields⟩ := statusWord_fields s.status s.status.ksv
  refine ⟨?_, ⟨_, hread (by decide) (by decide), hbusy.trans hidle, hfields⟩, hread (by decide) (by decide),
    ⟨_, hread (by decide) (by decide), padOutWord_fields s.padOut⟩, hread (by decide) (by decide),
    hread (by decide) (by decide)⟩
  rw [← ctrlWord_eq]
  exact hread (by decide) (by decide)

end Sys2Proof.Claims
end

section
/-!
SUPPORT. One rule per transaction of the host port: what a legal one answers, which targets read settled while BUSY,
which writes change nothing, and what the offsets of the windows name (20_memory.md rules R62 to R74).
-/

namespace Sys2Proof.Machine

variable {s : State} {offset : Offset} {x : Target}

/-! Legal and illegal transactions (20_memory.md rule R64) -/

theorem memRead_of_aligned (ha : offset.toNat % 4 = 0) (hx : target s offset = x) :
    memRead s offset 4 = some (readWord s x, afterRead s x) := by
  simp [memRead, legalAccess_iff.2 ⟨rfl, ha⟩, hx]

theorem memWrite_of_aligned (v : Word) (ha : offset.toNat % 4 = 0) (hx : target s offset = x) :
    memWrite s offset 4 v = some (writeWord s v x) := by
  simp [memWrite, legalAccess_iff.2 ⟨rfl, ha⟩, hx]

theorem legalAccess_eq_false {bytes : Nat} (h : offset.toNat % 4 ≠ 0 ∨ bytes ≠ 4) :
    legalAccess offset bytes = false := by
  rw [← Bool.not_eq_true, legalAccess_iff]
  omega

theorem memRead_of_illegal {bytes : Nat} (s : State) (h : legalAccess offset bytes = false) :
    memRead s offset bytes = none := by
  simp [memRead, h]

theorem memWrite_of_illegal {bytes : Nat} (s : State) (v : Word) (h : legalAccess offset bytes = false) :
    memWrite s offset bytes v = none := by
  simp [memWrite, h]

/-! Reads (20_memory.md rules R69, R77) -/

theorem readWord_of_idle (hidle : s.status.busy = false) (x : Target) : readWord s x = settledWord s x := by
  simp [readWord, hidle]

theorem afterRead_of_idle (hidle : s.status.busy = false) (x : Target) : afterRead s x = s := by
  simp [afterRead, hidle]

theorem memRead_of_idle (hidle : s.status.busy = false) (ha : offset.toNat % 4 = 0) (hx : target s offset = x) :
    memRead s offset 4 = some (settledWord s x, s) := by
  rw [memRead_of_aligned ha hx, readWord_of_idle hidle, afterRead_of_idle hidle]

/-- A target no read of which draws reads settled, BUSY or not. -/
theorem readWord_of_settled (s : State) (hx : x.drawsWhileBusy = false) : readWord s x = settledWord s x := by
  have hstatus : x ≠ .status := by rintro rfl; cases hx
  simp [readWord, busyWord, hstatus, hx]

theorem afterRead_of_settled (s : State) (hx : x.drawsWhileBusy = false) : afterRead s x = s := by
  simp [afterRead, hx]

/-- A result register reads as this read's draw while BUSY. -/
theorem readWord_of_draws (hbusy : s.status.busy = true) (hx : x.drawsWhileBusy = true) (hstatus : x ≠ .status) :
    readWord s x = Config.busyRead s.draws := by
  simp [readWord, busyWord, hbusy, hstatus, hx]

theorem readWord_status_of_busy (hbusy : s.status.busy = true) :
    readWord s .status = statusWord s.status ((Config.busyRead s.draws).getLsbD 0) := by
  simp [readWord, busyWord, hbusy]

/-! Writes (20_memory.md rules R65 to R68) -/

theorem writeWord_of_idle (hidle : s.status.busy = false) (v : Word) (x : Target) :
    writeWord s v x = applyWrite s v x := by
  simp [writeWord, hidle]

theorem writeWord_of_frozen (hbusy : s.status.busy = true) (v : Word) (hx : x.frozenWhileBusy = true) :
    writeWord s v x = s.busyWrite := by
  simp [writeWord, hbusy, hx]

/-- The read-only targets and the reserved offsets (20_memory.md rules R65, R66). -/
def Target.ignoresWrites : Target → Bool
  | .padOut | .doutHi | .doutLo | .outLen | .id | .rkHi _ | .rkLo _ | .outBuf _ | .reserved => true
  | .ctrl | .status | .cmd | .keyHi | .keyLo | .dinHi | .dinLo | .inLen | .inBuf _ => false

/-- A write to such a target changes nothing, BWE included, BUSY or not. -/
theorem writeWord_of_ignored (s : State) (v : Word) (hx : x.ignoresWrites = true) : writeWord s v x = s := by
  cases x with
  | ctrl | status | cmd | keyHi | keyLo | dinHi | dinLo | inLen | inBuf _ => cases hx
  | _ => simp [writeWord, Target.frozenWhileBusy, applyWrite]

theorem memWrite_of_ignored (v : Word) (ha : offset.toNat % 4 = 0) (hx : target s offset = x)
    (hignores : x.ignoresWrites = true) : memWrite s offset 4 v = some s := by
  rw [memWrite_of_aligned v ha hx, writeWord_of_ignored s v hignores]

/-- A write of CTRL applies, BUSY or not (20_memory.md rule R67). -/
theorem memWrite_ctrl (s : State) (v : Word) : memWrite s 0x00000#18 4 v = some (s.writeCtrl v) := by
  have htarget : target s 0x00000#18 = .ctrl := target_register s (by decide)
  rw [memWrite_of_aligned v (by decide) htarget]
  simp [writeWord, Target.frozenWhileBusy, applyWrite]

/-! The register map (20_memory.md rule R62) -/

theorem target_reserved (hmax : s.cfg.maxMsgBytes ≤ 65536)
    (h : 0x34 ≤ offset.toNat ∧ offset.toNat < 0x100 ∨ 0x180 ≤ offset.toNat ∧ offset.toNat < 0x10000 ∨
      0x10000 + s.cfg.maxMsgBytes ≤ offset.toNat ∧ offset.toNat < 0x20000 ∨
      0x20000 + s.cfg.maxMsgBytes ≤ offset.toNat ∧ offset.toNat < 0x30000 ∨ 0x30000 ≤ offset.toNat) :
    target s offset = .reserved := by
  unfold target targetAt
  repeat' split
  any_goals rfl
  all_goals omega

/-- The RK window (20_memory.md rule R74). -/
theorem target_rk_window (s : State) (h1 : 0x100 ≤ offset.toNat) (h2 : offset.toNat < 0x180) :
    target s offset =
      if offset.toNat % 8 = 0 then .rkHi ((offset.toNat - 0x100) / 8) else .rkLo ((offset.toNat - 0x104) / 8) := by
  unfold target targetAt
  rw [if_neg (by omega), if_neg (by omega), if_pos h2]

/-- The read-only registers and windows ignore writes (20_memory.md rule R66). -/
theorem target_ignoresWrites (hmax : s.cfg.maxMsgBytes ≤ 65536)
    (h : offset.toNat = 0x0C ∨ offset.toNat = 0x20 ∨ offset.toNat = 0x24 ∨ offset.toNat = 0x2C ∨ offset.toNat = 0x30 ∨
      0x100 ≤ offset.toNat ∧ offset.toNat < 0x180 ∨
      0x20000 ≤ offset.toNat ∧ offset.toNat < 0x20000 + s.cfg.maxMsgBytes) :
    (target s offset).ignoresWrites = true := by
  rcases h with h | h | h | h | h | ⟨h1, h2⟩ | ⟨h1, h2⟩
  case inr.inr.inr.inr.inr.inl =>
    rw [target_rk_window s h1 h2]
    split <;> rfl
  case inr.inr.inr.inr.inr.inr => rw [target_outBuf_window hmax h1 h2]; rfl
  all_goals rw [target_register s (by omega), h]; rfl

/-- The inputs the busy-write rule names (20_memory.md rule R68). -/
theorem target_frozenWhileBusy (ha : offset.toNat % 4 = 0)
    (h : offset.toNat = 0x08 ∨ 0x10 ≤ offset.toNat ∧ offset.toNat ≤ 0x1C ∨ offset.toNat = 0x28 ∨
      0x10000 ≤ offset.toNat ∧ offset.toNat < 0x10000 + s.cfg.maxMsgBytes) :
    (target s offset).frozenWhileBusy = true := by
  by_cases hlow : offset.toNat < 0x34
  · obtain e | e | e | e | e | e : offset.toNat = 0x08 ∨ offset.toNat = 0x10 ∨ offset.toNat = 0x14 ∨
        offset.toNat = 0x18 ∨ offset.toNat = 0x1C ∨ offset.toNat = 0x28 := by omega
    all_goals rw [target_register s hlow, e]; rfl
  · rw [target_inBuf_window (by omega) (by omega)]
    rfl

theorem target_congr {t : State} (hcfg : t.cfg = s.cfg) (offset : Offset) : target t offset = target s offset := by
  rw [target, target, hcfg]

/-! The offsets of the windows, as numbers -/

theorem toNat_offsetOf_inBuf {a : Nat} (h : a < 65536) : (offsetOf (.inBuf a)).toNat = 0x10000 + a :=
  Nat.mod_eq_of_lt (by omega)

theorem toNat_offsetOf_outBuf {a : Nat} (h : a < 65536) : (offsetOf (.outBuf a)).toNat = 0x20000 + a :=
  Nat.mod_eq_of_lt (by omega)

theorem toNat_offsetOf_rkHi {n : Nat} (h : n < 16) : (offsetOf (.rkHi n)).toNat = 0x100 + 8 * n :=
  Nat.mod_eq_of_lt (by omega)

theorem toNat_offsetOf_rkLo {n : Nat} (h : n < 16) : (offsetOf (.rkLo n)).toNat = 0x104 + 8 * n :=
  Nat.mod_eq_of_lt (by omega)

theorem aligned_offsetOf_inBuf {m : Nat} (h : 4 * m < 65536) : (offsetOf (.inBuf (4 * m))).toNat % 4 = 0 := by
  rw [toNat_offsetOf_inBuf h]
  omega

theorem aligned_offsetOf_outBuf {m : Nat} (h : 4 * m < 65536) : (offsetOf (.outBuf (4 * m))).toNat % 4 = 0 := by
  rw [toNat_offsetOf_outBuf h]
  omega

theorem aligned_offsetOf_rkHi {n : Nat} (h : n < 16) : (offsetOf (.rkHi n)).toNat % 4 = 0 := by
  rw [toNat_offsetOf_rkHi h]
  omega

theorem aligned_offsetOf_rkLo {n : Nat} (h : n < 16) : (offsetOf (.rkLo n)).toNat % 4 = 0 := by
  rw [toNat_offsetOf_rkLo h]
  omega

theorem target_offsetOf_inBuf {a : Nat} (hmax : s.cfg.maxMsgBytes ≤ 65536) (ha : a < s.cfg.maxMsgBytes) :
    target s (offsetOf (.inBuf a)) = .inBuf a := by
  have hn := toNat_offsetOf_inBuf (a := a) (by omega)
  rw [target_inBuf_window (by omega) (by omega), hn, Nat.add_sub_cancel_left]

theorem target_offsetOf_outBuf {a : Nat} (hmax : s.cfg.maxMsgBytes ≤ 65536) (ha : a < s.cfg.maxMsgBytes) :
    target s (offsetOf (.outBuf a)) = .outBuf a := by
  have hn := toNat_offsetOf_outBuf (a := a) (by omega)
  rw [target_outBuf_window hmax (by omega) (by omega), hn, Nat.add_sub_cancel_left]

theorem target_offsetOf_rkHi {n : Nat} (s : State) (h : n < 16) : target s (offsetOf (.rkHi n)) = .rkHi n := by
  have hn := toNat_offsetOf_rkHi h
  rw [target_rk_window s (by omega) (by omega), if_pos (by omega), hn, Target.rkHi.injEq]
  omega

theorem target_offsetOf_rkLo {n : Nat} (s : State) (h : n < 16) : target s (offsetOf (.rkLo n)) = .rkLo n := by
  have hn := toNat_offsetOf_rkLo h
  rw [target_rk_window s (by omega) (by omega), if_neg (by omega), hn, Target.rkLo.injEq]
  omega

/-! What a write while not BUSY leaves (20_memory.md rules R68, R70, R72) -/

/-- An input reads back what was written to it; CMD is no such register, since its write issues a command. -/
theorem readWord_applyWrite (hidle : s.status.busy = false) (v : Word) (hx : x.frozenWhileBusy = true)
    (hcmd : x ≠ .cmd) : readWord (applyWrite s v x) x = v := by
  cases x with
  | cmd => exact absurd rfl hcmd
  | keyHi | keyLo | dinHi | dinLo | inLen | inBuf _ => simp [readWord, applyWrite, settledWord, hidle]
  | _ => cases hx

/-- The write of an input leaves BWE. -/
theorem applyWrite_bwe (v : Word) (hx : x.frozenWhileBusy = true) :
    (applyWrite s v x).status.bwe = s.status.bwe := by
  cases x with
  | status => cases hx
  | _ => rfl

theorem applyWrite_cfg (s : State) (v : Word) (x : Target) : (applyWrite s v x).cfg = s.cfg := by
  cases x <;> rfl

/-- Byte `j` of a word, the most significant first (20_memory.md rule R71). -/
theorem wordBytes_getD (v : Word) {j : Nat} (hj : j < 4) :
    (wordBytes v).getD j 0#8 = v.extractLsb' (24 - 8 * j) 8 := by
  interval_cases j <;> rfl

/-- Neither IE nor the reserved bits of CTRL depend on what the reserved bits are written (10_state.md rule R22). -/
theorem writeCtrl_masked (s : State) (v : Word) : s.writeCtrl (v &&& 0x00000001#32) = s.writeCtrl v := by
  simp [State.writeCtrl]

/-- A STATUS write acts by its bits 1 and 3 alone (10_state.md rule R23). -/
theorem writeStatus_masked (s : State) (v : Word) : s.writeStatus (v &&& 0x0000000A#32) = s.writeStatus v := by
  simp [State.writeStatus]

/-- The reserved bits of STATUS read 0 (10_state.md rule R23). -/
theorem statusWord_reserved (st : Status) (ksv : Bool) : statusWord st ksv &&& 0xFFFFF0F0#32 = 0#32 := by
  have hmask : ∀ i < 32, (0xFFFFF0F0#32).getLsbD i = decide (4 ≤ i ∧ i < 8 ∨ 12 ≤ i) := by decide
  apply BitVec.eq_of_getLsbD_eq
  intro i hi
  rw [BitVec.getLsbD_and, statusWord_getLsbD, hmask i hi, BitVec.getLsbD_zero]
  by_cases hflag : i < 4
  · simp [hflag]; omega
  · by_cases hcode : 12 ≤ i
    · simp [show ¬ i < 8 by omega, hflag, BitVec.getLsbD_of_ge _ _ (show 4 ≤ i - 8 by omega)]
    · by_cases h8 : i < 8
      · simp [h8, hflag]
      · simp [h8, hcode]

/-- The reserved bits of CTRL read 0 (10_state.md rule R22). -/
theorem ctrlWord_reserved (s : State) : ctrlWord s &&& 0xFFFFFFFE#32 = 0#32 := by
  rw [ctrlWord_eq]
  split <;> rfl

/-- An OUT_BUF word reads 0 while OUT_LEN is 0 (20_memory.md rule R73). -/
theorem outBufWord_of_outLen_zero (h : s.outLen = 0#32) (a : Nat) : outBufWord s a = 0x00000000#32 := by
  simp only [outBufWord, bufferWord, maskedOutByte_of_outLen_zero h]
  rfl

end Sys2Proof.Machine

namespace Sys2Proof.Claims

open Sys2Proof.Machine

/-- Settles O46: the map names no register there, and such a target reads 0 and takes no write. -/
theorem reservedOffsetsReadZero : Obligations.ReservedOffsetsReadZero := by
  intro s offset v hwf ha hoff
  obtain ⟨_, _, hmax⟩ := cfg_wf_max hwf
  have htarget : target s offset = .reserved := target_reserved hmax hoff
  have hread : (Target.reserved).drawsWhileBusy = false := rfl
  constructor
  · rw [memRead_of_aligned ha htarget, readWord_of_settled s hread, afterRead_of_settled s hread]
    rfl
  · exact memWrite_of_ignored v ha htarget rfl

/-- Settles O47: a read-only target takes no write, and CTRL and STATUS show and take their named bits alone. -/
theorem readOnlyWritesIgnored : Obligations.ReadOnlyWritesIgnored := by
  refine ⟨fun s offset v hwf ha hoff => ?_, fun s => ?_, fun s v => ?_⟩
  · obtain ⟨_, _, hmax⟩ := cfg_wf_max hwf
    exact memWrite_of_ignored v ha rfl (target_ignoresWrites hmax hoff)
  · obtain ⟨ksv, hstatus⟩ := readWord_status s
    rw [readWord_ctrl, hstatus]
    exact ⟨ctrlWord_reserved s, statusWord_reserved s.status ksv⟩
  · simp only [memWrite_ctrl, memWrite_status, writeCtrl_masked, writeStatus_masked, and_self]

/-- Settles O49: a frozen target takes no write while BUSY, and reads back its write else. -/
theorem busyWriteRule : Obligations.BusyWriteRule := by
  intro s offset v hwf ha hoff
  have hfrozen : (target s offset).frozenWhileBusy = true := target_frozenWhileBusy ha hoff
  have hregister (hlow : offset.toNat < 0x34) := target_register s hlow
  rw [memWrite_of_aligned v ha rfl]
  constructor
  · intro hbusy
    rw [writeWord_of_frozen hbusy v hfrozen]
    rfl
  intro hidle
  rw [writeWord_of_idle hidle]
  refine ⟨_, rfl, applyWrite_bwe v hfrozen, fun h => ?_, fun h => ?_, fun h => ?_, fun h => ?_, fun h => ?_,
    fun h => ?_⟩
  · rw [hregister (by omega), h]
    rfl
  · have hcmd : target s offset ≠ .cmd := fun hc => h (by rw [offset_of_target_cmd ha hc]; rfl)
    rw [target_congr (applyWrite_cfg s v _)]
    exact readWord_applyWrite hidle v hfrozen hcmd
  · obtain e | e : offset.toNat = 0x10 ∨ offset.toNat = 0x14 := by omega
    all_goals rw [hregister (by omega), e]; rfl
  · obtain e | e : offset.toNat = 0x18 ∨ offset.toNat = 0x1C := by omega
    all_goals rw [hregister (by omega), e]; rfl
  · rw [hregister (by omega), h]
    rfl
  · rw [target_inBuf_window h (by omega)]
    rfl

/-- Settles O50: a busy read is a draw, STATUS with a draw for KSV, or the value of a register that is no result. -/
theorem busyReadsRevealNoResult : Obligations.BusyReadsRevealNoResult := by
  refine ⟨fun s s' hbusy hs' x => ?_, fun s n hbusy => ?_, fun s hinv hbusy => ?_, fun s hbusy => ?_⟩
  · have hbusy' : s'.status.busy = true := by rw [hs']; exact hbusy
    have hdraws : s'.draws = s.draws := by rw [hs']
    cases hx : x.drawsWhileBusy
    · rw [readWord_of_settled s hx, readWord_of_settled s' hx, hs']
      cases x with
      | ctrl | cmd | keyHi | keyLo | dinHi | dinLo | inLen | id | inBuf _ | reserved => rfl
      | _ => cases hx
    · by_cases hstatus : x = .status
      · rw [hstatus, readWord_status_of_busy hbusy, readWord_status_of_busy hbusy', hdraws, hs']
        rfl
      · rw [readWord_of_draws hbusy hx hstatus, readWord_of_draws hbusy' hx hstatus, hdraws]
  · have hdraw {x : Target} := readWord_of_draws (x := x) hbusy
    rw [readWord_status_of_busy hbusy]
    obtain ⟨hbit0, _, _, hbit3, _⟩ := statusWord_fields s.status ((Config.busyRead s.draws).getLsbD 0)
    exact ⟨hdraw rfl nofun, hdraw rfl nofun, hdraw rfl nofun, hdraw rfl nofun, hdraw rfl nofun, hdraw rfl nofun,
      hdraw rfl nofun, hbit0.trans hbusy, hbit3⟩
  · obtain ⟨_, hdone, hcode⟩ := hinv.running hbusy
    obtain ⟨_, hbit1, _, _, _, hfield, _⟩ := statusWord_fields s.status ((Config.busyRead s.draws).getLsbD 0)
    rw [readWord_status_of_busy hbusy]
    exact ⟨hbit1.trans hdone, by rw [hfield, hcode]; rfl⟩
  · have hread {x : Target} := readWord_of_settled (x := x) s
    refine ⟨(readWord_ctrl s).trans (ctrlWord_eq s), hread rfl, hread rfl, hread rfl, hread rfl, hread rfl, hread rfl,
      hread rfl, fun a j hj => ?_⟩
    rw [hread rfl]
    exact bufferWord_byte (readInByte s) a hj

/-- Settles O53: the write puts the word's bytes, which the read puts together again. -/
theorem inBufWordWrite : Obligations.InBufWordWrite := by
  intro s m v hwf hidle hm
  obtain ⟨_, _, hmax⟩ := cfg_wf_max hwf
  have ha := aligned_offsetOf_inBuf (m := m) (by omega)
  have htarget {t : State} (hcfg : t.cfg = s.cfg) : target t (offsetOf (.inBuf (4 * m))) = .inBuf (4 * m) :=
    target_offsetOf_inBuf (hcfg ▸ hmax) (hcfg ▸ hm)
  have hwrite := memWrite_of_aligned v ha (htarget rfl)
  rw [writeWord_of_idle hidle] at hwrite
  have hread := memRead_of_idle (s := s.writeInWord (4 * m) v) hidle ha (htarget rfl)
  rw [settledWord, inBufWord_writeInWord] at hread
  refine ⟨s.writeInWord (4 * m) v, hwrite, rfl, fun j hj => ?_, fun a ha => ?_, hread⟩
  · rw [readInByte_writeInWord, if_pos (by omega), Nat.add_sub_cancel_left, wordBytes_getD v hj]
  · rw [readInByte_writeInWord, if_neg (by omega)]

/-- Settles O54: the read puts the masked bytes together, and OUT_BUF takes no write. -/
theorem outBufReadIsMasked : Obligations.OutBufReadIsMasked := by
  intro s m hwf hidle hm
  obtain ⟨_, _, hmax⟩ := cfg_wf_max hwf
  have ha := aligned_offsetOf_outBuf (m := m) (by omega)
  have htarget := target_offsetOf_outBuf hmax hm
  refine ⟨⟨outBufWord s (4 * m), memRead_of_idle hidle ha htarget, fun j hj => ?_, fun hlen => ?_⟩, fun v => ?_⟩
  · exact bufferWord_byte (maskedOutByte s) (4 * m) hj
  · exact outBufWord_of_outLen_zero hlen _
  · exact memWrite_of_ignored v ha htarget rfl

/-- Settles O48: neither target is frozen, and the two writes are the model's. -/
theorem ctrlStatusWritesAlwaysApply : Obligations.CtrlStatusWritesAlwaysApply := by
  intro s v
  refine ⟨memWrite_ctrl s v, ?_⟩
  rw [memWrite_status, State.writeStatus]
  cases v.getLsbD 1 <;> cases v.getLsbD 3 <;> simp

/-- Settles O51: a read leaves the state, or uses up one draw while BUSY. -/
theorem readsHaveNoSideEffect : Obligations.ReadsHaveNoSideEffect := by
  intro s t offset bytes v hread
  obtain ⟨x, rfl⟩ : ∃ x, t = afterRead s x := by
    unfold memRead at hread
    split at hread <;> cases hread
    exact ⟨_, rfl⟩
  rcases afterRead_cases s x with e | ⟨hbusy, e⟩
  · rw [e]
    exact ⟨rfl, le_rfl, fun _ => rfl⟩
  · rw [e]
    exact ⟨rfl, Nat.le_succ _, fun hidle => by simp [hbusy] at hidle⟩

/-- Settles O55: the two words of entry `i - 1` stand at the two offsets of the window. -/
theorem rkWindowRead : Obligations.RkWindowRead := by
  intro s i v h1 h2 hidle
  have hn : i - 1 < 16 := by omega
  have ahi := aligned_offsetOf_rkHi hn
  have alo := aligned_offsetOf_rkLo hn
  have thi := target_offsetOf_rkHi s hn
  have tlo := target_offsetOf_rkLo s hn
  exact ⟨memRead_of_idle hidle ahi thi, memRead_of_idle hidle alo tlo, memWrite_of_ignored v ahi thi rfl,
    memWrite_of_ignored v alo tlo rfl⟩

end Sys2Proof.Claims
end

section
/-!
SUPPORT. When the agent's turn stops: a host line stops exactly when it is not safe (20_memory.md rule R64,
30_encoding.md rule R108), no command does, and every step keeps a safe line safe.
-/

namespace Sys2Proof.Machine

variable {s t : State} {line : HostLine}

/-! A host line stops exactly when it is not safe -/

/-- An illegal read faults the host. -/
theorem hostLine_read_of_illegal {offset : Offset} {bytes : Nat} (s : State) (name : Option Nat)
    (h : legalAccess offset bytes = false) :
    hostLine s (.read offset bytes name) = .fault (.busError offset bytes) := by
  simp [hostLine, hostRead, memRead_of_illegal s h]

/-- An illegal write of a bound value faults the host with the transaction. -/
theorem hostLine_write_of_illegal {offset : Offset} {bytes : Nat} {value : HostValue} {v : Word}
    (hv : hostValue s value = some v) (h : legalAccess offset bytes = false) :
    hostLine s (.write offset bytes value) = .fault (.busError offset bytes) := by
  simp [hostLine, hv, hostWrite, memWrite_of_illegal s v h]

theorem hostLine_read_of_legal {offset : Offset} {bytes : Nat} (s : State) (h : legalAccess offset bytes = true) :
    hostLine s (.read offset bytes none) =
      .next ((afterRead s (target s offset)).answered (.data (readWord s (target s offset)))) := by
  simp [hostLine, hostRead, memRead, h]

/-- A legal read with a name binds it to the word read. -/
theorem hostLine_read_bind_of_legal {offset : Offset} {bytes : Nat} (s : State) (number : Nat)
    (h : legalAccess offset bytes = true) :
    hostLine s (.read offset bytes (some number)) =
      .next (((afterRead s (target s offset)).answered (.data (readWord s (target s offset)))).bind number
        (readWord s (target s offset))) := by
  simp [hostLine, hostRead, memRead, h]

theorem hostLine_write_of_legal {offset : Offset} {bytes : Nat} {value : HostValue} {v : Word}
    (hv : hostValue s value = some v) (h : legalAccess offset bytes = true) :
    hostLine s (.write offset bytes value) = .next ((writeWord s v (target s offset)).answered .written) := by
  simp [hostLine, hv, hostWrite, memWrite, h]

theorem hostLine_next_of_safe (h : hostLineSafe s line = true) : ∃ t, hostLine s line = .next t := by
  cases line with
  | write offset bytes value =>
    obtain ⟨hlegal, hbound⟩ := Bool.and_eq_true_iff.1 h
    obtain ⟨v, hv⟩ := Option.isSome_iff_exists.1 hbound
    exact ⟨_, hostLine_write_of_legal hv hlegal⟩
  | read offset bytes name =>
    cases name with
    | none => exact ⟨_, hostLine_read_of_legal s h⟩
    | some number => exact ⟨_, hostLine_read_bind_of_legal s number h⟩
  | bnz number mask label =>
    obtain ⟨v, hv⟩ := Option.isSome_iff_exists.1 h
    exact ⟨hostBranch s v mask label, by simp [hostLine, hv]⟩
  | waitIrq => exact ⟨_, rfl⟩

theorem hostLine_fault_of_not_safe (h : hostLineSafe s line = false) : ∃ f, hostLine s line = .fault f := by
  cases line with
  | write offset bytes value =>
    cases hv : hostValue s value with
    | none => exact ⟨.unboundName value.number, by simp [hostLine, hv]⟩
    | some v => exact ⟨_, hostLine_write_of_illegal hv (by simpa [hostLineSafe, hv] using h)⟩
  | read offset bytes name => exact ⟨_, hostLine_read_of_illegal s name h⟩
  | bnz number mask label =>
    have hv : cellRead s.host.names number = none := by simpa [hostLineSafe] using h
    exact ⟨.unboundName number, by simp [hostLine, hv]⟩
  | waitIrq => cases h

/-- A safe line gives a next state, any other a fault. -/
theorem hostLine_fault_iff : (∃ f, hostLine s line = .fault f) ↔ hostLineSafe s line = false := by
  refine ⟨fun ⟨f, hf⟩ => ?_, hostLine_fault_of_not_safe⟩
  rw [← Bool.not_eq_true]
  intro hsafe
  obtain ⟨t, ht⟩ := hostLine_next_of_safe hsafe
  rw [hf] at ht
  cases ht

theorem hostStep_of_line (h : s.host.prog[s.host.line]? = some line) : hostStep s = hostLine s line := by
  simp [hostStep, h]

theorem hostStep_of_ended (h : s.host.prog[s.host.line]? = none) : hostStep s = .next s := by
  simp [hostStep, h]

theorem hostStep_fault_iff :
    (∃ f, hostStep s = .fault f) ↔
      ∃ line, s.host.prog[s.host.line]? = some line ∧ hostLineSafe s line = false := by
  cases hline : s.host.prog[s.host.line]? with
  | none => simp [hostStep_of_ended hline]
  | some line => simp [hostStep_of_line hline, hostLine_fault_iff]

/-! The sequencer and the reset input never stop (60_exceptions.md rule R252) -/

theorem sequencerStep_total (s : State) : ∃ t, sequencerStep s = .next t := by
  rcases sequencerStep_cases s with ⟨_, e⟩ | ⟨_, _, e⟩ | ⟨_, _, e⟩
  · exact ⟨_, e⟩
  · exact ⟨_, e⟩
  · rw [e]
    exact exec_total _ s

theorem agentStep_fault_iff {turn : Turn} :
    (∃ f, agentStep turn s = .fault f) ↔
      turn = .host ∧ ∃ line, s.host.prog[s.host.line]? = some line ∧ hostLineSafe s line = false := by
  cases turn with
  | host => simpa [agentStep] using hostStep_fault_iff
  | sequencer =>
    obtain ⟨t, ht⟩ := sequencerStep_total s
    simp [agentStep, ht]
  | reset => simp [agentStep]

/-! What a step leaves of the host: its program, and every name bound (30_encoding.md rule R108) -/

/-- The program stands, and every name that was bound is bound. -/
structure HostKept (s t : State) : Prop where
  prog : t.host.prog = s.host.prog
  bound : ∀ number, (cellRead s.host.names number).isSome = true → (cellRead t.host.names number).isSome = true

theorem HostKept.of_host (h : t.host = s.host) : HostKept s t where
  prog := by rw [h]
  bound := fun number hbound => by rwa [h]

theorem HostKept.answered (h : t.host = s.host) (response : Response) : HostKept s (t.answered response) where
  prog := by rw [State.answered_prog, h]
  bound := fun number hbound => by rwa [State.answered_names, h]

/-- A binding keeps the other names, and its own is bound. -/
theorem HostKept.bind (h : HostKept s t) (number : Nat) (v : Word) : HostKept s (t.bind number v) where
  prog := h.prog
  bound := fun other hbound => by
    rw [State.bind_names, cellRead_cellWrite]
    split
    · rfl
    · exact h.bound other hbound

theorem WriteMove.host {v : Word} (h : WriteMove s v t) : t.host = s.host := by cases h <;> rfl

theorem afterRead_host (s : State) (x : Target) : (afterRead s x).host = s.host := by
  rcases afterRead_cases s x with e | ⟨_, e⟩ <;> rw [e]

theorem HostMove.hostKept (h : HostMove s t) : HostKept s t := by
  cases h with
  | ended _ => exact .of_host rfl
  | wrote offset value v _ _ ha => exact .answered (writeWord_move s v ha).host _
  | read offset name u _ _ hu =>
    have hread : HostKept s u := hu ▸ .answered (afterRead_host s _) _
    cases name with
    | none => exact hread
    | some number => exact hread.bind number _
  | branched _ _ _ _ _ => exact ⟨rfl, fun _ => id⟩
  | waited _ => exact ⟨rfl, fun _ => id⟩

theorem agentStep_hostKept {turn : Turn} (h : agentStep turn s = .next t) : HostKept s t := by
  cases turn with
  | host => exact (hostStep_move h).hostKept
  | sequencer => exact .of_host (sequencerStep_keeps_hostInputs h).host
  | reset => cases h; exact .of_host rfl

theorem HostKept.isSome_hostValue (h : HostKept s t) {value : HostValue} (hbound : (hostValue s value).isSome = true) :
    (hostValue t value).isSome = true := by
  cases value with
  | literal _ => rfl
  | name number => exact h.bound number hbound

theorem HostKept.lineSafe (h : HostKept s t) (hsafe : hostLineSafe s line = true) :
    hostLineSafe t line = true := by
  cases line with
  | write offset bytes value =>
    obtain ⟨hlegal, hbound⟩ := Bool.and_eq_true_iff.1 hsafe
    exact Bool.and_eq_true_iff.2 ⟨hlegal, h.isSome_hostValue hbound⟩
  | read offset bytes name => exact hsafe
  | bnz number mask label => exact h.bound number hsafe
  | waitIrq => rfl

theorem HostKept.hostClean (h : HostKept s t) (hclean : s.HostClean) : t.HostClean := fun line hmem =>
  h.lineSafe (hclean line (h.prog ▸ hmem))

/-- Taking the turn changes no line's safety: both states bind the same names. -/
theorem hostLineSafe_popTurn (s : State) (line : HostLine) : hostLineSafe s.popTurn line = hostLineSafe s line := by
  have hto : HostKept s s.popTurn := .of_host rfl
  have hfrom : HostKept s.popTurn s := .of_host rfl
  exact Bool.eq_iff_iff.2 ⟨hfrom.lineSafe, hto.lineSafe⟩

/-- A step of an agent is a next state where every line is safe. -/
theorem agentStep_next_of_clean {turn : Turn} (hclean : s.HostClean) : ∃ t, agentStep turn s = .next t := by
  cases turn with
  | host =>
    cases hline : s.host.prog[s.host.line]? with
    | none => exact ⟨_, hostStep_of_ended hline⟩
    | some line =>
      obtain ⟨t, ht⟩ := hostLine_next_of_safe (hclean line (List.mem_of_getElem? hline))
      exact ⟨t, (hostStep_of_line hline).trans ht⟩
  | sequencer => exact sequencerStep_total s
  | reset => exact ⟨_, rfl⟩

end Sys2Proof.Machine

namespace Sys2Proof.Claims

open Sys2Proof.Machine

/-- Settles O57: only the host's turn can stop, and it stops at a line that is not safe. -/
theorem stepFaultsExactlyOnUnsafeLine : Obligations.StepFaultsExactlyOnUnsafeLine := by
  intro s hwf
  rw [step_of_wf hwf, agentStep_fault_iff]
  simp only [hostLineSafe_popTurn, State.popTurn_host]

/-- Settles O58: a safe line runs, and every step keeps the program and the bound names. -/
theorem cleanHostNeverStops : Obligations.CleanHostNeverStops := by
  intro s hwf hclean
  have hpopped : s.popTurn.HostClean := (HostKept.of_host rfl).hostClean hclean
  obtain ⟨t, ht⟩ := agentStep_next_of_clean (turn := nextTurn s) hpopped
  exact ⟨t, (step_of_wf hwf).trans ht, (agentStep_hostKept ht).hostClean hpopped⟩

/-- Settles O5: the sequencer's last step is the completion. -/
theorem stepRunsAcceptedCommand : Obligations.StepRunsAcceptedCommand := by
  intro s hwf hnext hbusy hlast
  have hturn : nextTurn s = .sequencer := hnext
  rw [step_of_wf hwf, hturn]
  simp [agentStep, sequencerStep, hbusy, hlast, State.popTurn]

/-- Settles O45: an illegal access has no OK response, which is the host's fault. -/
theorem illegalAccessFaultsHost : Obligations.IllegalAccessFaultsHost := by
  intro s offset bytes h
  have hillegal := legalAccess_eq_false h
  refine ⟨memRead_of_illegal s hillegal, fun v => memWrite_of_illegal s v hillegal, fun hwf hturn => ⟨?_, ?_⟩⟩
  · intro name hline
    rw [step_host_line hwf hturn hline]
    exact hostLine_read_of_illegal _ name hillegal
  · intro value hline hbound
    have hkept : HostKept s s.popTurn := .of_host rfl
    obtain ⟨v, hv⟩ := Option.isSome_iff_exists.1 (hkept.isSome_hostValue hbound)
    rw [step_host_line hwf hturn hline]
    exact hostLine_write_of_illegal hv hillegal

end Sys2Proof.Claims
end

section
/-!
SUPPORT. The 64-bit registers as two words (20_memory.md rule R70), and two host lines in a row while not BUSY
(30_encoding.md rules R108, R109).
-/

namespace Sys2Proof.Machine

open Sys2Proof.Claims

variable {s t u : State}

/-! Halves of 64-bit values -/

theorem toNat_append_words (hi lo : Word) : BitVec.toNat (w := 64) (hi ++ lo) = hi.toNat * 2 ^ 32 + lo.toNat := by
  rw [← Nat.shiftLeft_eq, Nat.shiftLeft_add_eq_or_of_lt lo.isLt]
  exact BitVec.toNat_append hi lo

theorem setLo_setHi (k : Block) (hi lo : Word) : setLo (setHi k hi) lo = hi ++ lo := by
  rw [setLo, hiWord_setHi]

theorem setHi_setLo (k : Block) (hi lo : Word) : setHi (setLo k lo) hi = hi ++ lo := by
  rw [setHi, loWord_setLo]

/-! One host line while not BUSY -/

/-! A write leaves the host and the schedule, and BUSY but for the write of CMD. -/

theorem applyWrite_host (s : State) (v : Word) (x : Target) : (applyWrite s v x).host = s.host := by
  cases x <;> rfl

theorem applyWrite_schedule (s : State) (v : Word) (x : Target) : (applyWrite s v x).schedule = s.schedule := by
  cases x <;> rfl

theorem applyWrite_busy (s : State) (v : Word) {x : Target} (hcmd : x ≠ .cmd) :
    (applyWrite s v x).status.busy = s.status.busy := by
  cases x with
  | cmd => exact absurd rfl hcmd
  | _ => rfl

/-- A value a host line writes depends on the bound names alone. -/
theorem hostValue_congr (h : t.host.names = s.host.names) (value : HostValue) :
    hostValue t value = hostValue s value := by
  cases value with
  | literal _ => rfl
  | name number => rw [hostValue, hostValue, h]

theorem step_write_of_idle {offset : Offset} {value : HostValue} {v : Word} {x : Target} (hwf : s.cfg.wf = true)
    (hidle : s.status.busy = false) (hturn : nextTurn s = .host)
    (hline : s.host.prog[s.host.line]? = some (.write offset 4 value)) (hv : hostValue s value = some v)
    (ha : offset.toNat % 4 = 0) (hx : target s offset = x) :
    step s = .next ((applyWrite s.popTurn v x).answered .written) := by
  have hv' : hostValue s.popTurn value = some v := (hostValue_congr rfl value).trans hv
  rw [step_host_line hwf hturn hline, hostLine_write_of_legal hv' (legalAccess_iff.2 ⟨rfl, ha⟩),
    writeWord_of_idle (s := s.popTurn) hidle, target_congr (s := s) (State.popTurn_cfg s), hx]

/-- What a settled read shows does not depend on the host, the schedule or the draws. -/
theorem settledWord_congr (h : t = { s with host := t.host, schedule := t.schedule, draws := t.draws }) (x : Target) :
    settledWord t x = settledWord s x := by
  rw [h]
  cases x <;> rfl

theorem step_read_bind_of_idle {offset : Offset} {number : Nat} {x : Target} (hwf : s.cfg.wf = true)
    (hidle : s.status.busy = false) (hturn : nextTurn s = .host)
    (hline : s.host.prog[s.host.line]? = some (.read offset 4 (some number)))
    (ha : offset.toNat % 4 = 0) (hx : target s offset = x) :
    step s = .next { s with
      schedule := s.schedule.tail
      host := { s.host with names := cellWrite s.host.names number (settledWord s x)
                            response := .data (settledWord s x)
                            line := s.host.line + 1 } } := by
  have hidle' : s.popTurn.status.busy = false := hidle
  rw [step_host_line hwf hturn hline, hostLine_read_bind_of_legal _ number (legalAccess_iff.2 ⟨rfl, ha⟩),
    readWord_of_idle hidle', afterRead_of_idle hidle', target_congr (s := s) (State.popTurn_cfg s), hx,
    settledWord_congr (s := s) rfl]
  rfl

/-! Two host lines in a row -/

theorem run_two (h1 : step s = .next t) (h2 : step t = .next u) : Sys2Proof.core.run 2 s = .next u := by
  have hs : Sys2Proof.core.step s = .next t := h1
  have ht : Sys2Proof.core.step t = .next u := h2
  simp only [Host.Core.run, hs, ht]

/-- Whose turn it is depends on the schedule and on BUSY alone. -/
theorem nextTurn_congr (hschedule : t.schedule = s.schedule) (hbusy : t.status.busy = s.status.busy) :
    nextTurn t = nextTurn s := by
  unfold nextTurn
  rw [hschedule, hbusy]

/-- The host has gone one line on, and no command was accepted. -/
structure LineDone (s t : State) : Prop where
  cfg : t.cfg = s.cfg
  busy : t.status.busy = s.status.busy
  schedule : t.schedule = s.schedule.tail
  prog : t.host.prog = s.host.prog
  line : t.host.line = s.host.line + 1

/-- After the first of two lines the second is next. -/
theorem LineDone.second {l1 l2 : HostLine} (hdone : LineDone s t) (hnext : NextTwoLines s [l1, l2]) :
    nextTurn t = .host ∧ t.host.prog[t.host.line]? = some l2 := by
  obtain ⟨_, hturn2, _, _, hline2⟩ := hnext
  refine ⟨(nextTurn_congr (s := s.popTurn) hdone.schedule hdone.busy).trans hturn2, ?_⟩
  rw [hdone.prog, hdone.line]
  exact hline2

/-- Two writes in a row while not BUSY, the first not of CMD. -/
theorem run_two_writes {o1 o2 : Offset} {value1 value2 : HostValue} {v1 v2 : Word} {x1 x2 : Target}
    (hwf : s.cfg.wf = true) (hidle : s.status.busy = false)
    (hnext : NextTwoLines s [.write o1 4 value1, .write o2 4 value2])
    (hv1 : hostValue s value1 = some v1) (hv2 : hostValue s value2 = some v2)
    (ha1 : o1.toNat % 4 = 0) (ha2 : o2.toNat % 4 = 0) (hx1 : target s o1 = x1) (hx2 : target s o2 = x2)
    (hcmd : x1 ≠ .cmd) :
    Sys2Proof.core.run 2 s =
      .next ((applyWrite ((applyWrite s.popTurn v1 x1).answered .written).popTurn v2 x2).answered .written) := by
  have ⟨hturn1, _, _, hline1, _⟩ := hnext
  have hdone : LineDone s ((applyWrite s.popTurn v1 x1).answered .written) := by
    constructor <;> simp [applyWrite_cfg, applyWrite_busy _ _ hcmd, applyWrite_schedule, applyWrite_host]
  have hnames : ((applyWrite s.popTurn v1 x1).answered .written).host.names = s.host.names := by
    simp [applyWrite_host]
  obtain ⟨hturn2, hline2⟩ := hdone.second hnext
  exact run_two (step_write_of_idle hwf hidle hturn1 hline1 hv1 ha1 hx1)
    (step_write_of_idle (hdone.cfg ▸ hwf) (hdone.busy.trans hidle) hturn2 hline2
      ((hostValue_congr hnames value2).trans hv2) ha2 ((target_congr hdone.cfg o2).trans hx2))

/-- Two reads in a row while not BUSY, each with a name for its word. -/
theorem run_two_reads {o1 o2 : Offset} {n1 n2 : Nat} {x1 x2 : Target} (hwf : s.cfg.wf = true)
    (hidle : s.status.busy = false) (hnext : NextTwoLines s [.read o1 4 (some n1), .read o2 4 (some n2)])
    (ha1 : o1.toNat % 4 = 0) (ha2 : o2.toNat % 4 = 0) (hx1 : target s o1 = x1) (hx2 : target s o2 = x2) :
    ∃ t : State, Sys2Proof.core.run 2 s = .next t ∧ t = { s with schedule := t.schedule, host := t.host } ∧
      t.host.line = s.host.line + 2 ∧
      t.host.names = cellWrite (cellWrite s.host.names n1 (settledWord s x1)) n2 (settledWord s x2) := by
  have ⟨hturn1, _, _, hline1, _⟩ := hnext
  have hfirst := step_read_bind_of_idle hwf hidle hturn1 hline1 ha1 hx1
  generalize ht : State.mk .. = t at hfirst
  have hdone : LineDone s t := by constructor <;> rw [← ht]
  obtain ⟨hturn2, hline2⟩ := hdone.second hnext
  have hsecond := step_read_bind_of_idle (hdone.cfg ▸ hwf) (hdone.busy.trans hidle) hturn2 hline2 ha2
    ((target_congr hdone.cfg o2).trans hx2)
  have hword : settledWord t x2 = settledWord s x2 := settledWord_congr (by rw [← ht]) x2
  rw [hword] at hsecond
  refine ⟨_, run_two hfirst hsecond, ?_, ?_, ?_⟩
  all_goals rw [← ht]

end Sys2Proof.Machine

namespace Sys2Proof.Claims

open Sys2Proof.Machine

/-- Settles O52: the register map, the halves of a 64-bit value, and two lines of the host for each pseudo-operation. -/
theorem sixtyFourBitViews : Obligations.SixtyFourBitViews := by
  refine ⟨fun s => ?_, fun v => ?_, fun s hidle => ?_, fun s hi lo hidle => ?_, fun s yh yl hi lo hyh hyl => ?_,
    fun s yh yl hwf hidle hne hnext => ?_, fun s x v hwf hidle hv => ?_⟩
  · have hregister {offset : Offset} := target_register (offset := offset) s
    exact ⟨hregister (by decide), hregister (by decide), hregister (by decide), hregister (by decide),
      hregister (by decide), hregister (by decide)⟩
  · rw [← toNat_append_words, hiWord_append_loWord]
  · have hread := readWord_of_idle hidle
    exact ⟨hread _, hread _, hread _, hread _, hread _, hread _⟩
  · simp only [writeWord_of_idle, hidle, applyWrite, setLo_setHi, setHi_setLo]
    exact ⟨trivial, trivial, trivial, trivial, rfl, rfl, rfl, rfl⟩
  · exact ⟨hi ++ lo, by simp [hostBlock, hyh, hyl], toNat_append_words hi lo⟩
  · obtain ⟨t, hrun, hframe, hline, hnames⟩ := run_two_reads hwf hidle hnext (x1 := .doutHi) (x2 := .doutLo)
      (by decide) (by decide) (target_register s (by decide)) (target_register s (by decide))
    refine ⟨t, hrun, ?_, hframe, hline⟩
    rw [hostBlock_eq_some]
    simp [HostBlock.hi, HostBlock.lo, hostValue, hnames, cellRead_cellWrite, hne, settledWord]
  · obtain ⟨hhi, hlo⟩ := hostBlock_eq_some.1 hv
    constructor
    · intro hnext
      refine ⟨_, run_two_writes hwf hidle hnext hhi hlo (by decide) (by decide) (x1 := .keyHi) (x2 := .keyLo)
        (target_register s (by decide)) (target_register s (by decide)) nofun, ?_, rfl⟩
      simp only [applyWrite, State.popTurn_key, State.answered_key, setLo_setHi, hiWord_append_loWord]
      rfl
    · intro hnext
      refine ⟨_, run_two_writes hwf hidle hnext hhi hlo (by decide) (by decide) (x1 := .dinHi) (x2 := .dinLo)
        (target_register s (by decide)) (target_register s (by decide)) nofun, ?_, rfl⟩
      simp only [applyWrite, State.popTurn_din, State.answered_din, setLo_setHi, hiWord_append_loWord]
      rfl

end Sys2Proof.Claims
end

section
/-!
SUPPORT. The decoder and the encoder (30_encoding.md): every word is the word of one well-formed command, the command
the decoder gives, on words, on bytes and in the table's bit numbers.
-/

namespace Sys2Proof

variable {w : Word} {i : Instr}

/-! Legal words (30_encoding.md rule R104) -/

theorem illegal_wf_iff : (Instr.illegal w).wf = true ↔ w ∉ legalWords := by simp [Instr.wf]

/-- The commands of the legal words, in the order of rule R104's list. -/
def legalCommands : List Instr :=
  [.nop, .clear, .ksDerive, .blkEnc, .blkDec, .msgEnc, .msgDec 0#3, .msgDec 1#3, .msgDec 2#3, .msgDec 3#3, .msgDec 4#3,
   .msgDec 5#3, .msgDec 6#3, .msgDec 7#3]

theorem legalCommands_encode : legalCommands.map encode = legalWords := by decide

theorem legalCommands_wf : ∀ i ∈ legalCommands, i.wf = true := by decide

/-- Every word encodes a well-formed command: a listed one, or ILLEGAL with the word. -/
theorem exists_wf_encode_eq (w : Word) : ∃ i : Instr, i.wf = true ∧ encode i = w := by
  by_cases hmem : w ∈ legalWords
  · rw [← legalCommands_encode] at hmem
    obtain ⟨i, hi, hw⟩ := List.mem_map.1 hmem
    exact ⟨i, legalCommands_wf i hi, hw⟩
  · exact ⟨.illegal w, illegal_wf_iff.2 hmem, rfl⟩

/-- The family Legality, for every command. -/
theorem legality_of_wf (h : i.wf = true) :
    (legal (encode i) = true ↔ encode i ∈ legalWords) ∧ (encode i ∈ legalWords ↔ ∀ w, i ≠ .illegal w) :=
  match i with
  | .nop => Laws.Legality.nop h
  | .clear => Laws.Legality.clear h
  | .ksDerive => Laws.Legality.ksDerive h
  | .blkEnc => Laws.Legality.blkEnc h
  | .blkDec => Laws.Legality.blkDec h
  | .msgEnc => Laws.Legality.msgEnc h
  | .msgDec padin => Laws.Legality.msgDec padin h
  | .illegal w => Laws.Legality.illegal w h

/-- The rule's formula holds of exactly the words the rule lists. -/
theorem legal_iff_mem (w : Word) : legal w = true ↔ w ∈ legalWords := by
  obtain ⟨i, hwf, rfl⟩ := exists_wf_encode_eq w
  exact (legality_of_wf hwf).1

theorem legal_eq_false_iff : legal w = false ↔ w ∉ legalWords := by
  rw [← legal_iff_mem, Bool.not_eq_true]

/-- The formula of rule R104 with its numbers read as naturals. -/
theorem legal_iff_fields (w : Word) :
    legal w = true ↔
      rsvField w = 0#21 ∧ (((opField w).toNat ≤ 5 ∧ padinField w = 0#3) ∨ (opField w).toNat = 6) := by
  have hmsgDec : opField w = 0x06#8 ↔ (opField w).toNat = 6 := BitVec.toNat_eq
  simp [legal, hmsgDec, BitVec.le_def]

/-! Words (30_encoding.md rule R110) -/

theorem decode_of_not_legal (h : legal w = false) : decode w = .illegal w := by simp [decode, h]

theorem decode_encode (h : i.wf = true) : decode (encode i) = i := by
  cases i with
  | illegal w => exact decode_of_not_legal (legal_eq_false_iff.2 (illegal_wf_iff.1 h))
  | msgDec padin =>
    have hpadin : ∀ q : BitVec 3, decode (encode (.msgDec q)) = .msgDec q := by decide
    exact hpadin padin
  | nop | clear | ksDerive | blkEnc | blkDec | msgEnc => rfl

theorem decode_eq_of_encode_eq (hwf : i.wf = true) (hw : encode i = w) : decode w = i := hw ▸ decode_encode hwf

theorem encode_decode (w : Word) : encode (decode w) = w := by
  obtain ⟨i, hwf, rfl⟩ := exists_wf_encode_eq w
  rw [decode_encode hwf]

theorem decode_wf (w : Word) : (decode w).wf = true := by
  obtain ⟨i, hwf, rfl⟩ := exists_wf_encode_eq w
  rwa [decode_encode hwf]

theorem legal_eq_false_iff_decode : legal w = false ↔ decode w = .illegal w := by
  refine ⟨decode_of_not_legal, fun h => ?_⟩
  have hwf := decode_wf w
  rw [h] at hwf
  exact legal_eq_false_iff.2 (illegal_wf_iff.1 hwf)

/-! Bytes and the table's bit numbers (20_memory.md rule R71; log entry 16) -/

/-- A word's bytes make the word again: they stand in the byte order of a buffer word. -/
theorem wordOfBytes_bytesOfWord (w : Word) :
    wordOfBytes (w.extractLsb' 24 8) (w.extractLsb' 16 8) (w.extractLsb' 8 8) (w.extractLsb' 0 8) = w :=
  Machine.bufferWord_wordBytes w

theorem decodeBytes_bytesOfWord (w : Word) (rest : List Byte) :
    decodeBytes (bytesOfWord w ++ rest) = .ok (decode w, rest) := by
  simp only [bytesOfWord, List.cons_append, List.nil_append, decodeBytes, wordOfBytes_bytesOfWord]

theorem decodeTableWord_toNat (w : Word) : decodeTableWord 32 w.toNat = some (decode w) := by
  have hbytes : decodeBytes (bytesOfWord w) = .ok (decode w, []) := by simpa using decodeBytes_bytesOfWord w []
  rw [decodeTableWord, Nat.mod_eq_of_lt w.isLt, BitVec.ofNat_toNat, BitVec.setWidth_eq, hbytes]

end Sys2Proof

namespace Sys2Proof.Claims

open Sys2Proof.Machine

/-- Settles O4: a word's bytes make the word again, and every well-formed command is what its word decodes to. -/
theorem decodeOfEncode : Obligations.DecodeOfEncode := by
  intro i hwf
  refine ⟨decode_encode hwf, fun rest => ?_, ?_⟩
  · rw [encodeBytes, decodeBytes_bytesOfWord, decode_encode hwf]
  · rw [decodeTableWord_toNat, decode_encode hwf]

/-- Settles O2: the formula and the list hold of the same words, and every other word decodes to ILLEGAL. -/
theorem legalWordsAreTheFourteen : Obligations.LegalWordsAreTheFourteen := by
  intro w
  refine ⟨legal_iff_fields w, legal_iff_mem w, rfl, fun h s => ?_⟩
  rw [decode_of_not_legal h, exec, execIllegal]

/-- Settles O3: every word is the encoding of the well-formed command it decodes to. -/
theorem encodeOfDecode : Obligations.EncodeOfDecode := fun w =>
  ⟨encode_decode w, decode_wf w, legal_eq_false_iff_decode⟩

/-- Settles O1: each of the words is the encoding of its command. -/
theorem writtenWordsDecode : Obligations.WrittenWordsDecode := by
  refine ⟨?_, ?_, ?_, ?_, ?_, ?_, ?_, ?_, ?_, ?_, ?_, ?_, ?_, ?_, ?_, ?_⟩
  all_goals exact decode_eq_of_encode_eq (by decide) (by decide)

end Sys2Proof.Claims
end

section
/-!
SUPPORT. The host's turn line by line (30_encoding.md rule R108): what each kind of legal line leaves, as the
transaction of the state with the turn taken and the host agent after it.
-/

namespace Sys2Proof.Machine

variable {s t : State}

/-- The answer goes to the host agent alone. -/
theorem answered_eq_of_host (h : t.host = s.host) (response : Response) :
    t.answered response = { t with host := { s.host with response := response, line := s.host.line + 1 } } := by
  rw [State.answered, h]

theorem hostBranch_eq (s : State) (v mask : Word) (label : Nat) :
    hostBranch s v mask label = s.atLine (if v &&& mask ≠ 0x00000000#32 then label else s.host.line + 1) := by
  rw [hostBranch, apply_ite s.atLine]

theorem step_host_ended (hwf : s.cfg.wf = true) (hturn : nextTurn s = .host)
    (hended : s.host.prog[s.host.line]? = none) : step s = .next s.popTurn := by
  rw [step_of_wf hwf, hturn]
  exact hostStep_of_ended (s := s.popTurn) hended

/-- A legal write line is its MemWrite and the OK response. -/
theorem step_host_write {offset : Offset} {value : HostValue} {v : Word} (hwf : s.cfg.wf = true)
    (hturn : nextTurn s = .host) (ha : offset.toNat % 4 = 0)
    (hline : s.host.prog[s.host.line]? = some (.write offset 4 value)) (hv : hostValue s value = some v) :
    ∃ t, memWrite s.popTurn offset 4 v = some t ∧
      step s = .next { t with host := { s.host with response := .written, line := s.host.line + 1 } } := by
  have hv' : hostValue s.popTurn value = some v := (hostValue_congr rfl value).trans hv
  refine ⟨_, memWrite_of_aligned v ha rfl, ?_⟩
  rw [step_host_line hwf hturn hline, hostLine_write_of_legal hv' (legalAccess_iff.2 ⟨rfl, ha⟩),
    answered_eq_of_host (writeWord_move s.popTurn v ha).host, State.popTurn_host]

/-- A legal read line is its MemRead and the data. -/
theorem step_host_read {offset : Offset} (hwf : s.cfg.wf = true) (hturn : nextTurn s = .host)
    (ha : offset.toNat % 4 = 0) (hline : s.host.prog[s.host.line]? = some (.read offset 4 none)) :
    ∃ v t, memRead s.popTurn offset 4 = some (v, t) ∧
      step s = .next { t with host := { s.host with response := .data v, line := s.host.line + 1 } } := by
  refine ⟨_, _, memRead_of_aligned ha rfl, ?_⟩
  rw [step_host_line hwf hturn hline, hostLine_read_of_legal _ (legalAccess_iff.2 ⟨rfl, ha⟩),
    answered_eq_of_host (afterRead_host s.popTurn _), State.popTurn_host]

/-- A legal read line with a name binds it to the data as well. -/
theorem step_host_read_bind {offset : Offset} {number : Nat} (hwf : s.cfg.wf = true) (hturn : nextTurn s = .host)
    (ha : offset.toNat % 4 = 0) (hline : s.host.prog[s.host.line]? = some (.read offset 4 (some number))) :
    ∃ v t, memRead s.popTurn offset 4 = some (v, t) ∧
      step s = .next { t with host := { s.host with response := .data v, line := s.host.line + 1
                                                    names := cellWrite s.host.names number v } } := by
  refine ⟨_, _, memRead_of_aligned ha rfl, ?_⟩
  rw [step_host_line hwf hturn hline, hostLine_read_bind_of_legal _ number (legalAccess_iff.2 ⟨rfl, ha⟩),
    answered_eq_of_host (afterRead_host s.popTurn _), State.popTurn_host, State.bind]

theorem step_host_bnz {number : Nat} {mask v : Word} {label : Nat} (hwf : s.cfg.wf = true)
    (hturn : nextTurn s = .host) (hline : s.host.prog[s.host.line]? = some (.bnz number mask label))
    (hv : cellRead s.host.names number = some v) :
    step s = .next (s.popTurn.atLine (if v &&& mask ≠ 0x00000000#32 then label else s.host.line + 1)) := by
  rw [step_host_line hwf hturn hline, hostLine, State.popTurn_host, hv]
  exact congrArg _ (hostBranch_eq s.popTurn v mask label)

theorem step_host_waitIrq (hwf : s.cfg.wf = true) (hturn : nextTurn s = .host)
    (hline : s.host.prog[s.host.line]? = some .waitIrq) :
    step s = .next (s.popTurn.atLine (if s.irq = true then s.host.line + 1 else s.host.line)) :=
  step_host_line hwf hturn hline

/-! The two ways of waiting (60_exceptions.md rule R262) -/

/-- DONE is 0 while a command runs, so irq is. -/
theorem State.Inv.idle_of_irq (h : s.Inv) (hirq : s.irq = true) : s.status.busy = false := by
  obtain ⟨_, hdone⟩ := Bool.and_eq_true_iff.1 hirq
  rw [← Bool.not_eq_true]
  intro hbusy
  obtain ⟨_, hclear, _⟩ := h.running hbusy
  rw [hdone] at hclear
  cases hclear

theorem readWord_status_busy (s : State) : (readWord s .status).getLsbD 0 = s.status.busy := by
  obtain ⟨ksv, hread⟩ := readWord_status s
  obtain ⟨hbusy, _⟩ := statusWord_fields s.status ksv
  rw [hread, hbusy]

end Sys2Proof.Machine

namespace Sys2Proof.Claims

open Sys2Proof.Machine

/-- Settles O60: one rule for each kind of line, and what irq and STATUS show of BUSY. -/
theorem hostTurnRunsLine : Obligations.HostTurnRunsLine := by
  refine ⟨fun s hwf hturn => ⟨step_host_ended hwf hturn, ?_, fun offset => step_host_read hwf hturn, ?_,
    fun number mask label v => step_host_bnz hwf hturn, step_host_waitIrq hwf hturn⟩,
    fun s => State.Inv.idle_of_irq, readWord_status_busy⟩
  · intro offset value v ha hline hvalue
    refine step_host_write hwf hturn ha hline ?_
    rcases hvalue with rfl | ⟨number, rfl, hbound⟩
    · rfl
    · exact hbound
  · intro offset number ha hline
    obtain ⟨v, t, hread, hstep⟩ := step_host_read_bind hwf hturn ha hline
    exact ⟨v, t, _, hread, hstep, cellRead_cellWrite_self _ number v, fun other => cellRead_cellWrite_ne _ v⟩

end Sys2Proof.Claims
end

section
/-!
SUPPORT. The sequencer's turns: what a running step shows, the run of an accepted command through any order of turns,
and its completion (40_command_sequencer.md rules R121 to R125, R130, R131, R135).
-/

namespace Sys2Proof.Machine

open Sys2Proof.Claims

variable {s t u : State} {turns steps turns' steps' n : Nat}

/-! The completion (40_command_sequencer.md rule R124) -/

theorem State.complete_eq (s : State) (code : ErrCode) :
    s.complete code = { s with status := completedStatus s.status.ksv s.status.bwe code, remain := 0 } := rfl

theorem exec_nop (s : State) : exec .nop s = .next (s.complete .none) := rfl

theorem exec_clear (s : State) :
    exec .clear s = .next ({ (s.discard.setResult 0 0) with dout := 0#64 }.complete .none) := rfl

theorem exec_illegal (w : Word) (s : State) : exec (.illegal w) s = .next (s.complete .illegalCmd) := rfl

/-! The sequencer's turn, and what a running step shows (40_command_sequencer.md rule R123) -/

theorem step_sequencer (hwf : s.cfg.wf = true) (hturn : nextTurn s = .sequencer) :
    step s = sequencerStep s.popTurn := by
  rw [step_of_wf hwf, hturn, agentStep]

theorem step_running (hwf : s.cfg.wf = true) (hturn : nextTurn s = .sequencer) (hbusy : s.status.busy = true)
    (hremain : 1 < s.remain) : step s = .next (runningStep s.popTurn) := by
  rw [step_sequencer hwf hturn]
  simp [sequencerStep, hbusy, hremain]

theorem readWord_popTurn (s : State) (x : Target) : readWord s.popTurn x = readWord s x := by
  cases x <;> rfl

/-- No register shows C, D, L, R, RND, BLK or REMAIN. -/
theorem InternalOnly.readWord_eq (h : InternalOnly s t) (x : Target) : readWord t x = readWord s x := by
  rw [h.eq]
  cases x <;> rfl

theorem InternalOnly.irq_eq (h : InternalOnly s t) : t.irq = s.irq := by
  rw [h.eq]
  rfl

/-! A word accepted with one step left -/

theorem State.withFetchWord_word (s : State) (w : Word) : s.withFetchWord 32 w.toNat = s.acceptNow w := by
  rw [State.withFetchWord, Nat.mod_eq_of_lt w.isLt, BitVec.ofNat_toNat, BitVec.setWidth_eq]

/-! Runs, step by step -/

theorem run_of_step (h : step s = .next u) (n : Nat) : Sys2Proof.core.run (n + 1) s = Sys2Proof.core.run n u := by
  have hstep : Sys2Proof.core.step s = .next u := h
  simp only [Host.Core.run, hstep]

theorem run_first (h : Sys2Proof.core.run (n + 1) s = .next t) :
    ∃ u, step s = .next u ∧ Sys2Proof.core.run n u = .next t := by
  simp only [Host.Core.run] at h
  split at h
  · exact ⟨_, ‹_›, h⟩
  · cases h
  · cases h

theorem run_last (h : Sys2Proof.core.run (n + 1) s = .next t) :
    ∃ u, Sys2Proof.core.run n s = .next u ∧ step u = .next t := by
  induction n generalizing s with
  | zero =>
    obtain ⟨u, hstep, hrun⟩ := run_first h
    cases hrun
    exact ⟨s, rfl, hstep⟩
  | succ n ih =>
    obtain ⟨v, hfirst, hrest⟩ := run_first h
    obtain ⟨u, hrun, hlast⟩ := ih hrest
    exact ⟨u, (run_of_step hfirst n).trans hrun, hlast⟩

/-! The schedule used up: the sequencer alone steps -/

theorem SameButCounters.status (h : SameButCounters s t) : s.status = t.status := by
  have hstatus := congrArg State.status h
  exact hstatus

theorem State.popTurn_of_nil (h : s.schedule = []) : s.popTurn = s := by
  rw [State.popTurn, h, List.tail_nil, ← h]

theorem nextTurn_of_nil (hbusy : s.status.busy = true) (h : s.schedule = []) : nextTurn s = .sequencer := by
  simp [nextTurn, h, hbusy]

/-- With the schedule used up the command completes at step REMAIN, as it would at once but for RND and BLK. -/
theorem run_remain_of_nil (hwf : s.cfg.wf = true) (hbusy : s.status.busy = true) (hnil : s.schedule = [])
    (hremain : s.remain = n + 1) :
    ∃ t result, Sys2Proof.core.run (n + 1) s = .next t ∧ exec (decode s.cmd) s = .next result ∧
      SameButCounters t result := by
  induction n generalizing s with
  | zero =>
    obtain ⟨t, ht⟩ := exec_total (decode s.cmd) s
    have hstep : step s = .next t := by
      rw [step_sequencer hwf (nextTurn_of_nil hbusy hnil), State.popTurn_of_nil hnil]
      simp [sequencerStep, hbusy, hremain, ht]
    exact ⟨t, t, run_of_step hstep 0, ht, rfl⟩
  | succ n ih =>
    have hmore : 1 < s.remain := by omega
    have hstep := step_running hwf (nextTurn_of_nil hbusy hnil) hbusy hmore
    rw [State.popTurn_of_nil hnil] at hstep
    obtain ⟨hinternal, hcount⟩ := runningStep_internal s
    have hkept := hinternal.hostInputsKept
    have hbusy' : (runningStep s).status.busy = true := by rw [hinternal.status, hbusy]
    have hnil' : (runningStep s).schedule = [] := by rw [hinternal.eq, hnil]
    obtain ⟨t, v, hrun, hv, htv⟩ := ih (hkept.cfg ▸ hwf) hbusy' hnil' (by omega)
    obtain ⟨v', result, hv', hresult, hvr⟩ := exec_runningStep s hmore
    rw [hkept.cmd, hv'] at hv
    cases hv
    exact ⟨t, result, (run_of_step hstep _).trans hrun, hresult, htv.trans hvr⟩

/-! Any order of turns without a reset (20_memory.md rule R79) -/

/-- The command of `t` completes as that of `s`, but for the host's side, RND and BLK. -/
def EndsAs (s t : State) : Prop :=
  ∀ result, exec (decode s.cmd) s = .next result →
    ∃ v, exec (decode t.cmd) t = .next v ∧ SameButHostSide result v

theorem EndsAs.refl (s : State) : EndsAs s s := fun result h => ⟨result, h, .refl result⟩

theorem EndsAs.trans (h1 : EndsAs s t) (h2 : EndsAs t u) : EndsAs s u := fun result h => by
  obtain ⟨v, hv, hside⟩ := h1 result h
  obtain ⟨w, hw, hside'⟩ := h2 v hv
  exact ⟨w, hw, hside.trans hside'⟩

/-- What the host's turns change while a command runs does not reach the command's result. -/
theorem endsAs_of_hostSide
    (h : t = { s with ctrlIE := t.ctrlIE, status := { s.status with done := t.status.done, bwe := t.status.bwe }
                      host := t.host, schedule := t.schedule, draws := t.draws }) :
    EndsAs s t := fun result hresult => by
  obtain ⟨r, v, hr, hv, hside⟩ := exec_host_side (decode s.cmd) h
  have hcmd : t.cmd = s.cmd := by rw [h]
  rw [hr] at hresult
  cases hresult
  exact ⟨v, hcmd ▸ hv, hside⟩

theorem endsAs_popTurn (s : State) : EndsAs s s.popTurn := endsAs_of_hostSide rfl

theorem endsAs_runningStep (h : 1 < s.remain) : EndsAs s (runningStep s) := fun result hresult => by
  obtain ⟨v, r, hv, hr, hsame⟩ := exec_runningStep s h
  rw [hr] at hresult
  cases hresult
  exact ⟨v, (runningStep_internal s).1.hostInputsKept.cmd ▸ hv, SameButCounters.hostSide hsame.symm⟩

/-- After `turns` turns, `steps` of them the sequencer's, `t` still runs the command of `s`. -/
structure StillRuns (s t : State) (turns steps : Nat) : Prop where
  cfg : t.cfg = s.cfg
  busy : t.status.busy = true
  cmd : t.cmd = s.cmd
  remain : t.remain = s.remain - steps
  schedule : t.schedule = s.schedule.drop turns
  endsAs : EndsAs s t

theorem StillRuns.refl (hbusy : s.status.busy = true) : StillRuns s s 0 0 :=
  ⟨rfl, hbusy, rfl, rfl, rfl, .refl s⟩

theorem StillRuns.trans (h1 : StillRuns s t turns steps) (h2 : StillRuns t u turns' steps') :
    StillRuns s u (turns + turns') (steps + steps') where
  cfg := h2.cfg.trans h1.cfg
  busy := h2.busy
  cmd := h2.cmd.trans h1.cmd
  remain := by rw [h2.remain, h1.remain, Nat.sub_sub]
  schedule := by rw [h2.schedule, h1.schedule, List.drop_drop]
  endsAs := h1.endsAs.trans h2.endsAs

/-- The host's turn lets the command run on. -/
theorem stillRuns_of_hostStep (hbusy : s.status.busy = true) (h : hostStep s.popTurn = .next t) :
    StillRuns s t 1 0 := by
  have hside := hostStep_while_busy (s := s.popTurn) hbusy h
  rw [hside]
  exact ⟨rfl, hbusy, rfl, rfl, List.drop_one.symm, endsAs_of_hostSide rfl⟩

/-- A running step lets the command run on, with one step fewer left. -/
theorem stillRuns_runningStep (hbusy : s.status.busy = true) (hremain : 1 < s.remain) :
    StillRuns s (runningStep s.popTurn) 1 1 := by
  obtain ⟨hinternal, hcount⟩ := runningStep_internal s.popTurn
  have hkept := hinternal.hostInputsKept
  exact {
    cfg := hkept.cfg
    busy := by rw [hinternal.status]; exact hbusy
    cmd := hkept.cmd
    remain := hcount
    schedule := by rw [hinternal.eq, List.drop_one]; rfl
    endsAs := (endsAs_popTurn s).trans (endsAs_runningStep hremain) }

/-- What a step can do while a command runs, the reset input left out. -/
theorem step_while_busy (hbusy : s.status.busy = true) (hreset : nextTurn s ≠ .reset) (h : step s = .next t) :
    (nextTurn s = .host ∧ StillRuns s t 1 0) ∨
    (nextTurn s = .sequencer ∧ 1 < s.remain ∧ StillRuns s t 1 1) ∨
    (nextTurn s = .sequencer ∧ s.remain ≤ 1 ∧ exec (decode s.cmd) s.popTurn = .next t) := by
  obtain ⟨_, hagent⟩ := step_next h
  cases hturn : nextTurn s with
  | reset => exact absurd hturn hreset
  | host =>
    rw [hturn] at hagent
    exact .inl ⟨rfl, stillRuns_of_hostStep hbusy hagent⟩
  | sequencer =>
    rw [hturn] at hagent
    rcases sequencerStep_cases s.popTurn with ⟨hidle, _⟩ | ⟨_, hmore, e⟩ | ⟨_, hlast, e⟩
    · exact absurd (hbusy.symm.trans hidle) (by decide)
    · cases e.symm.trans hagent
      exact .inr (.inl ⟨rfl, hmore, stillRuns_runningStep hbusy hmore⟩)
    · exact .inr (.inr ⟨rfl, hlast, e.symm.trans hagent⟩)

/-! Counting the sequencer's turns -/

/-- While BUSY the next turn is the schedule's, and the sequencer's once that is used up. -/
theorem StillRuns.nextTurn_eq (h : StillRuns s t turns steps) :
    nextTurn t = s.schedule[turns]?.getD .sequencer := by
  rw [← List.head?_drop, ← h.schedule]
  cases hs : t.schedule <;> simp [nextTurn, hs, h.busy]

theorem StillRuns.nextTurn_ne_reset (h : StillRuns s t turns steps)
    (hreset : Turn.reset ∉ s.schedule.take (turns + 1)) : nextTurn t ≠ .reset := by
  rw [h.nextTurn_eq]
  cases hs : s.schedule[turns]? with
  | none => simp
  | some turn =>
    rintro rfl
    exact hreset (by simp [List.take_add_one, hs])

@[simp] theorem sequencerTurns_zero (s : State) : sequencerTurns s 0 = 0 := by simp [sequencerTurns]

/-- One turn more counts if it is the sequencer's. -/
theorem StillRuns.sequencerTurns_succ (h : StillRuns s t turns steps) :
    sequencerTurns s (turns + 1) = sequencerTurns s turns + if nextTurn t = .sequencer then 1 else 0 := by
  rw [h.nextTurn_eq, sequencerTurns, sequencerTurns, List.take_add_one, List.count_append]
  cases hs : s.schedule[turns]? with
  | none =>
    have hend := List.getElem?_eq_none_iff.1 hs
    simp
    omega
  | some turn =>
    obtain ⟨hlt, _⟩ := List.getElem?_eq_some_iff.1 hs
    cases turn <;> simp <;> omega

theorem sequencerTurns_le_succ (s : State) (n : Nat) : sequencerTurns s n ≤ sequencerTurns s (n + 1) := by
  unfold sequencerTurns
  have := (List.take_sublist_take_left (l := s.schedule) (n.le_add_right 1)).count_le Turn.sequencer
  omega

/-- While fewer than REMAIN of the turns were the sequencer's, the command is running. -/
theorem stillRuns_of_run (hbusy : s.status.busy = true) (hreset : Turn.reset ∉ s.schedule.take n)
    (hrun : Sys2Proof.core.run n s = .next t) (hfew : sequencerTurns s n < s.remain) :
    StillRuns s t n (sequencerTurns s n) := by
  induction n generalizing t with
  | zero =>
    cases hrun
    rw [sequencerTurns_zero]
    exact .refl hbusy
  | succ n ih =>
    obtain ⟨u, hrun, hstep⟩ := run_last hrun
    have hbefore : Turn.reset ∉ s.schedule.take n := fun hmem =>
      hreset (List.take_subset_take_left _ (n.le_add_right 1) hmem)
    have hu := ih hbefore hrun (Nat.lt_of_le_of_lt (sequencerTurns_le_succ s n) hfew)
    have hcount := hu.sequencerTurns_succ
    rcases step_while_busy hu.busy (hu.nextTurn_ne_reset hreset) hstep with
      ⟨hturn, ht⟩ | ⟨hturn, _, ht⟩ | ⟨hturn, hlast, _⟩
    · simp only [hturn, reduceCtorEq, if_false] at hcount
      exact hcount ▸ hu.trans ht
    · simp only [hturn, if_true] at hcount
      exact hcount ▸ hu.trans ht
    · simp only [hturn, if_true] at hcount
      have := hu.remain
      omega

/-- The turn that is the sequencer's REMAIN-th completes the command. -/
theorem completes_of_run (hbusy : s.status.busy = true) (hremain : 1 ≤ s.remain)
    (hreset : Turn.reset ∉ s.schedule.take n) (hrun : Sys2Proof.core.run n s = .next t)
    (hfew : sequencerTurns s (n - 1) < s.remain) (hall : sequencerTurns s n = s.remain) :
    t.status.busy = false ∧ t.status.done = true ∧
      ∀ result, exec (decode s.cmd) s = .next result → SameButHostSide result t := by
  cases n with
  | zero =>
    rw [sequencerTurns_zero] at hall
    omega
  | succ n =>
    obtain ⟨u, hrun, hstep⟩ := run_last hrun
    have hbefore : Turn.reset ∉ s.schedule.take n := fun hmem =>
      hreset (List.take_subset_take_left _ (n.le_add_right 1) hmem)
    have hu := stillRuns_of_run hbusy hbefore hrun hfew
    have hcount := hu.sequencerTurns_succ
    have hleft := hu.remain
    rw [Nat.add_sub_cancel] at hfew
    rcases step_while_busy hu.busy (hu.nextTurn_ne_reset hreset) hstep with
      ⟨hturn, _⟩ | ⟨hturn, hmore, _⟩ | ⟨_, _, hexec⟩
    · simp only [hturn, reduceCtorEq, if_false] at hcount
      omega
    · simp only [hturn, if_true] at hcount
      omega
    · have hframe := exec_frame hexec
      refine ⟨hframe.busy, hframe.done, fun result hresult => ?_⟩
      obtain ⟨v, hv, hside⟩ := (hu.endsAs.trans (endsAs_popTurn u)) result hresult
      cases hv.symm.trans hexec
      exact hside

end Sys2Proof.Machine

namespace Sys2Proof.Claims

open Sys2Proof.Machine

/-- Settles O43: a running step changes internal state only, and no read and not irq shows it. -/
theorem runningStepsAreInvisible : Obligations.RunningStepsAreInvisible := by
  intro s hwf hnext hbusy hremain
  obtain ⟨hinternal, hcount⟩ := runningStep_internal s.popTurn
  exact ⟨_, step_running hwf hnext hbusy hremain, hcount, hinternal.eq,
    fun x => (hinternal.readWord_eq x).trans (readWord_popTurn s x), hinternal.irq_eq⟩

/-- Settles O44: no turn before the completion changes what the command completes with. -/
theorem commandCompletesAfterRemainSteps : Obligations.CommandCompletesAfterRemainSteps := by
  refine ⟨fun s hwf hbusy hremain hnil => ?_, fun s t n _ hbusy hremain hreset hrun => ?_⟩
  · obtain ⟨n, hn⟩ := Nat.exists_eq_add_of_le' hremain
    obtain ⟨t, result, hrun, hresult, hsame⟩ := run_remain_of_nil hwf hbusy hnil hn
    have hframe := exec_frame hresult
    exact ⟨t, result, hn ▸ hrun, hresult, hsame, hsame.status ▸ hframe.busy, hsame.status ▸ hframe.done⟩
  · obtain ⟨result, hresult⟩ := exec_total (decode s.cmd) s
    refine ⟨result, hresult, fun hfew => ?_, fun hfew hall => ?_⟩
    · have ht := stillRuns_of_run hbusy hreset hrun hfew
      exact ⟨ht.busy, ht.cmd, ht.remain, ht.endsAs result hresult⟩
    · obtain ⟨hidle, hdone, hends⟩ := completes_of_run hbusy hremain hreset hrun hfew hall
      exact ⟨hidle, hdone, hends result hresult⟩

/-- Settles O6: the word is accepted with one step left, and that step is its completion. -/
theorem fetchedWordRunsNext : Obligations.FetchedWordRunsNext := by
  intro s w hwf
  rw [State.withFetchWord_word]
  exact stepRunsAcceptedCommand (s.acceptNow w) hwf rfl rfl rfl

/-- Settles O15: NOP is the completion alone. -/
theorem nopCompletes : Obligations.NopCompletes := fun s => by
  rw [exec_nop, State.complete_eq]

/-- Settles O16: CLEAR is the discard, the result registers zeroed, and the completion. -/
theorem clearCompletes : Obligations.ClearCompletes := fun s => by
  rw [exec_clear, State.complete_eq]
  rfl

/-- Settles O17: ILLEGAL is the completion with its code alone. -/
theorem illegalCompletes : Obligations.IllegalCompletes := fun w s => by
  rw [exec_illegal, State.complete_eq]

end Sys2Proof.Claims
end

section
/-!
SUPPORT. The bit-vector utilities and the tables: rotations by their count modulo the width, the entries of a
well-formed TABLES, and one permutation after another (41_bit_vector_and_permutation.md rules R144, R145, R150, R159).
-/

namespace Sys2Proof

variable {n len width : Nat} {t : Tables} {table first second : List Nat}

/-! Rotation (41_bit_vector_and_permutation.md rule R144) -/

/-- The count of a rotation is taken modulo the width. -/
theorem rotl_eq_of_modEq (v : BitVec n) {j k : Nat} (h : j ≡ k [MOD n]) : rotl v j = rotl v k :=
  BitVec.eq_of_getMsbD_eq fun s hs => by
    rw [rotl_getMsbD v j hs, rotl_getMsbD v k hs, h.add_left s]

theorem rotl_zero (v : BitVec n) : rotl v 0 = v :=
  BitVec.eq_of_getMsbD_eq fun s hs => by
    rw [rotl_getMsbD v 0 hs, Nat.add_zero, Nat.mod_eq_of_lt hs]

theorem rotl_add_width (v : BitVec n) (k : Nat) : rotl v (n + k) = rotl v k :=
  rotl_eq_of_modEq v (Nat.add_mod_left n k)

theorem rotl_width (v : BitVec n) : rotl v n = v :=
  (rotl_add_width v 0).trans (rotl_zero v)

/-! The entries of a permutation table (41_bit_vector_and_permutation.md rules R150, R157) -/

theorem permTableWf_iff :
    permTableWf len width table = true ↔ table.length = len ∧ ∀ entry ∈ table, 1 ≤ entry ∧ entry ≤ width := by
  simp [permTableWf]

theorem permTableWf_length (h : permTableWf len width table = true) : table.length = len := (permTableWf_iff.1 h).1

/-- Entry `i` names an input index below the width. -/
theorem permTableWf_getD_sub_one_lt (h : permTableWf len width table = true) {i : Nat} (hi : i < len) :
    table.getD i 0 - 1 < width := by
  obtain ⟨hlen, hentries⟩ := permTableWf_iff.1 h
  have hi' : i < table.length := hlen ▸ hi
  obtain ⟨hone, hwidth⟩ := hentries _ (List.getElem_mem hi')
  rw [List.getD_eq_getElem _ _ hi']
  omega

theorem undoes_getD (h : undoes second first = true) {i : Nat} (hi : i < first.length) :
    second.getD (first.getD i 0 - 1) 0 = i + 1 := by
  have hlist : first.map (fun entry => second.getD (entry - 1) 0) = List.range' 1 first.length := by
    simpa [undoes] using h
  calc second.getD (first.getD i 0 - 1) 0
      = (first.map fun entry => second.getD (entry - 1) 0).getD i 0 := by simp [hi]
    _ = (List.range' 1 first.length).getD i 0 := by rw [hlist]
    _ = i + 1 := by simp [hi, Nat.add_comm]

/-- Permuting by `first` and then by `second` gives the value back where `first` undoes `second`: output bit `i` is
the input bit that entry `second[i] - 1` of `first` names. -/
theorem permute_permute_of_undoes (hfirst : permTableWf n n first = true) (hsecond : permTableWf n n second = true)
    (h : undoes first second = true) (v : BitVec n) : permute n (permute n v first) second = v := by
  have hlen := permTableWf_length hsecond
  refine BitVec.eq_of_getMsbD_eq fun i hi => ?_
  rw [permute_getMsbD _ hlen hi,
    permute_getMsbD v (permTableWf_length hfirst) (permTableWf_getD_sub_one_lt hsecond hi),
    undoes_getD h (hlen ▸ hi), Nat.add_sub_cancel]

/-! Well-formed TABLES (41_bit_vector_and_permutation.md rule R159) -/

theorem Tables.wf_iff :
    t.wf = true ↔
      permTableWf 64 64 t.ip = true ∧ permTableWf 64 64 t.fp = true ∧ permTableWf 48 32 t.e = true ∧
      permTableWf 32 32 t.p = true ∧ permTableWf 56 64 t.pc1 = true ∧ permTableWf 48 56 t.pc2 = true ∧
      (t.shifts.length = 16 ∧ ∀ shift ∈ t.shifts, shift = 1 ∨ shift = 2) ∧
      (t.sbox.length = 8 ∧ ∀ box ∈ t.sbox, box.length = 4 ∧ ∀ row ∈ box, row.length = 16 ∧ ∀ entry ∈ row, entry ≤ 15) ∧
      undoes t.fp t.ip = true ∧ undoes t.ip t.fp = true := by
  simp [Tables.wf, and_assoc]

theorem Tables.fips_wf : Tables.fips.wf = true := by decide

theorem shiftAt_eq_one_or_two (h : t.wf = true) {i : Nat} (hone : 1 ≤ i) (hlast : i ≤ 16) :
    shiftAt t i = 1 ∨ shiftAt t i = 2 := by
  obtain ⟨-, -, -, -, -, -, ⟨hlen, hshifts⟩, -⟩ := Tables.wf_iff.1 h
  have hi : i - 1 < t.shifts.length := by omega
  rw [shiftAt, List.getD_eq_getElem _ _ hi]
  exact hshifts _ (List.getElem_mem hi)

end Sys2Proof

namespace Sys2Proof.Claims

/-- Settles O29: each table undoes the other, entry by entry, so permuting by both gives the Block back. -/
theorem fpInvertsIp : Obligations.FpInvertsIp := by
  refine ⟨fun t hwf => ?_, Tables.fips_wf⟩
  obtain ⟨hip, hfp, -, -, -, -, -, -, hfpUndoes, hipUndoes⟩ := Tables.wf_iff.1 hwf
  refine ⟨fun i hi => ⟨undoes_getD hfpUndoes ?_, undoes_getD hipUndoes ?_⟩,
    fun v => ⟨permute_permute_of_undoes hip hfp hipUndoes v, permute_permute_of_undoes hfp hip hfpUndoes v⟩⟩
  · rwa [permTableWf_length hip]
  · rwa [permTableWf_length hfp]

/-- Settles O28: a rotation's bits, its count modulo the width, the entries of SHIFTS, and the rule's examples. -/
theorem rotateLeftMovesFirstBitsToEnd : Obligations.RotateLeftMovesFirstBitsToEnd :=
  ⟨fun _ v k _ hs => rotl_getMsbD v k hs,
    fun _ v _ => ⟨rotl_zero v, rotl_width v, rotl_add_width v 1⟩,
    fun _ _ hwf hone hlast => shiftAt_eq_one_or_two hwf hone hlast,
    by decide, by decide, by decide⟩

end Sys2Proof.Claims
end

section
/-!
SUPPORT. The substitution_box_array: the slices of a concatenation, and so each lane of the array
(42_substitution_box_array.md rules R172, R175).
-/

namespace Sys2Proof

variable {n m : Nat} (a : BitVec n) (b : BitVec m)

/-! The slices of a concatenation (00_scope.md rule R10) -/

/-- A slice that ends within the first part is a slice of it. -/
theorem slice_append_left {i len : Nat} (h : i + len ≤ n) : slice (a ++ b) i len = slice a i len :=
  BitVec.eq_of_getMsbD_eq fun s hs => by
    rw [slice_getMsbD _ (by omega) hs, slice_getMsbD _ h hs, BitVec.getMsbD_append, if_neg (by omega)]

/-- The slice that begins where the first part ends is the second part. -/
theorem slice_append_right {i : Nat} (h : i = n) : slice (a ++ b) i m = b :=
  BitVec.eq_of_getMsbD_eq fun s hs => by
    rw [slice_getMsbD _ (by omega) hs, BitVec.getMsbD_append, if_pos (by omega), h, Nat.add_sub_cancel_left]

/-- The slice of the whole sequence. -/
@[simp] theorem slice_full : slice a 0 n = a :=
  BitVec.eq_of_getMsbD_eq fun s hs => by rw [slice_getMsbD _ (by omega) hs, Nat.zero_add]

/-! The lanes of the array (42_substitution_box_array.md rule R172) -/

/-- Lane `j` is box `j` at the input's group `j`: the slice passes over the lanes after `j` and ends at lane `j`. -/
theorem slice_sba (t : Tables) (x : BitVec 48) {j : Nat} (h : j < 8) :
    slice (sba t x) (4 * j) 4 = sbox t j (slice x (6 * j) 6) := by
  unfold sba
  interval_cases j <;>
    simp (disch := decide) only [slice_append_left, slice_append_right, slice_full, Nat.mul_zero]

end Sys2Proof

namespace Sys2Proof.Claims

/-- Settles O33: each lane is its box at its own group, so equal groups give equal lanes, and the rule's example. -/
theorem sboxLanesAreIndependent : Obligations.SboxLanesAreIndependent :=
  ⟨fun t x _ h => slice_sba t x h,
    fun t x y _ h heq => by rw [slice_sba t x h, slice_sba t y h, heq],
    by decide⟩

/-- Settles O34: the 40 lookups, computed. -/
theorem defaultBoxCorners : Obligations.DefaultBoxCorners := by
  unfold Obligations.DefaultBoxCorners
  decide

end Sys2Proof.Claims
end

section
/-!
SUPPORT. The key schedule: a rotation after a rotation, the halves after each step as the loaded halves rotated, and
the key bits PC-1 reads (43_key_schedule.md rules R180 to R188).
-/

namespace Sys2Proof

variable {n : Nat}

/-! Rotations and permutations (41_bit_vector_and_permutation.md rules R144, R145) -/

/-- The counts of two rotations add up. -/
theorem rotl_rotl (v : BitVec n) (j k : Nat) : rotl (rotl v j) k = rotl v (j + k) :=
  BitVec.eq_of_getMsbD_eq fun s hs => by
    rw [rotl_getMsbD _ k hs, rotl_getMsbD v j (Nat.mod_lt _ (by omega)), rotl_getMsbD v _ hs, Nat.mod_add_mod,
      Nat.add_assoc, Nat.add_comm k]

/-- A permutation reads no bit but those its entries name. -/
theorem permute_congr (m : Nat) {v w : BitVec n} {table : List Nat}
    (h : ∀ entry ∈ table, v.getMsbD (entry - 1) = w.getMsbD (entry - 1)) : permute m v table = permute m w table :=
  congrArg (ofBits m) (List.map_congr_left h)

/-! The halves after each step (43_key_schedule.md rules R182, R184, R185) -/

variable {t : Tables} {k k' : Block}

/-- The sum of SHIFTS[1..i]. -/
def shiftSum (t : Tables) (i : Nat) : Nat := ((List.range' 1 i).map (shiftAt t)).sum

theorem shiftSum_succ (t : Tables) (i : Nat) : shiftSum t (i + 1) = shiftSum t i + shiftAt t (i + 1) := by
  simp [shiftSum, List.range'_1_concat, Nat.add_comm 1 i]

/-- Both halves rotated by one count. -/
def KeyHalves.rotate (h : KeyHalves) (count : Nat) : KeyHalves where
  c := rotl h.c count
  d := rotl h.d count

theorem KeyHalves.rotate_rotate (h : KeyHalves) (j k : Nat) : (h.rotate j).rotate k = h.rotate (j + k) := by
  simp only [rotate, rotl_rotl]

theorem KeyHalves.rotate_zero (h : KeyHalves) : h.rotate 0 = h := by
  simp only [rotate, rotl_zero]

/-- The halves are 28 bits wide. -/
theorem KeyHalves.rotate_width (h : KeyHalves) : h.rotate 28 = h := by
  simp only [rotate, rotl_width]

theorem rotateHalves_eq_rotate (t : Tables) (i : Nat) (h : KeyHalves) :
    rotateHalves t i h = h.rotate (shiftAt t i) := rfl

theorem keyHalvesAfter_succ (t : Tables) (k : Block) (i : Nat) :
    keyHalvesAfter t k (i + 1) = rotateHalves t (i + 1) (keyHalvesAfter t k i) := rfl

theorem keyHalvesAfter_eq_rotate (t : Tables) (k : Block) (i : Nat) :
    keyHalvesAfter t k i = (loadKey t k).rotate (shiftSum t i) := by
  induction i with
  | zero => exact (KeyHalves.rotate_zero _).symm
  | succ i ih =>
    rw [keyHalvesAfter_succ, rotateHalves_eq_rotate, ih, KeyHalves.rotate_rotate, shiftSum_succ]

/-- SHIFTS is all of TABLES the rotations depend on. -/
theorem shiftSum_of_shifts_eq {t' : Tables} (h : t.shifts = t'.shifts) (i : Nat) : shiftSum t i = shiftSum t' i := by
  have hentries : shiftAt t = shiftAt t' := funext fun j => congrArg (·.getD (j - 1) 0) h
  rw [shiftSum, shiftSum, hentries]

theorem shiftSum_fips : shiftSum Tables.fips 16 = 28 := by decide

/-! What the schedule reads of the key (43_key_schedule.md rules R180, R181) -/

theorem keyHalvesAfter_congr (h : loadKey t k = loadKey t k') (i : Nat) :
    keyHalvesAfter t k i = keyHalvesAfter t k' i := by
  rw [keyHalvesAfter_eq_rotate, keyHalvesAfter_eq_rotate, h]

theorem subkey_congr (h : loadKey t k = loadKey t k') (i : Nat) : subkey t k i = subkey t k' i :=
  congrArg (compressHalves t) (keyHalvesAfter_congr h i)

theorem roundKeys_toList (t : Tables) (k : Block) : (roundKeys t k).toList = (List.range' 1 16).map (subkey t k) := rfl

theorem roundKeys_congr (h : loadKey t k = loadKey t k') : roundKeys t k = roundKeys t k' := by
  have hsubkeys : subkey t k = subkey t k' := funext (subkey_congr h)
  rw [← Vector.toList_inj, roundKeys_toList, roundKeys_toList, hsubkeys]

/-- No entry of PC1 names a bit of index 7, 15, .., 63. -/
theorem fipsPC1_reads_no_parity_bit : ∀ entry ∈ Tables.fipsPC1, entry - 1 < 64 ∧ (entry - 1) % 8 ≠ 7 := by decide

theorem loadKey_fips_congr (h : ∀ i < 64, i % 8 ≠ 7 → k.getMsbD i = k'.getMsbD i) :
    loadKey Tables.fips k = loadKey Tables.fips k' := by
  have hload : permute 56 k Tables.fips.pc1 = permute 56 k' Tables.fips.pc1 := permute_congr 56 fun entry hentry =>
    have ⟨hlt, hparity⟩ := fipsPC1_reads_no_parity_bit entry hentry
    h (entry - 1) hlt hparity
  simp only [loadKey, hload]

end Sys2Proof

/-! KS_DERIVE (43_key_schedule.md rules R186, R188) -/

namespace Sys2Proof.Machine

theorem exec_ksDerive (s : State) : exec .ksDerive s = .next (s.deriveSchedule.complete .none) := rfl

theorem rkEntry_deriveSchedule (s : State) {i : Nat} (hone : 1 ≤ i) (hlast : i ≤ 16) :
    rkEntry s.deriveSchedule (i - 1) = subkey s.cfg.tables s.key i := by
  have hi : i - 1 < 16 := by omega
  have hindex : 1 + (i - 1) = i := by omega
  simp [rkEntry, roundKeys_toList, hi, hindex]

end Sys2Proof.Machine

namespace Sys2Proof.Claims

open Sys2Proof.Machine

/-- Settles O30: the carried halves are the loaded ones rotated by the sum of SHIFTS, by induction on the step. -/
theorem keyHalvesAccumulateRotation : Obligations.KeyHalvesAccumulateRotation := fun t k i =>
  have hhalves := keyHalvesAfter_eq_rotate t k i
  ⟨keyHalvesAfter_succ t k i, congrArg KeyHalves.c hhalves, congrArg KeyHalves.d hhalves⟩

/-- Settles O31: the default SHIFTS sum to 28, the width of a half, so the last rotation comes full circle. -/
theorem defaultHalvesReturn : Obligations.DefaultHalvesReturn := by
  refine ⟨fun t k hshifts => ?_, by decide⟩
  have hsum : shiftSum t 16 = 28 := (shiftSum_of_shifts_eq hshifts 16).trans shiftSum_fips
  rw [keyHalvesAfter_eq_rotate, hsum, KeyHalves.rotate_width]

/-- Settles O32: PC-1 reads no parity bit, so the two keys load the same halves, and the rest follows from those. -/
theorem parityBitsReachNoSubkey : Obligations.ParityBitsReachNoSubkey := fun _ _ h =>
  have hload := loadKey_fips_congr h
  ⟨roundKeys_congr hload, keyHalvesAfter_congr hload 16⟩

/-- Settles O18: KS_DERIVE is the schedule of KEY, entry by entry, and the completion. -/
theorem ksDeriveCompletes : Obligations.KsDeriveCompletes := fun s =>
  ⟨_, exec_ksDerive s, fun _ hone hlast => rkEntry_deriveSchedule s hone hlast, by rw [State.complete_eq]; rfl⟩

end Sys2Proof.Claims
end

section
/-!
SUPPORT. The DES_feistel_round_engine: the inverse of a round, the rounds undone in reverse order, and the block
transform undone by the reversed subkeys (44_feistel_round_engine.md rules R203 to R207).
-/

namespace Sys2Proof

variable {t : Tables}

/-! One round and its inverse (44_feistel_round_engine.md rule R203) -/

/-- The inverse of a round: `(L', R') ↦ (R' ⊕ f(L', k), L')`. -/
def feistelUnround (t : Tables) (h : FeistelHalves) (k : Subkey) : FeistelHalves where
  l := h.r ^^^ feistelF t h.l k
  r := h.l

theorem feistelRound_feistelUnround (t : Tables) (h : FeistelHalves) (k : Subkey) :
    feistelRound t (feistelUnround t h k) k = h := by
  rw [feistelRound, feistelUnround, xor_cancel_right]

theorem feistelUnround_feistelRound (t : Tables) (h : FeistelHalves) (k : Subkey) :
    feistelUnround t (feistelRound t h k) k = h := by
  rw [feistelRound, feistelUnround, xor_cancel_right]

theorem feistelRound_eq_swap {l r : Half} {k : Subkey} (h : feistelF t r k = 0#32) :
    feistelRound t { l := l, r := r } k = { l := r, r := l } := by
  rw [feistelRound, h, BitVec.xor_zero]

theorem feistelRound_bijective (t : Tables) (k : Subkey) :
    Function.Bijective fun h : FeistelHalves => feistelRound t h k :=
  Function.bijective_iff_has_inverse.2
    ⟨(feistelUnround t · k), (feistelUnround_feistelRound t · k), (feistelRound_feistelUnround t · k)⟩

/-! Rounds in reverse order (44_feistel_round_engine.md rule R207) -/

/-- The halves exchanged, as the pre-output of the block transform has them (44_feistel_round_engine.md rule R205). -/
def FeistelHalves.swap (h : FeistelHalves) : FeistelHalves where
  l := h.r
  r := h.l

/-- On exchanged halves a round is the inverse round: this is why decoding runs the same rounds. -/
theorem feistelRound_swap (t : Tables) (h : FeistelHalves) (k : Subkey) :
    feistelRound t h.swap k = (feistelUnround t h k).swap := rfl

/-- Rounds, an exchange, and the rounds with the subkeys reversed give the first halves back, exchanged. -/
theorem foldl_feistelRound_reverse_swap (t : Tables) (keys : List Subkey) (h : FeistelHalves) :
    keys.reverse.foldl (feistelRound t) (keys.foldl (feistelRound t) h).swap = h.swap := by
  induction keys generalizing h with
  | nil => rfl
  | cons k keys ih =>
    rw [List.foldl_cons, List.reverse_cons, List.foldl_append, ih, List.foldl_cons, List.foldl_nil, feistelRound_swap,
      feistelUnround_feistelRound]

/-! The load and the store (44_feistel_round_engine.md rules R204, R205) -/

/-- The two halves of a Block, put together again (00_scope.md rule R10). -/
theorem slice_append_slice (v : Block) : slice v 0 32 ++ slice v 32 32 = v := by
  refine BitVec.eq_of_getMsbD_eq (w := 64) fun s hs => ?_
  rw [BitVec.getMsbD_append]
  split
  · rw [slice_getMsbD v (by omega) (by omega), Nat.add_sub_cancel' ‹32 ≤ s›]
  · rw [slice_getMsbD v (by omega) (by omega), Nat.zero_add]

/-- IP and FP are tables of a Block, each the inverse of the other (41_bit_vector_and_permutation.md rule R150). -/
structure Tables.FinalInvertsInitial (t : Tables) : Prop where
  ip : permTableWf 64 64 t.ip = true
  fp : permTableWf 64 64 t.fp = true
  fp_undoes : undoes t.fp t.ip = true
  ip_undoes : undoes t.ip t.fp = true

/-- FP then IP leaves the pre-output, which has the halves exchanged. -/
theorem loadBlock_storeBlock (ht : t.FinalInvertsInitial) (h : FeistelHalves) :
    loadBlock t (storeBlock t h) = h.swap := by
  rw [loadBlock, storeBlock, permute_permute_of_undoes ht.fp ht.ip ht.fp_undoes, slice_append_left _ _ (by omega),
    slice_full, slice_append_right _ _ rfl, FeistelHalves.swap]

theorem storeBlock_swap_loadBlock (ht : t.FinalInvertsInitial) (x : Block) :
    storeBlock t (loadBlock t x).swap = x := by
  rw [storeBlock, FeistelHalves.swap, loadBlock, slice_append_slice, permute_permute_of_undoes ht.ip ht.fp ht.ip_undoes]

/-- The two orders of the subkeys are each other's reverse (44_feistel_round_engine.md rule R206). -/
theorem decodeOrder_reverse (rk : Vector Subkey 16) : (decodeOrder rk).reverse = encodeOrder rk :=
  List.reverse_reverse rk.toList

/-- The transform with the subkeys reversed undoes the transform: it loads the last halves exchanged, its rounds lead
back to the first halves exchanged, and the store puts those together again. -/
theorem desx_desx_reverse (ht : t.FinalInvertsInitial) (x : Block) (keys : List Subkey) :
    desx t (desx t x keys) keys.reverse = x := by
  rw [desx, runRounds, desx, loadBlock_storeBlock ht, runRounds, foldl_feistelRound_reverse_swap,
    storeBlock_swap_loadBlock ht]

end Sys2Proof

namespace Sys2Proof.Claims

/-- Settles O35: the round and its inverse undo each other, and the rule's example. -/
theorem roundIsInvertible : Obligations.RoundIsInvertible :=
  ⟨fun t l r k => ⟨rfl, feistelRound_feistelUnround t ⟨l, r⟩ k, feistelRound_eq_swap⟩, feistelRound_bijective,
    by decide +kernel⟩

/-- Settles O36: both orders are lists of subkeys and their reverses. -/
theorem decodingInvertsEncoding : Obligations.DecodingInvertsEncoding := fun t rk x hip hfp hfpUndoes hipUndoes => by
  have ht : t.FinalInvertsInitial := ⟨hip, hfp, hfpUndoes, hipUndoes⟩
  refine ⟨desx_desx_reverse ht x (encodeOrder rk), ?_⟩
  have hback := desx_desx_reverse ht x (decodeOrder rk)
  rwa [decodeOrder_reverse] at hback

end Sys2Proof.Claims
end

section
/-!
SUPPORT. The commands of the DES_feistel_round_engine, with a schedule and without (44_feistel_round_engine.md rules
R208, R209).
-/

namespace Sys2Proof.Machine

variable {s : State}

theorem exec_blkEnc (s : State) : exec .blkEnc s = .next (blockCommand (encodeOrder s.rk) s) := rfl

theorem exec_blkDec (s : State) : exec .blkDec s = .next (blockCommand (decodeOrder s.rk) s) := rfl

theorem blockCommand_of_schedule (hksv : s.status.ksv = true) (keys : List Subkey) :
    blockCommand keys s =
      { s with dout := desx s.cfg.tables s.din keys
               l := (runRounds s.cfg.tables s.din keys).l
               r := (runRounds s.cfg.tables s.din keys).r
               status := Claims.completedStatus true s.status.bwe .none
               remain := 0 } := by
  rw [blockCommand, if_pos hksv, State.complete_eq, State.storeResult, hksv]

theorem blockCommand_of_no_schedule (hksv : s.status.ksv = false) (keys : List Subkey) :
    blockCommand keys s =
      { s with status := Claims.completedStatus false s.status.bwe .noSchedule, remain := 0 } := by
  rw [blockCommand, hksv, if_neg Bool.false_ne_true, State.complete_eq, hksv]

end Sys2Proof.Machine

namespace Sys2Proof.Claims

open Sys2Proof.Machine

/-- Settles O19: with a schedule BLK_ENC stores the transform and completes. -/
theorem blkEncCompletes : Obligations.BlkEncCompletes := fun s hksv =>
  (exec_blkEnc s).trans (congrArg Host.Outcome.next (blockCommand_of_schedule hksv (encodeOrder s.rk)))

/-- Settles O20: with a schedule BLK_DEC stores the transform under the reversed subkeys and completes. -/
theorem blkDecCompletes : Obligations.BlkDecCompletes := fun s hksv =>
  (exec_blkDec s).trans (congrArg Host.Outcome.next (blockCommand_of_schedule hksv (decodeOrder s.rk)))

/-- Settles O21: without a schedule both commands are the completion with NO_SCHEDULE. -/
theorem blockCommandsNeedSchedule : Obligations.BlockCommandsNeedSchedule := fun s hksv =>
  ⟨(exec_blkEnc s).trans (congrArg Host.Outcome.next (blockCommand_of_no_schedule hksv (encodeOrder s.rk))),
    (exec_blkDec s).trans (congrArg Host.Outcome.next (blockCommand_of_no_schedule hksv (decodeOrder s.rk)))⟩

end Sys2Proof.Claims
end

section
/-!
SUPPORT. Complementation: permutations, slices, rotations and concatenations move bits, so the complement passes
through them, and at the mixing of a round it cancels (44_feistel_round_engine.md rule R210).
-/

namespace Sys2Proof

variable {n m : Nat} {t : Tables}

/-! The complement through the bit-vector utilities (41_bit_vector_and_permutation.md rules R143 to R145) -/

theorem permute_not {table : List Nat} (h : permTableWf m n table = true) (v : BitVec n) :
    permute m (~~~v) table = ~~~(permute m v table) := by
  have hlen := permTableWf_length h
  refine BitVec.eq_of_getMsbD_eq fun i hi => ?_
  simp only [permute_getMsbD _ hlen hi, BitVec.getMsbD_not, hi, permTableWf_getD_sub_one_lt h hi]

theorem slice_not {i len : Nat} (h : i + len ≤ n) (v : BitVec n) : slice (~~~v) i len = ~~~(slice v i len) := by
  refine BitVec.eq_of_getMsbD_eq fun s hs => ?_
  have hindex : i + s < n := by omega
  simp only [slice_getMsbD _ h hs, BitVec.getMsbD_not, hs, hindex]

theorem rotl_not (v : BitVec n) (k : Nat) : rotl (~~~v) k = ~~~(rotl v k) := by
  refine BitVec.eq_of_getMsbD_eq fun s hs => ?_
  have hindex : (s + k) % n < n := Nat.mod_lt _ (by omega)
  simp only [rotl_getMsbD _ k hs, BitVec.getMsbD_not, hs, hindex]

/-- Two complements cancel at an exclusive-or. -/
theorem not_xor_not (a b : BitVec n) : ~~~a ^^^ ~~~b = a ^^^ b := by
  rw [← BitVec.not_xor_left, ← BitVec.not_xor_right, BitVec.not_not]

/-! The key schedule (43_key_schedule.md rules R181 to R186) -/

/-- Both key halves complemented. -/
def KeyHalves.complement (h : KeyHalves) : KeyHalves where
  c := ~~~h.c
  d := ~~~h.d

theorem loadKey_not (ht : t.wf = true) (k : Block) : loadKey t (~~~k) = (loadKey t k).complement := by
  obtain ⟨-, -, -, -, hpc1, -⟩ := Tables.wf_iff.1 ht
  rw [loadKey, permute_not hpc1, slice_not (by omega), slice_not (by omega), KeyHalves.complement, loadKey]

theorem KeyHalves.rotate_complement (h : KeyHalves) (count : Nat) :
    h.complement.rotate count = (h.rotate count).complement := by
  simp only [complement, rotate, rotl_not]

theorem compressHalves_complement (ht : t.wf = true) (h : KeyHalves) :
    compressHalves t h.complement = ~~~(compressHalves t h) := by
  obtain ⟨-, -, -, -, -, hpc2, -⟩ := Tables.wf_iff.1 ht
  rw [compressHalves, KeyHalves.complement, ← BitVec.not_append, permute_not hpc2, compressHalves]

theorem keyHalvesAfter_not (ht : t.wf = true) (k : Block) (i : Nat) :
    keyHalvesAfter t (~~~k) i = (keyHalvesAfter t k i).complement := by
  rw [keyHalvesAfter_eq_rotate, loadKey_not ht, KeyHalves.rotate_complement, keyHalvesAfter_eq_rotate]

theorem subkey_not (ht : t.wf = true) (k : Block) (i : Nat) : subkey t (~~~k) i = ~~~(subkey t k i) := by
  rw [subkey, keyHalvesAfter_not ht, compressHalves_complement ht, subkey]

theorem roundKeys_not_toList (ht : t.wf = true) (k : Block) :
    (roundKeys t (~~~k)).toList = (roundKeys t k).toList.map (~~~·) := by
  rw [roundKeys_toList, roundKeys_toList, List.map_map]
  exact List.map_congr_left fun i _ => subkey_not ht k i

/-! The block transform (44_feistel_round_engine.md rules R202 to R205) -/

theorem expand_not (ht : t.wf = true) (r : Half) : permute 48 (~~~r) t.e = ~~~(permute 48 r t.e) := by
  obtain ⟨-, -, he, -⟩ := Tables.wf_iff.1 ht
  exact permute_not he r

/-- The complements of the half and of the subkey cancel before the boxes. -/
theorem feistelF_not_not (ht : t.wf = true) (r : Half) (k : Subkey) : feistelF t (~~~r) (~~~k) = feistelF t r k := by
  rw [feistelF, expand_not ht, not_xor_not, feistelF]

/-- Both Feistel halves complemented. -/
def FeistelHalves.complement (h : FeistelHalves) : FeistelHalves where
  l := ~~~h.l
  r := ~~~h.r

theorem feistelRound_complement (ht : t.wf = true) (h : FeistelHalves) (k : Subkey) :
    feistelRound t h.complement (~~~k) = (feistelRound t h k).complement := by
  rw [feistelRound, FeistelHalves.complement, feistelF_not_not ht, ← BitVec.not_xor_left, feistelRound,
    FeistelHalves.complement]

theorem loadBlock_not (ht : t.wf = true) (x : Block) : loadBlock t (~~~x) = (loadBlock t x).complement := by
  obtain ⟨hip, -⟩ := Tables.wf_iff.1 ht
  rw [loadBlock, permute_not hip, slice_not (by omega), slice_not (by omega), FeistelHalves.complement, loadBlock]

theorem runRounds_not (ht : t.wf = true) (x : Block) (keys : List Subkey) :
    runRounds t (~~~x) (keys.map (~~~·)) = (runRounds t x keys).complement := by
  rw [runRounds, loadBlock_not ht, List.foldl_map, runRounds]
  exact List.foldl_hom FeistelHalves.complement (feistelRound_complement ht)

theorem storeBlock_complement (ht : t.wf = true) (h : FeistelHalves) :
    storeBlock t h.complement = ~~~(storeBlock t h) := by
  obtain ⟨-, hfp, -⟩ := Tables.wf_iff.1 ht
  rw [storeBlock, FeistelHalves.complement, ← BitVec.not_append, permute_not hfp, storeBlock]

theorem desx_not (ht : t.wf = true) (x : Block) (keys : List Subkey) :
    desx t (~~~x) (keys.map (~~~·)) = ~~~(desx t x keys) := by
  rw [desx, runRounds_not ht, storeBlock_complement ht, desx]

theorem desx_roundKeys_not (ht : t.wf = true) (k x : Block) :
    desx t (~~~x) (roundKeys t (~~~k)).toList = ~~~(desx t x (roundKeys t k).toList) := by
  rw [roundKeys_not_toList ht, desx_not ht]

end Sys2Proof

/-! KS_DERIVE, then BLK_ENC (44_feistel_round_engine.md rule R210) -/

namespace Sys2Proof.Machine

/-- BLK_ENC after KS_DERIVE has a schedule: the one of KEY. -/
theorem exists_blkEnc_after_ksDerive (s : State) :
    ∃ a b, exec .ksDerive s = .next a ∧ exec .blkEnc a = .next b ∧
      b.dout = desx s.cfg.tables s.din (roundKeys s.cfg.tables s.key).toList := by
  refine ⟨_, _, exec_ksDerive s, exec_blkEnc _, ?_⟩
  rw [blockCommand_of_schedule (by simp)]
  simp [encodeOrder]

end Sys2Proof.Machine

namespace Sys2Proof.Claims

open Sys2Proof.Machine

/-- Settles O37: the complement passes through every step of the schedule and of the transform, and the example. -/
theorem complementationProperty : Obligations.ComplementationProperty := by
  refine ⟨fun t k i r k' ht => ⟨subkey_not ht k i, expand_not ht r, feistelF_not_not ht r k'⟩,
    fun t k x ht => desx_roundKeys_not ht k x, fun s hcfg => ?_, by decide +kernel, by decide⟩
  obtain ⟨a, b, ha, hb, hdout⟩ := exists_blkEnc_after_ksDerive s
  obtain ⟨a', b', ha', hb', hdout'⟩ := exists_blkEnc_after_ksDerive { s with key := ~~~s.key, din := ~~~s.din }
  refine ⟨a, b, a', b', ha, hb, ha', hb', ?_⟩
  rw [hdout', hdout]
  exact desx_roundKeys_not (cfg_wf_tables hcfg) s.key s.din

end Sys2Proof.Claims
end

section
/-!
SUPPORT. The framing functions: what each byte of a padded, transformed and stripped message is, and that the reversed
subkeys take a transformed byte sequence back (45_block_framer.md rules R220 to R224).
-/

namespace Sys2Proof

open Sys2Proof.Claims

variable {t : Tables} {byte byte' : Nat → Byte} {bytes : List Byte}

theorem Tables.finalInvertsInitial (h : t.wf = true) : t.FinalInvertsInitial := by
  obtain ⟨hip, hfp, -, -, -, -, -, -, hfpUndoes, hipUndoes⟩ := Tables.wf_iff.1 h
  exact ⟨hip, hfp, hfpUndoes, hipUndoes⟩

theorem padcount_eq_zero_iff (n : Nat) : padcount n = 0 ↔ n % 8 = 0 := by
  unfold padcount
  omega

/-! Blocks of a byte sequence (45_block_framer.md rules R222, R223) -/

theorem blockOf_eq_toBits_map (byte : Nat → Byte) (b : Nat) :
    blockOf byte b = toBits 64 ((List.range 8).map fun k => byte (8 * b + k)) := rfl

theorem toBytes_blockOf (byte : Nat → Byte) (b : Nat) :
    toBytes (blockOf byte b) = (List.range 8).map fun k => byte (8 * b + k) :=
  toBytes_toBits (by simp)

/-- A block depends on its own eight bytes. -/
theorem blockOf_congr {b : Nat} (h : ∀ j, j / 8 = b → byte j = byte' j) : blockOf byte b = blockOf byte' b := by
  rw [blockOf_eq_toBits_map, blockOf_eq_toBits_map]
  refine congrArg (toBits 64) (List.map_congr_left fun k hk => h _ ?_)
  have := List.mem_range.1 hk
  omega

/-- Block `b` of the transformed sequence is the transform of block `b`. -/
theorem blockOf_transformedByte (t : Tables) (keys : List Subkey) (byte : Nat → Byte) (b : Nat) :
    blockOf (transformedByte t keys byte) b = desx t (blockOf byte b) keys := by
  have hbytes : ((List.range 8).map fun k => transformedByte t keys byte (8 * b + k)) =
      toBytes (desx t (blockOf byte b) keys) := by
    refine List.ext_getElem (by simp) fun k hk hk' => ?_
    rw [toBytes_length] at hk'
    have hblock : (8 * b + k) / 8 = b := by omega
    simp [transformedByte, hblock, Nat.mod_eq_of_lt hk', hk']
  rw [blockOf_eq_toBits_map, hbytes, toBits_toBytes]

/-- A transformed byte depends on the bytes of its own block (45_block_framer.md rule R234). -/
theorem transformedByte_congr (t : Tables) (keys : List Subkey) {j : Nat}
    (h : ∀ i, i / 8 = j / 8 → byte i = byte' i) : transformedByte t keys byte j = transformedByte t keys byte' j := by
  rw [transformedByte, transformedByte, blockOf_congr h]

/-- The reversed subkeys take each transformed byte back (45_block_framer.md rule R232). -/
theorem transformedByte_reverse (ht : t.FinalInvertsInitial) (keys : List Subkey) (byte : Nat → Byte) (j : Nat) :
    transformedByte t keys.reverse (transformedByte t keys byte) j = byte j := by
  have hindex : j % 8 < 8 := Nat.mod_lt _ (by decide)
  rw [transformedByte, blockOf_transformedByte, desx_desx_reverse ht, toBytes_blockOf]
  simp [hindex, Nat.div_add_mod]

/-! Byte lists as byte sequences (45_block_framer.md rules R222, R223) -/

theorem blockAt_eq_blockOf (hbytes : ∀ j < bytes.length, bytes[j]? = some (byte j)) {b : Nat}
    (h : 8 * b + 8 ≤ bytes.length) : blockAt bytes b = blockOf byte b := by
  rw [blockAt, chunk_eq h, blockOf_eq_toBits_map]
  refine congrArg (toBits 64) (List.map_congr_left fun k hk => ?_)
  have := List.mem_range.1 hk
  rw [List.getD_eq_getElem?_getD, hbytes _ (by omega), Option.getD_some]

/-- Each byte of a transformed message, and where they end. -/
theorem transformMessage_getElem?_eq (t : Tables) (keys : List Subkey)
    (hbytes : ∀ j < bytes.length, bytes[j]? = some (byte j)) (j : Nat) :
    (transformMessage t keys bytes)[j]? =
      if j < 8 * (bytes.length / 8) then some (transformedByte t keys byte j) else none := by
  split
  · have hindex : j % 8 < 8 := Nat.mod_lt _ (by decide)
    rw [transformMessage_getElem? t keys bytes ‹_›, blockAt_eq_blockOf hbytes (by omega)]
    simp [transformedByte, hindex]
  · exact List.getElem?_eq_none (by rw [transformMessage_length]; omega)

end Sys2Proof

namespace Sys2Proof.Machine

open Sys2Proof.Claims

variable {s s' : State}

/-! The operands and results of the message commands (45_block_framer.md rules R221, R228, R230) -/

/-- Each byte of the padded message operand. -/
theorem padMessage_message_getElem? (s : State) {j : Nat} (h : j < s.inLen.toNat + padcount s.inLen.toNat) :
    (padMessage s.cfg.padByte (message s))[j]? = some (paddedByte s j) := by
  rw [padMessage, List.getElem?_append, message_length, paddedByte]
  split
  · exact message_getElem? s ‹_›
  · exact List.getElem?_replicate_of_lt (by omega)

theorem encodedMessage_getElem? (s : State) {j : Nat} (h : j < s.inLen.toNat + padcount s.inLen.toNat) :
    (encodedMessage s)[j]? =
      some (transformedByte s.cfg.tables (roundKeys s.cfg.tables s.key).toList (paddedByte s) j) := by
  have hlength : (padMessage s.cfg.padByte (message s)).length = s.inLen.toNat + padcount s.inLen.toNat := by simp
  obtain ⟨_, hwhole⟩ := padcount_spec s.inLen.toNat
  rw [encodedMessage, encodeOrder,
    transformMessage_getElem?_eq _ _ (fun _ hi => padMessage_message_getElem? s (hlength ▸ hi)), hlength,
    if_pos (by omega)]

theorem decodedMessage_getElem? (s : State) (j : Nat) :
    (decodedMessage s)[j]? =
      if j < 8 * (s.inLen.toNat / 8) then
        some (transformedByte s.cfg.tables (roundKeys s.cfg.tables s.key).toList.reverse (readInByte s) j)
      else none := by
  rw [decodedMessage, decodeOrder,
    transformMessage_getElem?_eq _ _ (fun _ hi => message_getElem? s (message_length s ▸ hi)), message_length]

theorem stripTail_decodedMessage_length (q : Nat) (s : State) :
    (stripTail q (decodedMessage s)).length = 8 * (s.inLen.toNat / 8) - q := by
  rw [stripTail, List.length_take, decodedMessage_length]
  omega

/-- Each byte of the decoded message after the strip, and where they end. -/
theorem stripTail_decodedMessage_getElem? (q : Nat) (s : State) (j : Nat) :
    (stripTail q (decodedMessage s))[j]? =
      if j < 8 * (s.inLen.toNat / 8) - q then
        some (transformedByte s.cfg.tables (roundKeys s.cfg.tables s.key).toList.reverse (readInByte s) j)
      else none := by
  rw [stripTail, List.getElem?_take, decodedMessage_length]
  split
  · rw [decodedMessage_getElem?, if_pos (by omega)]
  · rfl

/-! The checks (45_block_framer.md rules R229, R231) -/

theorem encodeCheck_of_too_long (h : s.cfg.maxMsgBytes < s.inLen.toNat) : encodeCheck s = .capacity :=
  if_pos h

theorem encodeCheck_of_empty (h : s.inLen.toNat = 0) : encodeCheck s = .emptyInput := by
  rw [encodeCheck, if_neg (by omega), if_pos h]

theorem decodeCheck_of_too_long (q : Nat) (h : s.cfg.maxMsgBytes < s.inLen.toNat) : decodeCheck q s = .capacity :=
  if_pos h

theorem decodeCheck_of_misaligned (q : Nat) (hfits : s.inLen.toNat ≤ s.cfg.maxMsgBytes)
    (h : s.inLen.toNat % 8 ≠ 0) : decodeCheck q s = .alignment := by
  rw [decodeCheck, if_neg (Nat.not_lt.2 hfits), if_pos h]

theorem decodeCheck_of_short {q : Nat} (hfits : s.inLen.toNat ≤ s.cfg.maxMsgBytes) (hwhole : s.inLen.toNat % 8 = 0)
    (h : s.inLen.toNat < q) : decodeCheck q s = .padCount := by
  rw [decodeCheck, if_neg (Nat.not_lt.2 hfits), if_neg (not_not.2 hwhole), if_pos h]

/-! The completion of a message command (45_block_framer.md rules R227, R228, R230) -/

/-- What both message commands complete to when their checks give `code`. -/
def messageCommand (code : ErrCode) (bytes : List Byte) (padOut : Nat) (s : State) : State :=
  if code = .none then finishMessage bytes padOut s else s.failMessage code

theorem exec_msgEnc (s : State) :
    exec .msgEnc s = .next (messageCommand (encodeCheck s) (encodedMessage s) (padcount s.inLen.toNat) s) := by
  cases hcheck : encodeCheck s <;> simp [exec, execMsgEnc, hcheck, messageCommand]

theorem exec_msgDec (q : BitVec 3) (s : State) :
    exec (.msgDec q) s =
      .next (messageCommand (decodeCheck q.toNat s) (stripTail q.toNat (decodedMessage s)) 0 s) := by
  cases hcheck : decodeCheck q.toNat s <;> simp [exec, execMsgDec, hcheck, messageCommand]

theorem exec_msgEnc_of_pass (hfits : s.inLen.toNat ≤ s.cfg.maxMsgBytes) (hpos : 0 < s.inLen.toNat) :
    exec .msgEnc s = .next (finishMessage (encodedMessage s) (padcount s.inLen.toNat) s) := by
  rw [exec_msgEnc, messageCommand, if_pos (encodeCheck_none.2 ⟨hfits, hpos⟩)]

theorem exec_msgDec_of_pass {q : BitVec 3} (hfits : s.inLen.toNat ≤ s.cfg.maxMsgBytes)
    (hwhole : s.inLen.toNat % 8 = 0) (hq : q.toNat ≤ s.inLen.toNat) :
    exec (.msgDec q) s = .next (finishMessage (stripTail q.toNat (decodedMessage s)) 0 s) := by
  rw [exec_msgDec, messageCommand, if_pos (decodeCheck_none.2 ⟨hfits, hwhole, hq⟩)]

/-- A failed message command writes OUT_LEN, PAD_OUT, STATUS and REMAIN alone. -/
theorem messageCommand_of_fail {code : ErrCode} (hcode : code ≠ .none) (bytes : List Byte) (padOut : Nat) (s : State) :
    messageCommand code bytes padOut s =
      { s with outLen := 0#32, padOut := 0#3, remain := 0
               status := completedStatus s.status.ksv s.status.bwe code } :=
  if_neg hcode

theorem exec_msgEnc_of_fail {code : ErrCode} (h : encodeCheck s = code) (hcode : code ≠ .none) :
    exec .msgEnc s =
      .next { s with outLen := 0#32, padOut := 0#3, remain := 0
                     status := completedStatus s.status.ksv s.status.bwe code } := by
  rw [exec_msgEnc, h, messageCommand_of_fail hcode]

theorem exec_msgDec_of_fail {q : BitVec 3} {code : ErrCode} (h : decodeCheck q.toNat s = code)
    (hcode : code ≠ .none) :
    exec (.msgDec q) s =
      .next { s with outLen := 0#32, padOut := 0#3, remain := 0
                     status := completedStatus s.status.ksv s.status.bwe code } := by
  rw [exec_msgDec, h, messageCommand_of_fail hcode]

/-- The frame of a message command without error, and the discard of rule R227. -/
theorem finishMessage_eq (bytes : List Byte) (p : Nat) (s : State) :
    finishMessage bytes p s =
      { s with outBuf := (finishMessage bytes p s).outBuf, outLen := (finishMessage bytes p s).outLen
               padOut := (finishMessage bytes p s).padOut
               rk := Vector.replicate 16 0#48
               c := 0#28, d := 0#28, l := 0#32, r := 0#32
               status := completedStatus false s.status.bwe .none
               remain := 0 } := rfl

theorem finishMessage_outLen_toNat {bytes : List Byte} (hfits : bytes.length ≤ 65536) (p : Nat) (s : State) :
    (finishMessage bytes p s).outLen.toNat = bytes.length := by
  rw [finishMessage_outLen, BitVec.toNat_ofNat, Nat.mod_eq_of_lt (by omega)]

/-- OUT_BUF holds the result bytes, and past them what it held before. -/
theorem cellRead_finishMessage (bytes : List Byte) (p : Nat) (s : State) (j : Nat) :
    cellRead (finishMessage bytes p s).outBuf j = if j < bytes.length then bytes[j]? else cellRead s.outBuf j := by
  simp [cellRead_writeBytes]

/-- OUT_BUF as the host reads it after a message command: the result bytes that OUT_LEN covers, and zeros. -/
theorem maskedOutByte_messageCommand (code : ErrCode) (bytes : List Byte) (p : Nat) (s : State) (j : Nat) :
    maskedOutByte (messageCommand code bytes p s) j =
      if code = .none ∧ j < bytes.length % 2 ^ 32 then bytes[j]?.getD 0x00#8 else 0x00#8 := by
  by_cases hcode : code = .none
  · rw [messageCommand, if_pos hcode, maskedOutByte, finishMessage_outLen, BitVec.toNat_ofNat]
    by_cases hj : j < bytes.length % 2 ^ 32
    · have hlength : j < bytes.length := hj.trans_le (Nat.mod_le _ _)
      rw [if_pos hj, if_pos ⟨hcode, hj⟩, readOutByte, cellRead_finishMessage, if_pos hlength]
      simp [hlength]
    · rw [if_neg hj, if_neg (hj ·.2)]
  · rw [messageCommand_of_fail hcode, if_neg (hcode ·.1)]
    exact maskedOutByte_of_outLen_zero rfl j

theorem messageCommand_outLen (code : ErrCode) (bytes : List Byte) (p : Nat) (s : State) :
    (messageCommand code bytes p s).outLen = if code = .none then BitVec.ofNat 32 bytes.length else 0#32 := by
  rw [messageCommand]
  split <;> rfl

theorem messageCommand_padOut (code : ErrCode) (bytes : List Byte) (p : Nat) (s : State) :
    (messageCommand code bytes p s).padOut = if code = .none then BitVec.ofNat 3 p else 0#3 := by
  rw [messageCommand]
  split <;> rfl

theorem messageCommand_errCode (code : ErrCode) (bytes : List Byte) (p : Nat) (s : State) :
    (messageCommand code bytes p s).status.errCode = code := by
  rw [messageCommand]
  split
  · exact Eq.symm ‹_›
  · rfl

/-! What a message command's result depends on (45_block_framer.md rules R233, R234) -/

theorem encodeCheck_congr (hcfg : s.cfg = s'.cfg) (hlen : s.inLen = s'.inLen) : encodeCheck s = encodeCheck s' := by
  rw [encodeCheck, encodeCheck, hcfg, hlen]

theorem decodeCheck_congr (q : Nat) (hcfg : s.cfg = s'.cfg) (hlen : s.inLen = s'.inLen) :
    decodeCheck q s = decodeCheck q s' := by
  rw [decodeCheck, decodeCheck, hcfg, hlen]

theorem message_congr (h : SameMessage s s') : message s = message s' := by
  obtain ⟨hlen, hbytes⟩ := h
  rw [message, message, ← hlen]
  exact List.map_congr_left fun j hj => hbytes j (List.mem_range.1 hj)

theorem encodedMessage_congr (hcfg : s.cfg = s'.cfg) (hkey : s.key = s'.key) (h : SameMessage s s') :
    encodedMessage s = encodedMessage s' := by
  rw [encodedMessage, encodedMessage, message_congr h, hcfg, hkey]

/-- A decoded byte does not depend on the blocks beside its own. -/
theorem stripTail_decodedMessage_getElem?_congr (q : Nat) {b j : Nat} (hcfg : s.cfg = s'.cfg) (hkey : s.key = s'.key)
    (hlen : s.inLen = s'.inLen) (hbytes : ∀ j, j / 8 ≠ b → readInByte s j = readInByte s' j) (hj : j / 8 ≠ b) :
    (stripTail q (decodedMessage s))[j]? = (stripTail q (decodedMessage s'))[j]? := by
  rw [stripTail_decodedMessage_getElem?, stripTail_decodedMessage_getElem?, hcfg, hkey, hlen,
    transformedByte_congr _ _ fun i hi => hbytes i (hi ▸ hj)]

end Sys2Proof.Machine

namespace Sys2Proof.Claims

open Sys2Proof.Machine

/-- Settles O38: the formula is the definition; the rest is arithmetic modulo 8, and the examples are computed. -/
theorem paddingCount : Obligations.PaddingCount :=
  ⟨fun n => ⟨rfl, (padcount_spec n).1, padcount_eq_zero_iff n, (padcount_spec n).2⟩, by decide⟩

/-- Settles O24: each condition decides the check, and a failed check writes only OUT_LEN, PAD_OUT and STATUS. -/
theorem msgEncErrors : Obligations.MsgEncErrors := fun _ =>
  ⟨fun hlong => exec_msgEnc_of_fail (encodeCheck_of_too_long hlong) (by decide),
    fun hempty => exec_msgEnc_of_fail (encodeCheck_of_empty hempty) (by decide),
    fun ⟨hlong, hempty⟩ => by omega,
    by decide⟩

/-- Settles O26: each condition decides the check; PADIN is at most 7, so only an empty message is shorter. -/
theorem msgDecErrors : Obligations.MsgDecErrors := fun s q => by
  refine ⟨fun hlong => exec_msgDec_of_fail (decodeCheck_of_too_long _ hlong) (by decide),
    fun hfits hodd => exec_msgDec_of_fail (decodeCheck_of_misaligned _ hfits hodd) (by decide),
    fun hfits hwhole hshort => ⟨?_, exec_msgDec_of_fail (decodeCheck_of_short hfits hwhole hshort) (by decide)⟩,
    fun hwf hlen => ?_⟩
  · have := q.isLt
    omega
  · obtain ⟨hmax, _, _⟩ := cfg_wf_max hwf
    omega

/-- Settles O23: the checks pass, and the result is the transform of the padded message, byte by byte. -/
theorem msgEncCompletes : Obligations.MsgEncCompletes := fun s hwf hpos hfits => by
  have hlength := encodedMessage_length s
  have hbound := encodedMessage_fits hwf (encodeCheck_none.2 ⟨hfits, hpos⟩)
  obtain ⟨_, _, hmax⟩ := cfg_wf_max hwf
  obtain ⟨hpad, _⟩ := padcount_spec s.inLen.toNat
  have houtLen := finishMessage_outLen_toNat (hbound.trans hmax) (padcount s.inLen.toNat) s
  refine ⟨_, exec_msgEnc_of_pass hfits hpos, houtLen.trans hlength, ?_, fun j hj => ?_, fun j hj => ?_,
    finishMessage_eq _ _ s⟩
  · rw [finishMessage_padOut, BitVec.toNat_ofNat, Nat.mod_eq_of_lt (by omega)]
  · rw [houtLen] at hj
    rw [cellRead_finishMessage, if_pos hj, encodedMessage_getElem? s (hlength ▸ hj)]
  · rw [cellRead_finishMessage, if_neg (by omega)]

/-- Settles O25: the checks pass, and the result is the transform of the message under the reversed subkeys, without its
last bytes. -/
theorem msgDecCompletes : Obligations.MsgDecCompletes := fun s q hwf hfits hwhole hq => by
  have hlength := stripTail_decodedMessage_length q.toNat s
  obtain ⟨_, _, hmax⟩ := cfg_wf_max hwf
  have houtLen := finishMessage_outLen_toNat (bytes := stripTail q.toNat (decodedMessage s)) (by omega) 0 s
  refine ⟨_, exec_msgDec_of_pass hfits hwhole hq, by omega, rfl, fun j hj => ?_, fun j hj => ?_,
    finishMessage_eq _ _ s⟩
  · rw [houtLen] at hj
    rw [cellRead_finishMessage, if_pos hj, stripTail_decodedMessage_getElem?, if_pos (hlength ▸ hj)]
  · rw [cellRead_finishMessage, if_neg (by omega)]

/-- Settles O40: equal checks and equal encoded messages give equal results, and the mask hides the rest of OUT_BUF. -/
theorem encodingIsDeterministic : Obligations.EncodingIsDeterministic := fun s s' t t' hcfg hkey hmsg ht ht' => by
  have ⟨hlen, _⟩ := hmsg
  rw [exec_msgEnc] at ht ht'
  cases ht
  cases ht'
  rw [encodeCheck_congr hcfg hlen, encodedMessage_congr hcfg hkey hmsg, hlen]
  simp only [messageCommand_outLen, messageCommand_padOut, messageCommand_errCode, maskedOutByte_messageCommand,
    implies_true, and_self]

/-- Settles O41: equal checks and equal lengths give equal OUT_LEN, and a decoded byte depends on its own block alone. -/
theorem blocksAreIndependent : Obligations.BlocksAreIndependent :=
  fun s s' t t' q b hcfg hkey hlen hbytes ht ht' => by
  have hlength : (stripTail q.toNat (decodedMessage s)).length = (stripTail q.toNat (decodedMessage s')).length := by
    rw [stripTail_decodedMessage_length, stripTail_decodedMessage_length, hlen]
  rw [exec_msgDec] at ht ht'
  cases ht
  cases ht'
  rw [decodeCheck_congr q.toNat hcfg hlen]
  refine ⟨?_, fun j hj => ?_⟩
  · rw [messageCommand_outLen, messageCommand_outLen, hlength]
  · rw [maskedOutByte_messageCommand, maskedOutByte_messageCommand, hlength,
      stripTail_decodedMessage_getElem?_congr q.toNat hcfg hkey hlen hbytes hj]

/-- Settles O39: the padding count MSG_ENC gives makes MSG_DEC's checks pass, each block of the ciphertext is the
transform of a block of the padded message, which the reversed subkeys take back, and the strip leaves the message. -/
theorem messageRoundTrip : Obligations.MessageRoundTrip := fun s t u hwf hpos hfits ht hcfg hkey hlen hcopied => by
  obtain ⟨t, ht', houtLen, hpadOut, hcipher, -, -⟩ := msgEncCompletes s hwf hpos hfits
  obtain rfl := Host.Outcome.next.inj (ht'.symm.trans ht)
  obtain ⟨_, hwhole⟩ := padcount_spec s.inLen.toNat
  obtain ⟨hmax, _, _⟩ := cfg_wf_max hwf
  have hulen : u.inLen.toNat = s.inLen.toNat + padcount s.inLen.toNat := by rw [hlen, houtLen]
  obtain ⟨v, hv, hvLen, -, hplain, -, hframe⟩ :=
    msgDecCompletes u t.padOut (hcfg ▸ hwf) (by rw [hcfg]; omega) (by omega) (by omega)
  have hvLen' : v.outLen.toNat = s.inLen.toNat := by omega
  refine ⟨v, hv, congrArg (·.status.errCode) hframe, BitVec.eq_of_toNat_eq hvLen', fun j hj => ?_⟩
  have hblock : ∀ i, i / 8 = j / 8 → readInByte u i =
      transformedByte s.cfg.tables (roundKeys s.cfg.tables s.key).toList (paddedByte s) i := fun i hi => by
    have hcovered : i < t.outLen.toNat := by omega
    rw [hcopied i hcovered, readOutByte, hcipher i hcovered, Option.getD_some]
  rw [readOutByte, hplain j (by omega), Option.getD_some, hcfg, hkey, transformedByte_congr _ _ hblock,
    transformedByte_reverse (Tables.finalInvertsInitial (cfg_wf_tables hwf)), paddedByte, if_pos hj]

end Sys2Proof.Claims
end

section
/-!
SUPPORT. The code a command completes with (60_exceptions.md rules R250, R255).
-/

namespace Sys2Proof.Machine

/-- A command has one result, so the code of the result it is known to have is the code of every result. -/
theorem errCode_of_exec {i : Instr} {s t u : State} {code : ErrCode} (h : exec i s = .next t)
    (hresult : exec i s = .next u) (hcode : u.status.errCode = code) : t.status.errCode = code := by
  rw [hresult] at h
  cases h
  exact hcode

theorem blockCommand_errCode (keys : List Subkey) (s : State) :
    (blockCommand keys s).status.errCode = if s.status.ksv = false then .noSchedule else .none := by
  cases hksv : s.status.ksv
  · rw [blockCommand_of_no_schedule hksv]
    rfl
  · rw [blockCommand_of_schedule hksv]
    rfl

end Sys2Proof.Machine

namespace Sys2Proof.Claims

open Sys2Proof.Machine

/-- Settles O27: the commands without a check complete with one code each, a block command's code depends on KSV alone,
and a message command's code is the answer of its check, which asks the conditions in the order of rule R255. -/
theorem errorCodesOfCommands : Obligations.ErrorCodesOfCommands := fun i s t h => by
  cases i with
  | nop => exact errCode_of_exec h (exec_nop s) (State.complete_errCode ..)
  | clear => exact errCode_of_exec h (exec_clear s) (State.complete_errCode ..)
  | ksDerive => exact errCode_of_exec h (exec_ksDerive s) (State.complete_errCode ..)
  | blkEnc => exact errCode_of_exec h (exec_blkEnc s) (blockCommand_errCode ..)
  | blkDec => exact errCode_of_exec h (exec_blkDec s) (blockCommand_errCode ..)
  | msgEnc => exact errCode_of_exec h (exec_msgEnc s) (messageCommand_errCode (encodeCheck s) ..)
  | msgDec q => exact errCode_of_exec h (exec_msgDec q s) (messageCommand_errCode (decodeCheck q.toNat s) ..)
  | illegal w => exact errCode_of_exec h (exec_illegal w s) (State.complete_errCode ..)

end Sys2Proof.Claims
end

section
/-!
SUPPORT. The reset input, and a KEY written after KS_DERIVE (70_reset_and_hazards.md rules R280, R281, R288).
-/

namespace Sys2Proof.Machine

variable {s : State}

/-- The reset input is the whole step, BUSY or not (70_reset_and_hazards.md rule R280). -/
theorem step_reset (hwf : s.cfg.wf = true) (hturn : nextTurn s = .reset) : step s = .next s.popTurn.resetBlock := by
  rw [step_of_wf hwf, hturn, agentStep]

/-- Neither branch of a block command reads or writes KEY (44_feistel_round_engine.md rules R208, R209). -/
theorem blockCommand_with_key (keys : List Subkey) (s : State) (k : Block) :
    blockCommand keys { s with key := k } = { blockCommand keys s with key := k } := by
  cases hksv : s.status.ksv
  · rw [blockCommand_of_no_schedule (s := s) hksv, blockCommand_of_no_schedule (s := { s with key := k }) hksv]
  · rw [blockCommand_of_schedule (s := s) hksv, blockCommand_of_schedule (s := { s with key := k }) hksv]

end Sys2Proof.Machine

namespace Sys2Proof.Claims

open Sys2Proof.Machine

/-- Settles O9: the reset clears OUT_LEN, which masks every OUT_BUF byte, and keeps the bytes of IN_BUF. -/
theorem resetStepRestoresRegisters : Obligations.ResetStepRestoresRegisters := fun s hwf hturn =>
  ⟨s.popTurn.resetBlock, step_reset hwf hturn, rfl, rfl, rfl,
    maskedOutByte_of_outLen_zero (State.resetBlock_outLen s.popTurn), fun _ => rfl⟩

/-- Settles O22: the subkeys are those of RK, which a write of KEY leaves, and the rest of the command reads no KEY. -/
theorem blockCommandsUseHeldSchedule : Obligations.BlockCommandsUseHeldSchedule := by
  rintro s k i (rfl | rfl)
  · exact ⟨_, exec_blkEnc s, congrArg Host.Outcome.next (blockCommand_with_key (encodeOrder s.rk) s k)⟩
  · exact ⟨_, exec_blkDec s, congrArg Host.Outcome.next (blockCommand_with_key (decodeOrder s.rk) s k)⟩

end Sys2Proof.Claims
end
